-- ==== Sys2Proof/Word.lean ====
section
/-! DEFINITION. The word types of the block: the widths of R8, R60, R61 (10_state.md, 20_memory.md). -/

namespace Sys2Proof

/-- One byte: a frame byte, a request byte, a byte lane of a host word (R8, R31 to R33). -/
abbrev Byte := BitVec 8

/-- The 16-bit registers (`CRC`, `BUF_LEN`, `EXP_LEN`, `RX_CNT`, ...: R25 to R27, R34 to R39). -/
abbrev Half := BitVec 16

/-- One host-bus word (R60: "the data is 32 bits wide"). -/
abbrev Word := BitVec 32

/-- A byte offset in the host register window (R60: "The offset is 12 bits wide"). -/
abbrev Offset := BitVec 12

/-- The six request bytes `REQ[0..5]`, in wire order (R32, R28, R90). -/
structure ReqBytes where
  /-- `REQ[0]`: the address byte. -/
  address : Byte
  /-- `REQ[1]`: the function code. -/
  function : Byte
  /-- `REQ[2]`: register address, high byte. -/
  regHi : Byte
  /-- `REQ[3]`: register address, low byte. -/
  regLo : Byte
  /-- `REQ[4]`: count or value, high byte. -/
  valHi : Byte
  /-- `REQ[5]`: count or value, low byte. -/
  valLo : Byte
deriving DecidableEq, Repr

/-- One event of the RX side of the line (R40): a byte, or a silence at least `READ_TIMEOUT` long
that falls inside a read operation. -/
inductive RxEvent where
  | byte (b : Byte)
  | gap
deriving DecidableEq, Repr, Inhabited

end Sys2Proof
end

