-- ==== Sys2Proof/Syntax.lean ====
section
/-! DEFINITION. The commands of the block, one constructor per row of spec/opcode_table.json (R86,
30_encoding.md), and the assembler's surface form of a command (R95). -/

namespace Sys2Proof

/-- A command with the operands it uses. Fields a command does not use are no part of it (R82:
"the command behaves as if it were 0"). -/
inductive Instr where
  /-- `NOP` (R103). -/
  | nop
  /-- `CRCI`: initialise the CRC register (R104). -/
  | crci
  /-- `CRCB imm8`: fold one byte into the CRC register (R105). `imm8` is a number as the assembler
  reads it (R95); `Instr.wf` says that it fits. -/
  | crcb (imm8 : Nat)
  /-- `CRCG`: generate the CRC of the first `BUF_LEN` bytes of `FBUF` (R106). -/
  | crcg
  /-- `CRCV`: verify the trailing CRC of the `BUF_LEN`-byte frame in `FBUF` (R107). -/
  | crcv
  /-- `HDRC`: classify the header in `FBUF[0..1]` (R131). -/
  | hdrc
  /-- `ENC`: encode the request frame (R132). -/
  | enc
  /-- `SEND`: transmit the encoded request frame (R170). -/
  | send
  /-- `SYNC`: resynchronise on the RX stream (R134). -/
  | sync
  /-- `RDF`: read one frame of expected total length `EXP_LEN` (R140). -/
  | rdf
  /-- `EXEC[.NR][.LO]`: one complete transaction (R173). -/
  | exec (noresp lovr : Bool)
  /-- `HSK`: the handshake (R174). -/
  | hsk
  /-- `PACE`: pace the bus (R175). -/
  | pace
deriving DecidableEq, Repr

/-- The mnemonics of R86 and R95. -/
inductive Mnemonic where
  | nop | crci | crcb | crcg | crcv | hdrc | enc | send | sync | rdf | exec | hsk | pace
deriving DecidableEq, Repr

/-- The suffixes of `EXEC` (R95). -/
inductive Suffix where
  | nr
  | lo
deriving DecidableEq, Repr

/-- The parts of one line of assembler source: a mnemonic, its suffixes in the order written, and its operand if it
has one (R95). -/
structure AsmLine where
  mnemonic : Mnemonic
  suffixes : List Suffix
  operand : Option Nat
deriving DecidableEq, Repr

end Sys2Proof
end

