-- ==== Sys2Proof/WellFormed.lean ====
section
/-! DEFINITION. When a command can be encoded: the assembler's check on its operand (R95, 30_encoding.md). -/

namespace Sys2Proof

/-- R95: `imm8` is `0..255`; "An operand that does not fit (`imm8 > 255`) ... is a syntax error". No other
command has an operand that could fail to fit: `NORESP` and `LOVR` are single bits (R81). -/
def Instr.wf : Instr → Bool
  | .crcb imm8 => decide (imm8 ≤ 255)
  | .nop | .crci | .crcg | .crcv | .hdrc | .enc | .send | .sync | .rdf | .exec _ _ | .hsk | .pace => true

end Sys2Proof
end

