-- ==== Sys2Proof/Decode.lean ====
section
/-! DEFINITION. Decoding a command word (R80 to R88, 30_encoding.md), total on every word and rejecting by
name; after it the encoder and the assembler's front end (R95). -/

namespace Sys2Proof

/-- Why a word is illegal (R87: "A word is illegal when `RSVD ≠ 0` or `OPC ≥ 0x0D`"). -/
inductive Illegal where
  /-- `RSVD ≠ 0` (R83). -/
  | reservedBits
  /-- `OPC ≥ 0x0D` (R87). -/
  | noSuchOpcode
deriving DecidableEq, Repr

/-- `OPC`: bits 7:0 (R80). -/
def fieldOpc (v : Word) : BitVec 8 := v.extractLsb' 0 8

/-- `IMM8`: bits 15:8 (R80, R81). -/
def fieldImm8 (v : Word) : BitVec 8 := v.extractLsb' 8 8

/-- `NORESP`: bit 16 (R80). -/
def fieldNoresp (v : Word) : Bool := v.getLsbD 16

/-- `LOVR`: bit 17 (R80). -/
def fieldLovr (v : Word) : Bool := v.getLsbD 17

/-- `RSVD`: bits 31:18 (R80). -/
def fieldRsvd (v : Word) : BitVec 14 := v.extractLsb' 18 14

/-- The opcode of a command (R86). -/
def Instr.opcode : Instr → BitVec 8
  | .nop => 0x00
  | .crci => 0x01
  | .crcb _ => 0x02
  | .crcg => 0x03
  | .crcv => 0x04
  | .hdrc => 0x05
  | .enc => 0x06
  | .send => 0x07
  | .sync => 0x08
  | .rdf => 0x09
  | .exec _ _ => 0x0A
  | .hsk => 0x0B
  | .pace => 0x0C

/-- The decoding procedure of R88. -/
def decode (v : Word) : Except Illegal Instr :=
  if fieldRsvd v ≠ 0 then .error .reservedBits
  else
    match (fieldOpc v).toNat with
    | 0x00 => .ok .nop
    | 0x01 => .ok .crci
    | 0x02 => .ok (.crcb (fieldImm8 v).toNat)
    | 0x03 => .ok .crcg
    | 0x04 => .ok .crcv
    | 0x05 => .ok .hdrc
    | 0x06 => .ok .enc
    | 0x07 => .ok .send
    | 0x08 => .ok .sync
    | 0x09 => .ok .rdf
    | 0x0A => .ok (.exec (fieldNoresp v) (fieldLovr v))
    | 0x0B => .ok .hsk
    | 0x0C => .ok .pace
    | _ => .error .noSuchOpcode

/-- The command that the opcode-table word `w` of `nbits` bits decodes to; `none` where the word is illegal.
A command word is one 32-bit bus word, so the table's bit numbers are the word's own (R80). -/
def decodeTableWord (nbits w : Nat) : Option Instr :=
  match decode (BitVec.ofNat 32 (w % 2 ^ nbits)) with
  | .ok i => some i
  | .error _ => none

/-! ### The encoder (R95) -/

/-- The `IMM8` operand of a command, 0 for a command that has none (R82, R95). -/
def Instr.imm8 : Instr → Nat
  | .crcb imm8 => imm8
  | .nop | .crci | .crcg | .crcv | .hdrc | .enc | .send | .sync | .rdf | .exec _ _ | .hsk | .pace => 0

/-- The `NORESP` bit of a command (R80, R95). -/
def Instr.noresp : Instr → Bool
  | .exec nr _ => nr
  | .nop | .crci | .crcb _ | .crcg | .crcv | .hdrc | .enc | .send | .sync | .rdf | .hsk | .pace => false

/-- The `LOVR` bit of a command (R80, R95). -/
def Instr.lovr : Instr → Bool
  | .exec _ lo => lo
  | .nop | .crci | .crcb _ | .crcg | .crcv | .hdrc | .enc | .send | .sync | .rdf | .hsk | .pace => false

/-- R95: `word = (LOVR << 17) | (NORESP << 16) | (imm8 << 8) | OPC`. -/
def encode (i : Instr) : Word :=
  (BitVec.ofNat 32 i.lovr.toNat <<< 17) ||| (BitVec.ofNat 32 i.noresp.toNat <<< 16)
    ||| (BitVec.ofNat 32 i.imm8 <<< 8) ||| i.opcode.setWidth 32

/-! ### The assembler's front end (R95) -/

/-- The command that a mnemonic without suffix or operand stands for; `none` for `CRCB`, which needs one. -/
def Mnemonic.plain : Mnemonic → Option Instr
  | .nop => some .nop
  | .crci => some .crci
  | .crcb => none
  | .crcg => some .crcg
  | .crcv => some .crcv
  | .hdrc => some .hdrc
  | .enc => some .enc
  | .send => some .send
  | .sync => some .sync
  | .rdf => some .rdf
  | .exec => some (.exec false false)
  | .hsk => some .hsk
  | .pace => some .pace

/-- R95: an assembler line to a command. The suffixes of `EXEC` stand "in either order", each at most once;
a suffix on another mnemonic, a missing or extra operand and an operand that does not fit are syntax errors. -/
def assemble (l : AsmLine) : Option Instr :=
  match l.mnemonic, l.suffixes, l.operand with
  | .exec, suffixes, none =>
    if suffixes.Nodup then some (.exec (suffixes.contains .nr) (suffixes.contains .lo)) else none
  | .crcb, [], some imm8 => if imm8 ≤ 255 then some (.crcb imm8) else none
  | m, [], none => m.plain
  | _, _, _ => none

/-! ### The text of an assembler line (R95, log 19) -/

/-- A text cut at every character that `cut` holds of. -/
def cutAt (cut : Char → Bool) : List Char → List (List Char)
  | [] => [[]]
  | c :: cs =>
    if cut c then [] :: cutAt cut cs
    else
      match cutAt cut cs with
      | [] => [[c]]
      | w :: ws => (c :: w) :: ws

/-- The words of a line, without the comment that `;` begins. -/
def lineWords (text : List Char) : List (List Char) :=
  (cutAt (fun c => c == ' ' || c == '\t') (text.takeWhile (· != ';'))).filter (!·.isEmpty)

/-- The mnemonics as R86 and R95 write them. -/
def mnemonicOf : List Char → Option Mnemonic
  | ['N', 'O', 'P'] => some .nop
  | ['C', 'R', 'C', 'I'] => some .crci
  | ['C', 'R', 'C', 'B'] => some .crcb
  | ['C', 'R', 'C', 'G'] => some .crcg
  | ['C', 'R', 'C', 'V'] => some .crcv
  | ['H', 'D', 'R', 'C'] => some .hdrc
  | ['E', 'N', 'C'] => some .enc
  | ['S', 'E', 'N', 'D'] => some .send
  | ['S', 'Y', 'N', 'C'] => some .sync
  | ['R', 'D', 'F'] => some .rdf
  | ['E', 'X', 'E', 'C'] => some .exec
  | ['H', 'S', 'K'] => some .hsk
  | ['P', 'A', 'C', 'E'] => some .pace
  | _ => none

/-- The suffixes as R95 writes them, without their point. -/
def suffixOf : List Char → Option Suffix
  | ['N', 'R'] => some .nr
  | ['L', 'O'] => some .lo
  | _ => none

/-- The digits of a "0x-hex" operand (R95) in the order of their values; the decimal digits are the first ten. -/
def hexDigits : List Char := "0123456789ABCDEF".toList

/-- The value of a digit is its place among `hexDigits`; letters in either case (log 19). -/
def digitOf (c : Char) : Option Nat := hexDigits.idxOf? c.toUpper

/-- The number that digits of base `base` write, after digits worth `value`. -/
def digitsOf (base value : Nat) : List Char → Option Nat
  | [] => some value
  | c :: cs =>
    match digitOf c with
    | some d => if d < base then digitsOf base (base * value + d) cs else none
    | none => none

/-- An operand, "decimal or 0x-hex" (R95). -/
def numberOf : List Char → Option Nat
  | [] | ['0', 'x'] => none
  | '0' :: 'x' :: ds => digitsOf 16 0 ds
  | ds => digitsOf 10 0 ds

/-- The parts of a line: its mnemonic with its suffixes, and at most one operand (R95). -/
def parseLine (text : List Char) : Option AsmLine := do
  let (head, operand) ←
    match lineWords text with
    | [head] => some (head, none)
    | [head, number] => (numberOf number).map fun n => (head, some n)
    | _ => none
  match cutAt (· == '.') head with
  | [] => none
  | name :: suffixes =>
    some { mnemonic := ← mnemonicOf name, suffixes := ← suffixes.mapM suffixOf, operand := operand }

/-- R95: the text of an assembler line to a command; `none` for a syntax error. -/
def assembleText (text : List Char) : Option Instr := (parseLine text).bind assemble

end Sys2Proof
end

