-- ==== Sys2Proof/Config.lean ====
section
/-! DEFINITION. What the block fixes (the parameters of R6 and R49 at the values the spec gives), the
parameters the spec leaves OPEN, and the free values: constants with no body, so that no proof can
lean on what they are. -/

namespace Sys2Proof.Config

/-! ### Parameters with a value (R6, 00_scope.md) -/

/-- `DEV_ADDR`: the first byte of every header the block recognises (R6, R130). -/
def devAddr : Byte := 0x01

/-- `FC_READ`: "read register(s)" (R6). -/
def fcRead : Byte := 0x03

/-- `FC_WRITE`: "write single register" (R6). -/
def fcWrite : Byte := 0x06

/-- `LEN_READ`: the default total response length for function code 0x03 (R6, R171). -/
def lenRead : Nat := 7

/-- `LEN_WRITE`: the default total response length for function code 0x06 (R6, R171). -/
def lenWrite : Nat := 8

/-- `W_READ`: the payload width expected of a 0x03 response (R6, R172). -/
def widthRead : Nat := 2

/-- `W_WRITE`: the payload width expected of a 0x06 response (R6, R172). -/
def widthWrite : Nat := 3

/-- `HDR_CONSUMED`: the two header bytes and the length-indicator byte (R6, R136). -/
def hdrConsumed : Nat := 3

/-- `MAX_FRAME`: the size of the frame buffer in bytes (R6, R31). -/
def maxFrame : Nat := 512

/-- `MIN_FRAME`: the smallest legal expected total length (R6, R27). -/
def minFrame : Nat := 5

/-- `HS_REQ`: the handshake request bytes `01 03 00 FD 00 01` (R6, R93, R174). -/
def hsReq : ReqBytes :=
  { address := 0x01, function := 0x03, regHi := 0x00, regLo := 0xFD, valHi := 0x00, valLo := 0x01 }

/-- `HS_MAGIC`: the value the last payload byte of the handshake response must have (R6, R174). -/
def hsMagic : Byte := 0x82

/-- The constant `ID` register (R21). -/
def idWord : Word := 0x4D420001

/-- `READ_TIMEOUT` in milliseconds (R6, R222: 1 s).
The model is untimed: a window's expiry is a `gap` event of the line (R40, R43), so no step reads this. -/
def readTimeoutMs : Nat := 1000

/-! ### Parameters the spec leaves OPEN (R6): no value is known of them -/

/-- `PACE_INTERVAL` (R6, R175, U9): OPEN, in the unit of `State.waited`. -/
opaque paceInterval : Nat

/-- `WRITE_TIMEOUT` (R6, R223, U10): OPEN.
Its effect appears only through the line's answers to offered bytes (R41), so no step reads this. -/
opaque writeTimeout : Nat

/-! ### Free values (R48, R71, R250, R40, R41; 93_implementation_defined.md U1 to U3, U7, U8) -/

/-- The value the n-th draw gives to a read of an `FBUF` byte that nothing has written since reset (R48, U1). -/
opaque freeByte : Nat → Byte

/-- The value the n-th draw gives to a host read the spec leaves unspecified (R71 and U2; R250 and U3). -/
opaque freeWord : Nat → Word

/-- Whether the line accepts an offered byte at the n-th draw, where `Line.txAnswers` lists no answer (R41, U8). -/
opaque lineAccepts : Nat → Bool

/-- The n-th event of a line that never falls silent for good (R40: "the model must admit every `RXQ`"; R261, U12). -/
opaque lineEvent : Nat → RxEvent

end Sys2Proof.Config
end

