-- ==== Sys2Proof/Machine/State.lean ====
section
/-! DEFINITION. The machine's state as plain data (10_state.md): the block's registers, buffers and
hidden sequencer; the two sides of the serial line (R40, R41); and the host's side of the bus. -/

namespace Sys2Proof.Machine

/-! ### Faults and refusals -/

/-- Faults. There is none: "No access is ever misaligned, and no access faults" (R61), the block has no
bus-error response (R62) and no traps (60_exceptions.md), and each command ends by writing a result code. -/
inductive Fault : Type
deriving DecidableEq, Repr

/-- Refusals. -/
inductive Refusal where
  /-- An instruction that has no meaning yet; raised only by `exec`'s arms, and no arm raises it now. Safe. -/
  | notModelled (mnemonic : String)
deriving DecidableEq, Repr

/-! ### STATUS (R24) and its fields -/

/-- `HDR_CLASS` (R24, R130): 0 Unknown, 1 Read, 2 Write. Code 3 is never produced (U5), so it has no constructor. -/
inductive HdrClass where
  | unknown
  | read
  | write
deriving DecidableEq, Repr

/-- `STATUS.RESULT` codes (R210). Codes 10 to 15 are never produced (U5), so they have no constructor. -/
inductive Result where
  | none
  | ok
  | timeout
  | badHeader
  | lenMismatch
  | incompleteWrite
  | hsFail
  | illegalCmd
  | lenErr
  | locked
deriving DecidableEq, Repr

/-- The fields of `STATUS` (R24). -/
structure Status where
  busy : Bool
  done : Bool
  fatal : Bool
  collide : Bool
  crcChk : Bool
  crcErr : Bool
  hdrClass : HdrClass
  result : Result
  hsOk : Bool
deriving DecidableEq, Repr

/-- The `STATUS` flags that a command's pseudocode writes as it runs, before its completion (R46, R141, R174). -/
structure Flags where
  crcChk : Bool
  crcErr : Bool
  hdrClass : HdrClass
  hsOk : Bool
deriving DecidableEq, Repr

/-- Those flags of a `STATUS`. -/
def Status.flags (t : Status) : Flags :=
  { crcChk := t.crcChk, crcErr := t.crcErr, hdrClass := t.hdrClass, hsOk := t.hsOk }

/-! ### The sequencer (R36) -/

/-- `SEQ.step`: the point reached in the running command's pseudocode (R36), which is where it next needs
something from outside: one answer of the line, the end of the pace interval, or, at `crcLoop` and
`check`, only its own computation. -/
inductive SeqPoint where
  /-- `CRC_LOOP(i)`: a command that does not touch the line, at byte `i` of its computation. It is entered
  at 0 and finished in one move (R264: "a model treats it as one step"). -/
  | crcLoop (i : Nat)
  /-- `TX(i)`: byte `i` of the request is the next one offered to the line. -/
  | tx (i : Nat)
  /-- `SYNC_FILL`: filling the two-byte window. -/
  | syncFill
  /-- `SYNC_SLIDE`: the window holds an Unknown pair and one more byte is awaited. -/
  | syncSlide
  /-- `LEN_BYTE`: the length-indicator byte is awaited. -/
  | lenByte
  /-- `BODY(m)`: `m` body bytes have been received. -/
  | body (m : Nat)
  /-- `CHECK`: the whole frame has been received. -/
  | check
  /-- `PACE`: the pace interval is running. -/
  | pace
deriving DecidableEq, Repr

/-- `SEQ` (R36). `SEQ.cmd` and `SEQ.step` have meaning only while `SEQ.phase = RUN`, so they exist only then.
`seen` is the unbounded byte count of R133's pseudocode. `before` is the model's own: the flags as they stood when the
command was accepted, which is what the host sees of them until it completes (R72, R73; DEDUCED, log 23). -/
inductive Seq where
  | idle
  | run (cmd : Word) (point : SeqPoint) (seen : Nat) (before : Flags)
deriving DecidableEq, Repr

/-! ### Buffers -/

/-- `TXBUF[0..7]`: the encoded request frame `REQ[0..5] ++ [crcLo, crcHi]` (R33). -/
structure TxBuf where
  req : ReqBytes
  crcLo : Byte
  crcHi : Byte
deriving DecidableEq, Repr

/-- Bytes held by address, in one canonical form (`Memory.wf`). An address that is not listed has not been
written since reset and reads as a fresh draw (R48), so no listed byte ever equals what an unlisted
address reads as. -/
abbrev Memory := List Host.Cell

/-- The canonical form: addresses strictly rising, all inside `FBUF[0 .. MAX_FRAME-1]` (R31). -/
abbrev Memory.wf (m : Memory) : Prop :=
  m.Pairwise (fun x y => x.1 < y.1) ∧ ∀ c ∈ m, c.1 < Config.maxFrame

/-! ### The line (R40, R41): environment, not state of the block (R47) -/

/-- How the RX stream goes on after the events listed in `Line.rxq` (R40). -/
inductive RxTail where
  /-- "A finite `RXQ` continues as `Gap` forever". -/
  | silent
  /-- An infinite `RXQ`: its next event is `Config.lineEvent pos`, which nothing constrains (R261, U12). -/
  | endless (pos : Nat)
deriving DecidableEq, Repr

/-- The two sides of the serial line. -/
structure Line where
  /-- `RXQ`: the events the line delivers next, oldest first (R40). -/
  rxq : List RxEvent
  /-- What follows the listed events. -/
  tail : RxTail
  /-- The line's answers to the bytes offered next: accepted or not (R41). After the last, each answer is a draw. -/
  txAnswers : List Bool
  /-- `TXLOG`: every byte the line has accepted, oldest first (R41). -/
  txlog : List Byte
deriving DecidableEq, Repr

/-! ### The host's side of the bus -/

/-- What happens next at the block's inputs: the host's bus accesses in the order it issues them (R73), the
`rst` input (R250), and, between them, how far a running command gets (R36). -/
inductive BusAction where
  /-- `MemRead(a, 4)`. -/
  | read (a : Offset)
  /-- `MemWrite(a, 4, v)`. A command it issues is run as one atomic transition (R72). -/
  | write (a : Offset) (v : Word)
  /-- `MemWrite(a, 4, v)`, where the next action may land before the command it issues completes: the command
  is only accepted, and `tick`, `wait` or an empty list moves it on (the non-atomic view of R36 and R71). -/
  | writeRacing (a : Offset) (v : Word)
  /-- The sequencer makes its next move. -/
  | tick
  /-- The host waits until `STATUS.DONE = 1` (R74, the `WAIT` line of R96). -/
  | wait
  /-- The `rst` input is asserted or released (R250). -/
  | rst (asserted : Bool)
deriving DecidableEq, Repr

/-- The host's side of the bus. -/
structure HostSide where
  /-- The actions still to come, the next one first. -/
  bus : List BusAction
  /-- The word the host drives in its latest write: what `SEQ.cmd` latches (R23). -/
  wdata : Word
  /-- The words the host has read, oldest first. -/
  reads : List Word
deriving DecidableEq, Repr

/-! ### The whole machine -/

/-- The state of the machine. -/
structure State where
  /-- `CTRL.IE` (R22). -/
  ie : Bool
  /-- `STATUS` (R24). -/
  status : Status
  /-- `CRC[15:0]` (R25). -/
  crc : Half
  /-- `BUF_LEN[15:0]` (R26). -/
  bufLen : Half
  /-- `EXP_LEN[15:0]` (R27). -/
  expLen : Half
  /-- `REQ[0..5]`, seen by the host as `REQ_LO` and `REQ_HI` (R28, R32). -/
  req : ReqBytes
  /-- `TXBUF[0..7]`, seen by the host as `TX_LO` and `TX_HI` (R29, R33). -/
  txbuf : TxBuf
  /-- `TX_CNT[3:0]` (R30). -/
  txCnt : BitVec 4
  /-- `RX_CNT[15:0]` (R34). -/
  rxCnt : Half
  /-- `PAY_LEN[15:0]` (R35). -/
  payLen : Half
  /-- `RESP_VAL[15:0]` (R37). -/
  respVal : Half
  /-- `LEN_BYTE[7:0]` (R38). -/
  lenByte : Byte
  /-- `DROP_CNT[15:0]` (R39). -/
  dropCnt : Half
  /-- `FBUF[0..511]` (R31). -/
  fbuf : Memory
  /-- `SEQ` (R36). -/
  seq : Seq
  /-- `WIN.w0` (R42). -/
  win0 : Byte
  /-- `WIN.w1` (R42). -/
  win1 : Byte
  /-- The level of the `rst` input (R250). -/
  rst : Bool
  /-- The serial line (R40, R41). -/
  line : Line
  /-- The host's side of the bus. -/
  host : HostSide
  /-- The model's own: how many free values have been drawn. -/
  draws : Nat
  /-- The model's own: the total time spent in the primitive `Wait` (R10, R175). -/
  waited : Nat
deriving DecidableEq, Repr

/-! ### Reset values (R47) -/

/-- `STATUS` after reset: 0 (R47). -/
def Status.reset : Status :=
  { busy := false, done := false, fatal := false, collide := false, crcChk := false, crcErr := false,
    hdrClass := .unknown, result := .none, hsOk := false }

/-- Six zero bytes (R47). -/
def reqReset : ReqBytes :=
  { address := 0, function := 0, regHi := 0, regLo := 0, valHi := 0, valLo := 0 }

/-- The machine right after reset: every register at its value in R47, `FBUF` all unspecified (R48), `WIN` at 0
(R42: unspecified; DESIGN CHOICE, log 2), the line silent and the host with nothing to do (DESIGN CHOICE, log 4),
no free value drawn and no time waited (DESIGN CHOICE, log 3). -/
def State.reset : State :=
  { ie := false
    status := Status.reset
    crc := 0xFFFF
    bufLen := 0
    expLen := 0
    req := reqReset
    txbuf := { req := reqReset, crcLo := 0, crcHi := 0 }
    txCnt := 0
    rxCnt := 0
    payLen := 0
    respVal := 0
    lenByte := 0
    dropCnt := 0
    fbuf := []
    seq := .idle
    win0 := 0
    win1 := 0
    rst := false
    line := { rxq := [], tail := .silent, txAnswers := [], txlog := [] }
    host := { bus := [], wdata := 0, reads := [] }
    draws := 0
    waited := 0 }

end Sys2Proof.Machine
end

