-- ==== Sys2Proof/Machine/Ops.lean ====
section
/-! DEFINITION. The named operations over bytes, memory, the line and the registers that every meaning is
written with: the primitives of R10, the CRC of R100 and R101, `RxRead` and `TxWrite` of R40 and R41, and
command acceptance and completion (R214 to R218), the block's only "trap entry". -/

namespace Sys2Proof.Machine

/-! ### Bytes and words (R8, R66 to R69) -/

/-- `h[7:0]`. -/
def loByte (h : Half) : Byte := h.extractLsb' 0 8

/-- `h[15:8]`. -/
def hiByte (h : Half) : Byte := h.extractLsb' 8 8

/-- A 16-bit value from two bytes, high byte first (R69, R139). -/
def halfOfBytes (hi lo : Byte) : Half := (hi.setWidth 16 <<< 8) ||| lo.setWidth 16

/-- Byte lane `k` of a host word: bits `8k+7 : 8k` (R66). -/
def byteLane (w : Word) (k : Nat) : Byte := w.extractLsb' (8 * k) 8

/-- A host word from its four byte lanes, lowest lane first (R66, R67). -/
def packWord (b0 b1 b2 b3 : Byte) : Word := b3 ++ b2 ++ b1 ++ b0

/-- The bytes `REQ[0..5]` in wire order (R32). -/
def reqList (r : ReqBytes) : List Byte :=
  [r.address, r.function, r.regHi, r.regLo, r.valHi, r.valLo]

/-- The bytes `TXBUF[0..7]` in wire order (R33, R90). -/
def txList (t : TxBuf) : List Byte := reqList t.req ++ [t.crcLo, t.crcHi]

/-- `TXBUF[i]`; the block asks for `i < 8` only. -/
def txByte (t : TxBuf) (i : Nat) : Byte := (txList t).getD i 0

/-! ### The CRC (R100, R101) -/

/-- One of the eight shifts of `crc_step` (R100). -/
def crcShift (c : Half) : Half :=
  if c.getLsbD 0 then (c >>> 1) ^^^ 0xA001 else c >>> 1

/-- `crc_step(c, b)` (R100). -/
def crcStep (c : Half) (b : Byte) : Half :=
  Nat.iterate crcShift 8 (c ^^^ b.setWidth 16)

/-- `crc16(s)` (R101). -/
def crc16 (s : List Byte) : Half := s.foldl crcStep 0xFFFF

/-- The two CRC bytes in wire order, low byte first (R68, R101). -/
def crcWire (c : Half) : List Byte := [loByte c, hiByte c]

/-! ### Memory held as cells -/

/-- The byte listed at address `i`, if one is. -/
def Memory.get? : Memory → Nat → Option Byte
  | [], _ => none
  | c :: m, i => if c.1 = i then some c.2 else Memory.get? m i

/-- The memory with `v` at address `i`, in canonical form. -/
def Memory.set : Memory → Nat → Byte → Memory
  | [], i, v => [(i, v)]
  | c :: m, i, v =>
    if i < c.1 then (i, v) :: c :: m
    else if i = c.1 then (i, v) :: m
    else c :: Memory.set m i v

/-! ### Free values -/

/-- A fresh unspecified byte (R48). -/
def drawByte (s : State) : Byte × State :=
  (Config.freeByte s.draws, { s with draws := s.draws + 1 })

/-- A fresh unspecified word (R71, R250). -/
def drawWord (s : State) : Word × State :=
  (Config.freeWord s.draws, { s with draws := s.draws + 1 })

/-! ### FBUF (R31, R48) -/

/-- Reads `FBUF[i]`: the byte last written there, or a fresh draw where nothing has been written since
reset (R48, U1: "Two reads of it may return different values"). -/
def fbufRead (i : Nat) (s : State) : Byte × State :=
  match Memory.get? s.fbuf i with
  | some b => (b, s)
  | none => drawByte s

/-- Reads `FBUF[i], FBUF[i+1], ...`, `n` bytes in order. -/
def fbufRange : Nat → Nat → State → List Byte × State
  | _, 0, s => ([], s)
  | i, n + 1, s =>
    let (b, s₁) := fbufRead i s
    let (bs, s₂) := fbufRange (i + 1) n s₁
    (b :: bs, s₂)

/-- `FBUF[i] <- b`. There is no byte at `MAX_FRAME` or above (R31), and no rule writes one. -/
def fbufWrite (i : Nat) (b : Byte) (s : State) : State :=
  if i < Config.maxFrame then { s with fbuf := Memory.set s.fbuf i b } else s

/-- `FBUF[i] <- bs[0], FBUF[i+1] <- bs[1], ...`. -/
def fbufStore : Nat → List Byte → State → State
  | _, [], s => s
  | i, b :: bs, s => fbufStore (i + 1) bs (fbufWrite i b s)

/-! ### The line (R40, R41) -/

/-- Takes the next event from the RX stream: `pop_front(RXQ)`, which is `Gap` if `RXQ` is empty and stays
silent (R40). -/
def rxPop (s : State) : RxEvent × State :=
  match s.line.rxq with
  | e :: q => (e, { s with line := { s.line with rxq := q } })
  | [] =>
    match s.line.tail with
    | .silent => (.gap, s)
    | .endless n => (Config.lineEvent n, { s with line := { s.line with tail := .endless (n + 1) } })

/-- `RxRead(n)` (R40): at most `n` bytes; fewer when the read's `READ_TIMEOUT` expired. -/
def rxRead : Nat → State → List Byte × State
  | 0, s => ([], s)
  | n + 1, s =>
    match rxPop s with
    | (.gap, s₁) => ([], s₁)
    | (.byte b, s₁) =>
      let (bs, s₂) := rxRead n s₁
      (b :: bs, s₂)

/-- Offers one byte to the line (R41): whether the line accepts it, and the state after. An accepted byte is
appended to `TXLOG`. -/
def txOffer (b : Byte) (s : State) : Bool × State :=
  match s.line.txAnswers with
  | true :: q => (true, { s with line := { s.line with txAnswers := q, txlog := s.line.txlog ++ [b] } })
  | false :: q => (false, { s with line := { s.line with txAnswers := q } })
  | [] =>
    if Config.lineAccepts s.draws then
      (true, { s with line := { s.line with txlog := s.line.txlog ++ [b] }, draws := s.draws + 1 })
    else (false, { s with draws := s.draws + 1 })

/-- `TxWrite(s)` (R41): offers the bytes in order, stops at the first one not accepted, and answers how many
were accepted. -/
def txWrite : List Byte → State → Nat × State
  | [], s => (0, s)
  | b :: bs, s =>
    match txOffer b s with
    | (true, s₁) =>
      let (k, s₂) := txWrite bs s₁
      (k + 1, s₂)
    | (false, s₁) => (0, s₁)

/-- `Wait(t)` (R10): the block stays busy for time `t` and touches no port. -/
def waitFor (t : Nat) (s : State) : State := { s with waited := s.waited + t }

/-! ### How a stretch of pseudocode ends (R10) -/

/-- The end of a stretch of pseudocode. -/
inductive Flow where
  /-- It goes on to the next statement; at the end of the pseudocode, `finish(OK)`. -/
  | next (s : State)
  /-- `raise Result(code)`. -/
  | raise (code : Result) (s : State)
  /-- The command is still running: `SEQ` says what it waits for. -/
  | hold (s : State)
deriving DecidableEq, Repr

/-- Sequencing: `k` runs only where the first stretch goes on. -/
def Flow.andThen (f : Flow) (k : State → Flow) : Flow :=
  match f with
  | .next s => k s
  | .raise code s => .raise code s
  | .hold s => .hold s

/-! ### Acceptance, completion, collision (R211, R214 to R218) -/

/-- The fatal results (R211). -/
def Result.isFatal : Result → Bool
  | .badHeader | .incompleteWrite | .hsFail => true
  | .none | .ok | .timeout | .lenMismatch | .illegalCmd | .lenErr | .locked => false

/-- Acceptance (R214): `SEQ` runs the latched command word from its entry point `p`; `BUSY <- 1`, `DONE <- 0`. The flags
are remembered as they stand (log 23). -/
def accept (p : SeqPoint) (s : State) : State :=
  { s with
    seq := .run s.host.wdata p 0 s.status.flags
    status := { s.status with busy := true, done := false } }

/-- Completion with a result code (R214, R215): what taking a trap is on other machines. Nothing is rolled back. -/
def complete (code : Result) (s : State) : State :=
  { s with
    seq := .idle
    status := { s.status with
      result := code, fatal := s.status.fatal || code.isFatal, busy := false, done := true } }

/-- Immediate completion (R216 steps 2 and 3): `DONE` and `RESULT`, without `BUSY` ever reading 1. -/
def completeAtOnce (code : Result) (s : State) : State :=
  { s with status := { s.status with result := code, done := true } }

/-- A collision (R217): the written command is dropped and `COLLIDE <- 1`. -/
def collide (s : State) : State :=
  { s with status := { s.status with collide := true } }

/-- Ends a command's pseudocode: `finish(OK)` or the completion with the code raised (R10, R214). A command
that still runs is left running. -/
def Flow.close : Flow → State
  | .next s => complete .ok s
  | .raise code s => complete code s
  | .hold s => s

/-- Moves `SEQ.step` of the running command (R36). -/
def setPoint (p : SeqPoint) (seen : Nat) (s : State) : State :=
  match s.seq with
  | .idle => s
  | .run cmd _ _ before => { s with seq := .run cmd p seen before }

/-- Issues a legal command (R216 steps 1, 3 and 4; R250: accesses during `rst` are ignored): dropped while
another runs, `LOCKED` where it touches the line and `FATAL = 1`, else accepted and run from its entry point. -/
def issue (touchesLine : Bool) (p : SeqPoint) (body : State → Flow) (s : State) : State :=
  if s.rst then s
  else if s.status.busy then collide s
  else if touchesLine && s.status.fatal then completeAtOnce .locked s
  else (body (accept p s)).close

/-! ### Reset (R250 to R252) -/

/-- What asserting `rst` does to the block (R47, R250): every piece of block state takes its reset value. The
line is not touched (R252), nor is what the host has seen and will do. -/
def blockReset (s : State) : State :=
  { State.reset with
    rst := s.rst, line := s.line, host := s.host, draws := s.draws, waited := s.waited }

end Sys2Proof.Machine
end

