-- ==== Sys2Proof/Machine/Flags.lean ====
section
/-! DEFINITION. Every computation of a `STATUS` field (R24, R46): result codes, header classes, the CRC check,
and the `irq` and timer levels that follow from the state (R43, R44). -/

namespace Sys2Proof.Machine

/-- The code of a result in `STATUS.RESULT[3:0]` (R210). -/
def Result.code : Result → BitVec 4
  | .none => 0
  | .ok => 1
  | .timeout => 2
  | .badHeader => 3
  | .lenMismatch => 4
  | .incompleteWrite => 5
  | .hsFail => 6
  | .illegalCmd => 7
  | .lenErr => 8
  | .locked => 9

/-- The code of a header class in `STATUS.HDR_CLASS` (R24, R130). -/
def HdrClass.code : HdrClass → BitVec 2
  | .unknown => 0
  | .read => 1
  | .write => 2

/-- `STATUS` as the host reads it (R24). -/
def Status.word (t : Status) : Word :=
  0#19 ++ BitVec.ofBool t.hsOk ++ t.result.code ++ t.hdrClass.code ++ BitVec.ofBool t.crcErr
    ++ BitVec.ofBool t.crcChk ++ BitVec.ofBool t.collide ++ BitVec.ofBool t.fatal
    ++ BitVec.ofBool t.done ++ BitVec.ofBool t.busy

/-- `STATUS` as the host sees it (R72, R73; DEDUCED, log 23). While a command runs, the flags that its pseudocode
writes read as they stood at its acceptance; `RESULT` and `FATAL` change at its completion only (R214), and `BUSY`,
`DONE` and `COLLIDE` are no part of what it computes. -/
def hostStatus (s : State) : Status :=
  match s.seq with
  | .idle => s.status
  | .run _ _ _ before =>
    if s.status.busy then
      { s.status with
        crcChk := before.crcChk, crcErr := before.crcErr, hdrClass := before.hdrClass, hsOk := before.hsOk }
    else s.status

/-- A host write of `v` to `STATUS`: clears each W1C bit (`DONE` is bit 1, `COLLIDE` is bit 3) that has a 1 in `v`
(R24, R65). -/
def Status.writeOneToClear (v : Word) (t : Status) : Status :=
  { t with done := t.done && !v.getLsbD 1, collide := t.collide && !v.getLsbD 3 }

/-- `classify(h0, h1)` (R130). -/
def classify (h0 h1 : Byte) : HdrClass :=
  if h0 = Config.devAddr ∧ h1 = Config.fcRead then .read
  else if h0 = Config.devAddr ∧ h1 = Config.fcWrite then .write
  else .unknown

/-- Whether the two CRC bytes received differ from the CRC computed (R107, R138). -/
def crcMismatch (c : Half) (lo hi : Byte) : Bool := loByte c != lo || hiByte c != hi

/-- `CRC_CHK <- 1; CRC_ERR <- e`. -/
def setCrcFlags (e : Bool) (s : State) : State :=
  { s with status := { s.status with crcChk := true, crcErr := e } }

/-- The check of the `n`-byte frame in `FBUF`, `n ≥ 2` (R107 after its length tests; `frame_check` of R138). -/
def checkFrame (n : Nat) (s : State) : State :=
  let (bs, s₁) := fbufRange 0 (n - 2) s
  let (lo, s₂) := fbufRead (n - 2) s₁
  let (hi, s₃) := fbufRead (n - 1) s₂
  setCrcFlags (crcMismatch (crc16 bs) lo hi) { s₃ with crc := crc16 bs }

/-- `HDR_CLASS <- c`. -/
def setHdrClass (c : HdrClass) (s : State) : State :=
  { s with status := { s.status with hdrClass := c } }

/-- `HS_OK <- b`. -/
def setHsOk (b : Bool) (s : State) : State :=
  { s with status := { s.status with hsOk := b } }

/-- `min(n, 0xFFFF)` as `DROP_CNT` holds it (R39, R133). -/
def saturate16 (n : Nat) : Half := BitVec.ofNat 16 (min n 0xFFFF)

/-- `irq = CTRL.IE & STATUS.DONE` (R44, R220). -/
def irq (s : State) : Bool := s.ie && s.status.done

/-- Whether `T_RD` runs: while one `RxRead` is under way (R43, R222). -/
def readTimerRuns (s : State) : Bool :=
  match s.seq with
  | .idle => false
  | .run _ p _ _ =>
    match p with
    | .syncFill | .syncSlide | .lenByte | .body _ => true
    | .crcLoop _ | .tx _ | .check | .pace => false

/-- Whether `T_WR` runs: while the line's answer to an offered byte is awaited (R43, R223). -/
def writeTimerRuns (s : State) : Bool :=
  match s.seq with
  | .idle => false
  | .run _ p _ _ =>
    match p with
    | .tx _ => true
    | .crcLoop _ | .syncFill | .syncSlide | .lenByte | .body _ | .check | .pace => false

/-- Whether `T_PACE` runs (R43, R224). -/
def paceTimerRuns (s : State) : Bool :=
  match s.seq with
  | .idle => false
  | .run _ p _ _ =>
    match p with
    | .pace => true
    | .crcLoop _ | .tx _ | .syncFill | .syncSlide | .lenByte | .body _ | .check => false

end Sys2Proof.Machine
end

