-- ==== Sys2Proof/Machine/Operands.lean ====
section
/-! DEFINITION. Where commands take their operands from (R20, R81): the immediate byte, `BUF_LEN`, `EXP_LEN`, the
request bytes and `FBUF`, with the length rules of R106, R107, R140 and R171. -/

namespace Sys2Proof.Machine

/-- `b = CMD[15:8]`, an unsigned byte (R81). -/
def immByte (imm8 : Nat) : Byte := BitVec.ofNat 8 imm8

/-- `N = BUF_LEN[15:0]`, where `N ≤ MAX_FRAME`; else `LEN_ERR` is due (R106, R107). -/
def bufLenOperand (s : State) : Option Nat :=
  if s.bufLen.toNat > Config.maxFrame then none else some s.bufLen.toNat

/-- `L = EXP_LEN[15:0]`, where `MIN_FRAME ≤ L ≤ MAX_FRAME`; else `LEN_ERR` is due (R140, R171). -/
def expLenOperand (s : State) : Option Nat :=
  if s.expLen.toNat < Config.minFrame ∨ s.expLen.toNat > Config.maxFrame then none
  else some s.expLen.toNat

/-- `expected_len()` (R171): the override, or the default of the request's function code; else `LEN_ERR` is due. -/
def expectedLen (lovr : Bool) (s : State) : Option Nat :=
  if lovr then expLenOperand s
  else if s.req.function = Config.fcRead then some Config.lenRead
  else if s.req.function = Config.fcWrite then some Config.lenWrite
  else none

/-- `w` of R172: the payload width that the response's function code asks for. -/
def expectedWidth (function : Byte) : Nat :=
  if function = Config.fcRead then Config.widthRead else Config.widthWrite

/-- `resp_value(L)` (R139) of the frame in `FBUF`, with the state after its reads. -/
def respValue (frameLen : Nat) (s : State) : Half × State :=
  if frameLen - 5 ≥ 2 then
    let (hi, s₁) := fbufRead (frameLen - 4) s
    let (lo, s₂) := fbufRead (frameLen - 3) s₁
    (halfOfBytes hi lo, s₂)
  else if frameLen - 5 = 1 then
    let (b, s₁) := fbufRead 3 s
    (b.setWidth 16, s₁)
  else (0, s)

end Sys2Proof.Machine
end

