-- ==== Sys2Proof/Machine/Crc.lean ====
section
/-! DEFINITION. The CRC family: NOP, CRCI, CRCB, CRCG, CRCV (40_crc.md, R103 to R107). No command of it touches the
line, so `FATAL` locks none of them (R216). Each has its pseudocode (`…Body`) and its meaning (`exec…`). -/

namespace Sys2Proof.Machine

/-- `NOP` (R103). -/
def nopBody (s : State) : Flow := .next s

/-- `CRCI` (R104): `CRC[15:0] <- 0xFFFF`. -/
def crciBody (s : State) : Flow := .next { s with crc := 0xFFFF }

/-- `CRCB b` (R105): `CRC[15:0] <- crc_step(CRC[15:0], b)`. -/
def crcbBody (b : Byte) (s : State) : Flow := .next { s with crc := crcStep s.crc b }

/-- `CRCG` (R106): the CRC of `FBUF[0 .. N-1]`, always from `0xFFFF`. -/
def crcgBody (s : State) : Flow :=
  match bufLenOperand s with
  | none => .raise .lenErr s
  | some n =>
    let (bs, s₁) := fbufRange 0 n s
    .next { s₁ with crc := crc16 bs }

/-- `CRCV` (R107): a frame too short to hold a CRC is a mismatch that leaves `CRC` unchanged. -/
def crcvBody (s : State) : Flow :=
  match bufLenOperand s with
  | none => .raise .lenErr s
  | some n => if n < 2 then .next (setCrcFlags true s) else .next (checkFrame n s)

/-- The meaning of `NOP`. -/
def execNop (s : State) : Host.Outcome State Fault Refusal :=
  .next (issue false (.crcLoop 0) nopBody s)

/-- The meaning of `CRCI`. -/
def execCrci (s : State) : Host.Outcome State Fault Refusal :=
  .next (issue false (.crcLoop 0) crciBody s)

/-- The meaning of `CRCB`. -/
def execCrcb (imm8 : Nat) (s : State) : Host.Outcome State Fault Refusal :=
  .next (issue false (.crcLoop 0) (crcbBody (immByte imm8)) s)

/-- The meaning of `CRCG`. -/
def execCrcg (s : State) : Host.Outcome State Fault Refusal :=
  .next (issue false (.crcLoop 0) crcgBody s)

/-- The meaning of `CRCV`. -/
def execCrcv (s : State) : Host.Outcome State Fault Refusal :=
  .next (issue false (.crcLoop 0) crcvBody s)

end Sys2Proof.Machine
end

