-- ==== Sys2Proof/Machine/Frame.lean ====
section
/-! DEFINITION. The frame-codec family: HDRC, ENC, SYNC, RDF (41_frame.md, R130 to R141), with the procedures
that the transactor family reuses: `rx_prologue`, `synchronize`, `read_frame`. -/

namespace Sys2Proof.Machine

/-! ### Classification and encoding -/

/-- `HDRC` (R131): `STATUS.HDR_CLASS <- classify(FBUF[0], FBUF[1])`. -/
def hdrcBody (s : State) : Flow :=
  let (h0, s₁) := fbufRead 0 s
  let (h1, s₂) := fbufRead 1 s₁
  .next (setHdrClass (classify h0 h1) s₂)

/-- The encoding of the request (R132): `TXBUF` holds `REQ` and its CRC, low byte first, and `CRC` the CRC. -/
def encodeRequest (s : State) : State :=
  { s with
    txbuf := { req := s.req, crcLo := loByte (crc16 (reqList s.req)), crcHi := hiByte (crc16 (reqList s.req)) }
    crc := crc16 (reqList s.req) }

/-- `ENC` (R132). -/
def encBody (s : State) : Flow := .next (encodeRequest s)

/-! ### Resynchronization (R133, R135, R141) -/

/-- `rx_prologue()` (R141): clears the RX flags and result registers, and neither `FBUF` nor `RXQ`. -/
def rxPrologue (s : State) : State :=
  { s with
    status := { s.status with crcChk := false, crcErr := false, hdrClass := .unknown }
    rxCnt := 0, payLen := 0, respVal := 0, lenByte := 0, dropCnt := 0 }

/-- How `synchronize()` ends (R133). -/
inductive Sync where
  /-- A known header is in the window after `seen` bytes. -/
  | found (seen : Nat) (s : State)
  /-- `EOS(seen)`: a read returned nothing. -/
  | eos (seen : Nat) (s : State)
  /-- An endless line delivered only bytes with no known header so far (R261): the search is still on. -/
  | searching (seen : Nat) (s : State)
deriving DecidableEq, Repr

/-- The loop of `synchronize()` (R133), `seen` bytes consumed so far. `fuel` bounds the events taken: on a line that
falls silent, one more than `RXQ` lists is enough, and on an endless line the loop itself has no bound. -/
def slide : Nat → Nat → State → Sync
  | fuel, seen, s =>
    if classify s.win0 s.win1 ≠ .unknown then .found seen s
    else
      match fuel with
      | 0 => .searching seen s
      | fuel + 1 =>
        match rxPop { s with win0 := s.win1 } with
        | (.gap, s₁) => .eos seen s₁
        | (.byte b, s₁) => slide fuel (seen + 1) { s₁ with win1 := b }

/-- `synchronize()` up to its two exits (R133). -/
def synchronize (s : State) : Sync :=
  match rxPop s with
  | (.gap, s₁) => .eos 0 s₁
  | (.byte b0, s₁) =>
    match rxPop { s₁ with win0 := b0 } with
    | (.gap, s₂) => .eos 1 s₂
    | (.byte b1, s₂) => slide (s₂.line.rxq.length + 1) 2 { s₂ with win1 := b1 }

/-- What `FOUND` writes (R133): the header bytes, `RX_CNT`, `HDR_CLASS` and the count of dropped bytes. -/
def syncFound (seen : Nat) (s : State) : State :=
  let s₁ := fbufWrite 1 s.win1 (fbufWrite 0 s.win0 s)
  setHdrClass (classify s.win0 s.win1) { s₁ with rxCnt := 2, dropCnt := saturate16 (seen - 2) }

/-- What end-of-stream writes and raises (R133, R135): `TIMEOUT` if no byte came, else `BAD_HEADER`. -/
def syncEos (seen : Nat) (s : State) : Flow :=
  .raise (if seen = 0 then .timeout else .badHeader) { s with dropCnt := saturate16 seen }

/-- `synchronize()` with its effects; a search that is still on leaves the command at `SYNC_SLIDE`. -/
def resync (s : State) : Flow :=
  match synchronize s with
  | .found seen s₁ => .next (syncFound seen s₁)
  | .eos seen s₁ => syncEos seen s₁
  | .searching seen s₁ => .hold (setPoint .syncSlide seen s₁)

/-- `SYNC` (R134). -/
def syncBody (s : State) : Flow := resync (rxPrologue s)

/-! ### Frame reading (R136 to R139) -/

/-- The length-indicator byte (R136): stored, counted and used for nothing. -/
def storeLenByte (b : Byte) (s : State) : State :=
  { fbufWrite 2 b s with lenByte := b, rxCnt := 3 }

/-- The body bytes received (R136). -/
def storeBody (bs : List Byte) (s : State) : State :=
  { fbufStore 3 bs s with rxCnt := BitVec.ofNat 16 (3 + bs.length) }

/-- The end of `read_frame(L)` once the whole frame is in `FBUF` (R136 to R139): the frame check, `PAY_LEN` and
`RESP_VAL`. -/
def deliver (frameLen : Nat) (s : State) : State :=
  let (v, s₁) := respValue frameLen (checkFrame frameLen s)
  { s₁ with payLen := BitVec.ofNat 16 (frameLen - 5), respVal := v }

/-- `read_frame(L)` after the header (R136): the length byte, then exactly `L - 3` further bytes. -/
def readRest (frameLen : Nat) (s : State) : Flow :=
  match rxPop s with
  | (.gap, s₁) => .raise .timeout s₁
  | (.byte b, s₁) =>
    let (bs, s₂) := rxRead (frameLen - Config.hdrConsumed) (storeLenByte b s₁)
    let s₃ := storeBody bs s₂
    if bs.length < frameLen - Config.hdrConsumed then .raise .timeout s₃
    else .next (deliver frameLen s₃)

/-- `read_frame(L)` (R136). -/
def readFrame (frameLen : Nat) (s : State) : Flow := (resync s).andThen (readRest frameLen)

/-- `RDF` (R140). -/
def rdfBody (s : State) : Flow :=
  match expLenOperand s with
  | none => .raise .lenErr s
  | some frameLen => readFrame frameLen (rxPrologue s)

/-! ### Meanings -/

/-- The meaning of `HDRC`. -/
def execHdrc (s : State) : Host.Outcome State Fault Refusal :=
  .next (issue false (.crcLoop 0) hdrcBody s)

/-- The meaning of `ENC`. -/
def execEnc (s : State) : Host.Outcome State Fault Refusal :=
  .next (issue false (.crcLoop 0) encBody s)

/-- The meaning of `SYNC`. -/
def execSync (s : State) : Host.Outcome State Fault Refusal :=
  .next (issue true .syncFill syncBody s)

/-- The meaning of `RDF`. -/
def execRdf (s : State) : Host.Outcome State Fault Refusal :=
  .next (issue true .syncFill rdfBody s)

end Sys2Proof.Machine
end

