-- ==== Sys2Proof/Machine/Transactor.lean ====
section
/-! DEFINITION. The transactor family: SEND, EXEC, HSK, PACE (42_transactor.md, R170 to R175). -/

namespace Sys2Proof.Machine

/-- The transmit step of `SEND` and `EXEC` (R170, R173): offers `TXBUF[0..7]`, records how many bytes the line
accepted, and raises `INCOMPLETE_WRITE` if it was fewer than 8. -/
def transmit (s : State) : Flow :=
  let (k, s₁) := txWrite (txList s.txbuf) s
  let s₂ := { s₁ with txCnt := BitVec.ofNat 4 k }
  if k < 8 then .raise .incompleteWrite s₂ else .next s₂

/-- `SEND` (R170). -/
def sendBody (s : State) : Flow := transmit s

/-- What `EXEC` does before it offers a byte (R173): the prologue, `TX_CNT <- 0`, and the encoding. -/
def prepareRequest (s : State) : State := encodeRequest { rxPrologue s with txCnt := 0 }

/-- `width_check(lovr)` (R172). -/
def widthCheck (lovr : Bool) (s : State) : Flow :=
  if lovr then .next s
  else
    let (function, s₁) := fbufRead 1 s
    if s₁.payLen.toNat ≠ expectedWidth function then .raise .lenMismatch { s₁ with payLen := 0, respVal := 0 }
    else .next s₁

/-- `EXEC[.NR][.LO]` (R173). -/
def execBody (noresp lovr : Bool) (s : State) : Flow :=
  if noresp then transmit (prepareRequest s)
  else
    match expectedLen lovr s with
    | none => .raise .lenErr s
    | some frameLen =>
      ((transmit (prepareRequest s)).andThen (readFrame frameLen)).andThen (widthCheck lovr)

/-- What `HSK` does before its inner `EXEC` (R174): `HS_OK <- 0` and `REQ <- HS_REQ`. -/
def hskBegin (s : State) : State := { setHsOk false s with req := Config.hsReq }

/-- What `HSK` makes of its inner `EXEC`'s end (R174): success needs `OK`, a Read header and the magic byte;
`INCOMPLETE_WRITE` and `BAD_HEADER` are kept, and every other failure becomes `HS_FAIL`. -/
def hskEnd : Flow → Flow
  | .next s =>
    let (b, s₁) := fbufRead 4 s
    if s₁.status.hdrClass = .read ∧ b = Config.hsMagic then .next (setHsOk true s₁)
    else .raise .hsFail (setHsOk false s₁)
  | .raise code s =>
    .raise (if code = .incompleteWrite ∨ code = .badHeader then code else .hsFail) (setHsOk false s)
  | .hold s => .hold s

/-- `HSK` (R174). -/
def hskBody (s : State) : Flow := hskEnd (execBody false false (hskBegin s))

/-- `PACE` (R175): `Wait(PACE_INTERVAL)`. -/
def paceBody (s : State) : Flow := .next (waitFor Config.paceInterval s)

/-! ### Meanings -/

/-- The meaning of `SEND`. -/
def execSend (s : State) : Host.Outcome State Fault Refusal :=
  .next (issue true (.tx 0) sendBody s)

/-- The meaning of `EXEC[.NR][.LO]`. -/
def execExec (noresp lovr : Bool) (s : State) : Host.Outcome State Fault Refusal :=
  .next (issue true (.tx 0) (execBody noresp lovr) s)

/-- The meaning of `HSK`. -/
def execHsk (s : State) : Host.Outcome State Fault Refusal :=
  .next (issue true (.tx 0) hskBody s)

/-- The meaning of `PACE`. -/
def execPace (s : State) : Host.Outcome State Fault Refusal :=
  .next (issue false .pace paceBody s)

end Sys2Proof.Machine
end

