-- ==== Sys2Proof/Machine/Dispatch.lean ====
section
/-! DEFINITION. One arm per command (R86): the issue of a legal command and its whole run as one atomic transition
(R72). -/

namespace Sys2Proof.Machine

/-- The meaning of each command. -/
def exec (i : Instr) (s : State) : Host.Outcome State Fault Refusal :=
  match i with
  | .nop => Sys2Proof.Machine.execNop s
  | .crci => Sys2Proof.Machine.execCrci s
  | .crcb imm8 => Sys2Proof.Machine.execCrcb imm8 s
  | .crcg => Sys2Proof.Machine.execCrcg s
  | .crcv => Sys2Proof.Machine.execCrcv s
  | .hdrc => Sys2Proof.Machine.execHdrc s
  | .enc => Sys2Proof.Machine.execEnc s
  | .send => Sys2Proof.Machine.execSend s
  | .sync => Sys2Proof.Machine.execSync s
  | .rdf => Sys2Proof.Machine.execRdf s
  | .exec noresp lovr => Sys2Proof.Machine.execExec noresp lovr s
  | .hsk => Sys2Proof.Machine.execHsk s
  | .pace => Sys2Proof.Machine.execPace s

end Sys2Proof.Machine
end

