-- ==== Sys2Proof/Machine/HostBus.lean ====
section
/-! DEFINITION. The host register window (20_memory.md, R60 to R67, R71): the register map, reads and writes. -/

namespace Sys2Proof.Machine

/-- The registers and the `FBUF` words of the map (R63). -/
inductive Reg where
  | id | ctrl | cmd | status | crc | bufLen | expLen | reqLo | reqHi | txLo | txHi | txCnt
  | rxCnt | payLen | respVal | lenByte | dropCnt
  /-- The word at `0x200 + 4*j` (R66). -/
  | fbuf (j : Nat)
deriving DecidableEq, Repr

/-- The register map without the `FBUF` window (R63). -/
def regMap : List (Nat × Reg) :=
  [(0x000, .id), (0x004, .ctrl), (0x008, .cmd), (0x00C, .status), (0x010, .crc), (0x014, .bufLen),
   (0x018, .expLen), (0x01C, .reqLo), (0x020, .reqHi), (0x024, .txLo), (0x028, .txHi), (0x02C, .txCnt),
   (0x030, .rxCnt), (0x034, .payLen), (0x038, .respVal), (0x03C, .lenByte), (0x040, .dropCnt)]

/-- The offset an access at `a` acts on: `a & 0xFFC` (R61). -/
def wordOffset (a : Offset) : Nat := (a &&& 0xFFC).toNat

/-- What the map lists at an offset; `none` where it is unmapped (R62, R63). -/
def regAt (a : Offset) : Option Reg :=
  if 0x200 ≤ wordOffset a ∧ wordOffset a < 0x400 then some (.fbuf ((wordOffset a - 0x200) / 4))
  else regMap.lookup (wordOffset a)

/-- The registers a host read gives the current value of even while `BUSY = 1` (R71). -/
def Reg.readableWhileBusy : Reg → Bool
  | .id | .ctrl | .status => true
  | .cmd | .crc | .bufLen | .expLen | .reqLo | .reqHi | .txLo | .txHi | .txCnt
  | .rxCnt | .payLen | .respVal | .lenByte | .dropCnt | .fbuf _ => false

/-- The registers a host write acts on even while `BUSY = 1` (R71); a write to `CMD` is issued, not stored. -/
def Reg.writableWhileBusy : Reg → Bool
  | .ctrl | .status => true
  | .id | .cmd | .crc | .bufLen | .expLen | .reqLo | .reqHi | .txLo | .txHi | .txCnt
  | .rxCnt | .payLen | .respVal | .lenByte | .dropCnt | .fbuf _ => false

/-- The `FBUF` word `j` (R66), with the state after its four byte reads. -/
def fbufReadWord (j : Nat) (s : State) : Word × State :=
  let (b0, s₀) := fbufRead (4 * j) s
  let (b1, s₁) := fbufRead (4 * j + 1) s₀
  let (b2, s₂) := fbufRead (4 * j + 2) s₁
  let (b3, s₃) := fbufRead (4 * j + 3) s₂
  (packWord b0 b1 b2 b3, s₃)

/-- The current value of a register (R21 to R39, R64), with the state after the read, which differs only where
an unwritten `FBUF` byte was drawn. -/
def regRead (r : Reg) (s : State) : Word × State :=
  match r with
  | .id => (Config.idWord, s)
  | .ctrl => ((BitVec.ofBool s.ie).setWidth 32, s)
  | .cmd => (0, s)
  | .status => ((hostStatus s).word, s)
  | .crc => (s.crc.setWidth 32, s)
  | .bufLen => (s.bufLen.setWidth 32, s)
  | .expLen => (s.expLen.setWidth 32, s)
  | .reqLo => (packWord s.req.address s.req.function s.req.regHi s.req.regLo, s)
  | .reqHi => (packWord s.req.valHi s.req.valLo 0 0, s)
  | .txLo => (packWord s.txbuf.req.address s.txbuf.req.function s.txbuf.req.regHi s.txbuf.req.regLo, s)
  | .txHi => (packWord s.txbuf.req.valHi s.txbuf.req.valLo s.txbuf.crcLo s.txbuf.crcHi, s)
  | .txCnt => (s.txCnt.setWidth 32, s)
  | .rxCnt => (s.rxCnt.setWidth 32, s)
  | .payLen => (s.payLen.setWidth 32, s)
  | .respVal => (s.respVal.setWidth 32, s)
  | .lenByte => (s.lenByte.setWidth 32, s)
  | .dropCnt => (s.dropCnt.setWidth 32, s)
  | .fbuf j => fbufReadWord j s

/-- Gives the host the word it reads. -/
def logRead (r : Word × State) : State :=
  { r.2 with host := { r.2.host with reads := r.2.host.reads ++ [r.1] } }

/-- `MemRead(a, 4)` (R61, R62, R64, R71, R250): unspecified during `rst`; 0 where the offset is unmapped; unspecified
for most registers while `BUSY = 1`. -/
def hostRead (a : Offset) (s : State) : State :=
  if s.rst then logRead (drawWord s)
  else
    match regAt a with
    | none => logRead (0, s)
    | some r =>
      if s.status.busy && !r.readableWhileBusy then logRead (drawWord s) else logRead (regRead r s)

/-- The defined bits of a register set from `v` (R65); nothing where the register is read-only. A write to `CMD` is
issued elsewhere and stores nothing (R23). -/
def regWrite (r : Reg) (v : Word) (s : State) : State :=
  match r with
  | .ctrl => { s with ie := v.getLsbD 0 }
  | .status => { s with status := s.status.writeOneToClear v }
  | .crc => { s with crc := v.extractLsb' 0 16 }
  | .bufLen => { s with bufLen := v.extractLsb' 0 16 }
  | .expLen => { s with expLen := v.extractLsb' 0 16 }
  | .reqLo =>
    { s with req := { s.req with
        address := byteLane v 0, function := byteLane v 1, regHi := byteLane v 2, regLo := byteLane v 3 } }
  | .reqHi => { s with req := { s.req with valHi := byteLane v 0, valLo := byteLane v 1 } }
  | .fbuf j => fbufStore (4 * j) [byteLane v 0, byteLane v 1, byteLane v 2, byteLane v 3] s
  | .id | .cmd | .txLo | .txHi | .txCnt | .rxCnt | .payLen | .respVal | .lenByte | .dropCnt => s

/-- `MemWrite(a, 4, v)` to anything but `CMD` (R61, R62, R65, R71, R250). -/
def hostStore (a : Offset) (v : Word) (s : State) : State :=
  if s.rst then s
  else
    match regAt a with
    | none => s
    | some r => if s.status.busy && !r.writableWhileBusy then s else regWrite r v s

end Sys2Proof.Machine
end

