-- ==== Sys2Proof/Machine/Sequencer.lean ====
section
/-! DEFINITION. The non-atomic view of a command (R36): accepted, then moved on one port primitive at a time from
`SEQ.step` to `SEQ.step`, so that host accesses and `rst` can land while it runs (R71, R217, R251) and a search
that finds no header runs forever (R261). "Everything a command does between two port primitives is
instantaneous" (R10), so each move ends where the next port primitive is due. -/

namespace Sys2Proof.Machine

/-- Whether a command touches the line, so that `FATAL` locks it (R216 step 3). -/
def touchesLine : Instr → Bool
  | .send | .sync | .rdf | .exec _ _ | .hsk => true
  | .nop | .crci | .crcb _ | .crcg | .crcv | .hdrc | .enc | .pace => false

/-- Whether a command that transmits goes on to read a response (R173, R177). -/
def awaitsResponse : Instr → Bool
  | .exec noresp _ => !noresp
  | .hsk => true
  | .nop | .crci | .crcb _ | .crcg | .crcv | .hdrc | .enc | .send | .sync | .rdf | .pace => false

/-- The `SEQ.step` a command is accepted at (R36). -/
def entryPoint : Instr → SeqPoint
  | .send | .exec _ _ | .hsk => .tx 0
  | .sync | .rdf => .syncFill
  | .pace => .pace
  | .nop | .crci | .crcb _ | .crcg | .crcv | .hdrc | .enc => .crcLoop 0

/-- The whole computation of a command that does not touch the line (R264). A command that waits at another point
has nothing to do here. -/
def localBody : Instr → State → Flow
  | .nop, s => nopBody s
  | .crci, s => crciBody s
  | .crcb imm8, s => crcbBody (immByte imm8) s
  | .crcg, s => crcgBody s
  | .crcv, s => crcvBody s
  | .hdrc, s => hdrcBody s
  | .enc, s => encBody s
  | .send, s | .sync, s | .rdf, s | .exec _ _, s | .hsk, s | .pace, s => .hold s

/-- What an accepted command does before its first port primitive: its legality checks and the prologue (R134,
R140, R173, R174). -/
def begin : Instr → State → Flow
  | .sync, s => .hold (rxPrologue s)
  | .rdf, s =>
    match expLenOperand s with
    | none => .raise .lenErr s
    | some _ => .hold (rxPrologue s)
  | .exec noresp lovr, s =>
    if noresp then .hold (prepareRequest s)
    else
      match expectedLen lovr s with
      | none => .raise .lenErr s
      | some _ => .hold (prepareRequest s)
  | .hsk, s => .hold (prepareRequest (hskBegin s))
  | .nop, s | .crci, s | .crcb _, s | .crcg, s | .crcv, s | .hdrc, s | .enc, s | .send, s | .pace, s => .hold s

/-- The expected total length of the frame that a running command reads: its operands are as they stood at
acceptance (R75), so it is computed as it was then. -/
def runningLen : Instr → State → Nat
  | .rdf, s => s.expLen.toNat
  | .exec _ lovr, s => (expectedLen lovr s).getD 0
  | .hsk, s => (expectedLen false s).getD 0
  | .nop, _ | .crci, _ | .crcb _, _ | .crcg, _ | .crcv, _ | .hdrc, _ | .enc, _ | .send, _ | .sync, _ | .pace, _ => 0

/-- `TX(k)`: offers `TXBUF[k]` (R41, R170, R173). -/
def moveTx (i : Instr) (k : Nat) (s : State) : Flow :=
  match txOffer (txByte s.txbuf k) s with
  | (true, s₁) =>
    if k + 1 < 8 then .hold (setPoint (.tx (k + 1)) 0 s₁)
    else
      let s₂ := { s₁ with txCnt := 8 }
      if awaitsResponse i then .hold (setPoint .syncFill 0 s₂) else .next s₂
  | (false, s₁) => .raise .incompleteWrite { s₁ with txCnt := BitVec.ofNat 4 k }

/-- The window is full after `seen` bytes (R133): stop at a known header, else slide on. -/
def windowFull (i : Instr) (seen : Nat) (s : State) : Flow :=
  if classify s.win0 s.win1 ≠ .unknown then
    let s₁ := syncFound seen s
    if i = .sync then .next s₁ else .hold (setPoint .lenByte 0 s₁)
  else .hold (setPoint .syncSlide seen s)

/-- `SYNC_FILL`: one `RxRead(1)` into `w0`, then one into `w1` (R133). -/
def moveSyncFill (i : Instr) (seen : Nat) (s : State) : Flow :=
  match rxPop s with
  | (.gap, s₁) => syncEos seen s₁
  | (.byte b, s₁) =>
    if seen = 0 then .hold (setPoint .syncFill 1 { s₁ with win0 := b })
    else windowFull i (seen + 1) { s₁ with win1 := b }

/-- `SYNC_SLIDE`: drops the oldest byte and pulls one more (R133). -/
def moveSyncSlide (i : Instr) (seen : Nat) (s : State) : Flow :=
  match rxPop { s with win0 := s.win1 } with
  | (.gap, s₁) => syncEos seen s₁
  | (.byte b, s₁) => windowFull i (seen + 1) { s₁ with win1 := b }

/-- `LEN_BYTE` (R136). -/
def moveLenByte (s : State) : Flow :=
  match rxPop s with
  | (.gap, s₁) => .raise .timeout s₁
  | (.byte b, s₁) => .hold (setPoint (.body 0) 0 (storeLenByte b s₁))

/-- `BODY(m)`: one more event of the read of `L - 3` bytes (R136, R222). -/
def moveBody (i : Instr) (m : Nat) (s : State) : Flow :=
  match rxPop s with
  | (.gap, s₁) => .raise .timeout s₁
  | (.byte b, s₁) =>
    let s₂ := { fbufWrite (3 + m) b s₁ with rxCnt := BitVec.ofNat 16 (3 + (m + 1)) }
    if m + 1 < runningLen i s - Config.hdrConsumed then .hold (setPoint (.body (m + 1)) 0 s₂)
    else .hold (setPoint .check 0 s₂)

/-- `CHECK`: the frame check and what follows it (R136 to R139, R172). -/
def moveCheck (i : Instr) (s : State) : Flow :=
  match i with
  | .exec _ lovr => widthCheck lovr (deliver (runningLen i s) s)
  | .hsk => widthCheck false (deliver (runningLen i s) s)
  | .nop | .crci | .crcb _ | .crcg | .crcv | .hdrc | .enc | .send | .sync | .rdf | .pace =>
    .next (deliver (runningLen i s) s)

/-- One move of the command `i` from the point it has reached. -/
def moveFrom (i : Instr) (p : SeqPoint) (seen : Nat) (s : State) : Flow :=
  match p with
  | .crcLoop _ => localBody i s
  | .tx k => moveTx i k s
  | .syncFill => moveSyncFill i seen s
  | .syncSlide => moveSyncSlide i seen s
  | .lenByte => moveLenByte s
  | .body m => moveBody i m s
  | .check => moveCheck i s
  | .pace => paceBody s

/-- `HSK` maps the end of the `EXEC` inside it (R174); every other command ends as its moves do. -/
def wrapEnd (i : Instr) (f : Flow) : Flow := if i = .hsk then hskEnd f else f

/-- One move of the sequencer: nothing while idle (R36). -/
def seqMove (s : State) : State :=
  match s.seq with
  | .idle => s
  | .run cmd p seen _ =>
    match decode cmd with
    | .ok i => (wrapEnd i (moveFrom i p seen s)).close
    | .error _ => s

/-- `n` moves of the sequencer. -/
def seqMoves : Nat → State → State
  | 0, s => s
  | n + 1, s => seqMoves n (seqMove s)

/-- The issue of a legal command in the non-atomic view: as `issue`, but an accepted command stops where its first
port primitive is due. -/
def issueRacing (i : Instr) (s : State) : State :=
  issue (touchesLine i) (entryPoint i) (begin i) s

end Sys2Proof.Machine
end

