-- ==== Sys2Proof/Machine/Issue.lean ====
section
/-! DEFINITION. How the machine comes to run a command (R23, R45, R216): it fetches none, the host writes each command
word to `CMD`. With that, every action at the block's inputs. -/

namespace Sys2Proof.Machine

/-- A host write of `v` to `CMD` (R216, in its order): ignored during `rst` (R250), a collision while `BUSY = 1` (R217),
`ILLEGAL_CMD` for an illegal word (R218), else the issue of the command, run as one atomic transition (R72). -/
def issueWord (v : Word) (s : State) : Host.Outcome State Fault Refusal :=
  if s.rst then .next s
  else if s.status.busy then .next (collide s)
  else
    match decode v with
    | .error _ => .next (completeAtOnce .illegalCmd s)
    | .ok i => exec i s

/-- The same write in the non-atomic view (R36): an accepted command is only started. -/
def issueWordRacing (v : Word) (s : State) : State :=
  if s.rst then s
  else if s.status.busy then collide s
  else
    match decode v with
    | .error _ => completeAtOnce .illegalCmd s
    | .ok i => issueRacing i s

/-- The state with the next action taken from the host's list. -/
def popAction (rest : List BusAction) (s : State) : State :=
  { s with host := { s.host with bus := rest } }

/-- The host drives the data of a write onto the bus. -/
def driveData (v : Word) (s : State) : State :=
  { s with host := { s.host with wdata := v } }

/-- One action at the block's inputs; `s` no longer lists it. With nothing listed, a running command moves on by
itself, and an idle block stays as it is (R265). `rst` resets the block when it is asserted and when it is released
(R250); DESIGN CHOICE (log 24): so does a `rst` action that does not change the level, of which the spec says nothing.
`wait` goes on once `DONE = 1` (R96); DESIGN CHOICE (log 26): during `rst`, where its reads of `STATUS` are unspecified
(R250), it tests the block's own `DONE` too. -/
def takeAction (act : BusAction) (rest : List BusAction) (s : State) : Host.Outcome State Fault Refusal :=
  match act with
  | .read a => .next (hostRead a (popAction rest s))
  | .write a v =>
    if regAt a = some .cmd then issueWord v (driveData v (popAction rest s))
    else .next (hostStore a v (driveData v (popAction rest s)))
  | .writeRacing a v =>
    if regAt a = some .cmd then .next (issueWordRacing v (driveData v (popAction rest s)))
    else .next (hostStore a v (driveData v (popAction rest s)))
  | .tick => .next (seqMove (popAction rest s))
  | .wait => if s.status.done then .next (popAction rest s) else .next (seqMove s)
  | .rst asserted => .next { blockReset (popAction rest s) with rst := asserted }

/-- One step of the machine. -/
def machineStep (s : State) : Host.Outcome State Fault Refusal :=
  match s.host.bus with
  | [] => .next (seqMove s)
  | act :: rest => takeAction act rest s

end Sys2Proof.Machine
end

