-- ==== Sys2Proof/Machine/Step.lean ====
section
/-! DEFINITION. One step, and where a step finds its next command: in the next write the host makes to `CMD` (R23, R45). -/

namespace Sys2Proof.Machine

/-- One step of the machine. -/
def step (s : State) : Host.Outcome State Fault Refusal := machineStep s

/-- `s` with the command word `w` of `nbits` bits as the next thing the host writes to `CMD`, and the block ready to
take it: idle and out of reset (R216, R250). -/
def State.withFetchWord (s : State) (nbits w : Nat) : State :=
  { s with
    host := { s.host with bus := .write 0x008 (BitVec.ofNat 32 (w % 2 ^ nbits)) :: s.host.bus }
    rst := false
    seq := .idle
    status := { s.status with busy := false } }

end Sys2Proof.Machine
end

