-- ==== Sys2Proof/Machine/Script.lean ====
section
/-! DEFINITION. Host scripts (R96), the host macros (R97) and batches (R176, R97 `BATCH`): programs of the host, each
expanded into the bus actions it stands for. The block keeps no state for them. -/

namespace Sys2Proof.Machine

/-- `offset(reg)`: where the map lists a register (R63, R66). DESIGN CHOICE (log 25): an `FBUF` word past the last one has
the offset that the same formula gives it, modulo the 12 bits of an offset. -/
def offsetOf (r : Reg) : Offset :=
  match r with
  | .fbuf j => BitVec.ofNat 12 (0x200 + 4 * j)
  | .id | .ctrl | .cmd | .status | .crc | .bufLen | .expLen | .reqLo | .reqHi | .txLo | .txHi | .txCnt
  | .rxCnt | .payLen | .respVal | .lenByte | .dropCnt =>
    match regMap.find? (fun e => decide (e.2 = r)) with
    | some e => BitVec.ofNat 12 e.1
    | none => 0

/-- `W <reg>, <v>` (R96). -/
def scriptW (r : Reg) (v : Word) : BusAction := .write (offsetOf r) v

/-- `R <reg>` (R96). -/
def scriptR (r : Reg) : BusAction := .read (offsetOf r)

/-- `C <command>` (R96). DESIGN CHOICE (log 19): the script goes on once the command has completed, its atomic
transition (R72); the spec does not say whether a `C` line's command can still be running at the next line. -/
def scriptC (i : Instr) : BusAction := .write 0x008 (encode i)

/-- `C <command>` (R96), where the next line may land while the command still runs: what a program that "needs the
non-atomic view" is written with (95_test_vectors.md §4, P7). -/
def scriptCRacing (i : Instr) : BusAction := .writeRacing 0x008 (encode i)

/-- The words of an `FB` line: four bytes each, lowest lane first, the last one padded with 0 (R96). -/
def fbWords : List Byte → List Word
  | [] => []
  | [b0] => [packWord b0 0 0 0]
  | [b0, b1] => [packWord b0 b1 0 0]
  | [b0, b1, b2] => [packWord b0 b1 b2 0]
  | b0 :: b1 :: b2 :: b3 :: bs => packWord b0 b1 b2 b3 :: fbWords bs

/-- The `W` lines that write words into `FBUF` from word `j` on (R96). -/
def fbLines : Nat → List Word → List BusAction
  | _, [] => []
  | j, w :: ws => scriptW (.fbuf j) w :: fbLines (j + 1) ws

/-- `FB <i>: <b0> <b1> ...`; `i` must be a multiple of 4 (R96). DESIGN CHOICE (log 25): a line that runs past `FBUF[511]` is
taken as its `W` lines like any other, of which the spec says nothing. -/
def scriptFB (i : Nat) (bs : List Byte) : Option (List BusAction) :=
  if i % 4 = 0 then some (fbLines (i / 4) (fbWords bs)) else none

/-- `REQ_LO` of the register macros: `(a[7:0] << 24) | (a[15:8] << 16) | (function code, address)` (R97). -/
def macroReqLo (a : Half) (codeAndAddress : Word) : Word :=
  ((loByte a).setWidth 32 <<< 24) ||| ((hiByte a).setWidth 32 <<< 16) ||| codeAndAddress

/-- `REQ_HI` of the register macros: `(n[7:0] << 8) | n[15:8]` (R97). -/
def macroReqHi (n : Half) : Word := ((loByte n).setWidth 32 <<< 8) ||| (hiByte n).setWidth 32

/-- `READREG a, n` (R97). -/
def readReg (a n : Half) : List BusAction :=
  [scriptW .reqLo (macroReqLo a 0x0301), scriptW .reqHi (macroReqHi n), scriptC (.exec false false), .wait]

/-- `WRITEREG a, v` (R97). -/
def writeReg (a v : Half) : List BusAction :=
  [scriptW .reqLo (macroReqLo a 0x0601), scriptW .reqHi (macroReqHi v), scriptC (.exec false false), .wait]

/-- `WRITEREG.NR a, v` (R97). -/
def writeRegNr (a v : Half) : List BusAction :=
  [scriptW .reqLo (macroReqLo a 0x0601), scriptW .reqHi (macroReqHi v), scriptC (.exec true false), .wait]

/-- `READBLK a, n` (R97): as `READREG`, with `EXP_LEN = 3 + 2*n + 2` and `EXEC.LO`. -/
def readBlk (a n : Half) : List BusAction :=
  [scriptW .reqLo (macroReqLo a 0x0301), scriptW .reqHi (macroReqHi n),
   scriptW .expLen (BitVec.ofNat 32 (3 + 2 * n.toNat + 2)), scriptC (.exec false true), .wait]

/-- `CRC16 i, n`, for bytes already in `FBUF` from 0 on (R97). -/
def crc16Macro (n : Half) : List BusAction :=
  [scriptW .bufLen (n.setWidth 32), scriptC .crcg, .wait]

/-- `PAUSE` (R97). -/
def pause : List BusAction := [scriptC .pace, .wait]

/-- One entry of a batch (R176). -/
inductive BatchEntry where
  /-- A read of `n` registers from `a` on. -/
  | readReg (a n : Half)
  /-- A write of `v` to the register `a`. -/
  | writeReg (a v : Half)
  /-- A `None` entry: pace the bus. -/
  | pace
deriving DecidableEq, Repr

/-- The expansion of one entry (R97); after a command entry the host reads `RESP_VAL` (R176). -/
def batchEntry : BatchEntry → List BusAction
  | .readReg a n => readReg a n ++ [scriptR .status, scriptR .respVal]
  | .writeReg a v => writeReg a v ++ [scriptR .status, scriptR .respVal]
  | .pace => pause

/-- `BATCH e1, ..., ek`: the entries in the order given (R97, R176). -/
def batch (es : List BatchEntry) : List BusAction := es.flatMap batchEntry

end Sys2Proof.Machine
end

