-- ==== Sys2Proof/Safety.lean ====
section
/-! DEFINITION. The terms that claims are stated in: when the block can take a command, what an RX stream holds, what a
finished transaction leaves, the invariant of the machine, and a host that keeps its duties (R256). -/

namespace Sys2Proof.Machine

/-! ### When a command is taken -/

/-- The block is out of reset and idle, so a `CMD` write is no collision (R216, R250). -/
abbrev Ready (s : State) : Prop := s.rst = false ∧ s.status.busy = false

/-- A command that touches the line is not locked (R216 step 3). -/
abbrev LineReady (s : State) : Prop := Ready s ∧ s.status.fatal = false

/-! ### What the RX stream and a frame hold -/

/-- No two neighbouring bytes are a known header pair: the garbage that C5 (90_conflicts.md) is about. -/
def noHeader : List Byte → Bool
  | a :: b :: bs => decide (classify a b = .unknown) && noHeader (b :: bs)
  | [_] | [] => true

/-- Bytes as the line delivers them (R40). -/
def delivered (bs : List Byte) : List RxEvent := bs.map .byte

/-- The response value of a whole frame (R139): the last two payload bytes, high byte first; the one payload byte;
or 0. -/
def frameValue (f : List Byte) : Half :=
  if f.length - 5 ≥ 2 then
    ((f.getD (f.length - 4) 0).setWidth 16 <<< 8) ||| (f.getD (f.length - 3) 0).setWidth 16
  else if f.length - 5 = 1 then (f.getD 3 0).setWidth 16
  else 0

/-- The bytes of a frame that its CRC covers: all but the last two (R138). -/
def frameCovered (f : List Byte) : List Byte := f.take (f.length - 2)

/-- Whether a frame's last two bytes differ from the CRC of the bytes before them (R138). -/
def frameBad (f : List Byte) : Bool := decide (f.drop (f.length - 2) ≠ crcWire (crc16 (frameCovered f)))

/-! ### What a transaction leaves -/

/-- `s` after the request `REQ[0..5]` and its CRC have been encoded and all 8 bytes accepted (R132, R173); `q` is what the
line still has to answer. -/
def requestSent (q : List Bool) (s : State) : State :=
  { s with
    txbuf := { req := s.req, crcLo := loByte (crc16 (reqList s.req)), crcHi := hiByte (crc16 (reqList s.req)) }
    crc := crc16 (reqList s.req)
    txCnt := 8
    line := { s.line with
      txAnswers := q
      txlog := s.line.txlog ++ (reqList s.req ++ crcWire (crc16 (reqList s.req))) } }

/-- `s` after the garbage `g` has been dropped and the whole frame `f` has been read into `FBUF`, then holding `m`, and
checked (R133, R136 to R139); `rest` is what is left on the line. -/
def frameReceived (g f : List Byte) (rest : List RxEvent) (m : Memory) (s : State) : State :=
  { s with
    status := { s.status with
      crcChk := true, crcErr := frameBad f, hdrClass := classify (f.getD 0 0) (f.getD 1 0) }
    crc := crc16 (frameCovered f)
    rxCnt := BitVec.ofNat 16 f.length
    payLen := BitVec.ofNat 16 (f.length - 5)
    respVal := frameValue f
    lenByte := f.getD 2 0
    dropCnt := saturate16 g.length
    fbuf := m
    win0 := f.getD 0 0
    win1 := f.getD 1 0
    line := { s.line with rxq := rest } }

/-- `s` after the garbage `g` has been dropped and the bytes `f`, a header and less than the rest of its frame, have been
read into `FBUF`, then holding `m`, and the line has fallen silent (R136); `rest` is what is left on the line. -/
def frameCut (g f : List Byte) (rest : List RxEvent) (m : Memory) (s : State) : State :=
  { s with
    status := { s.status with
      crcChk := false, crcErr := false, hdrClass := classify (f.getD 0 0) (f.getD 1 0) }
    rxCnt := BitVec.ofNat 16 f.length
    payLen := 0
    respVal := 0
    lenByte := f.getD 2 0
    dropCnt := saturate16 g.length
    fbuf := m
    win0 := f.getD 0 0
    win1 := f.getD 1 0
    line := { s.line with rxq := rest } }

/-- The RX stream delivers `bs` and then falls silent: by a gap, with `rest` behind it, or for good, since "a finite `RXQ`
continues as `Gap` forever" (R40). -/
abbrev FallsSilent (bs : List Byte) (rest : List RxEvent) (l : Line) : Prop :=
  l.rxq = delivered bs ++ .gap :: rest ∨ (l.rxq = delivered bs ∧ l.tail = .silent ∧ rest = [])

/-- `FBUF` as `m₀` had it, with the frame `f` at `FBUF[0 ..]` (R31, R136). -/
abbrev HoldsFrame (f : List Byte) (m₀ m : Memory) : Prop :=
  ∀ k, Memory.get? m k = if k < f.length then f[k]? else Memory.get? m₀ k

/-! ### The invariant -/

/-- The commands that search the RX stream for a header (R141). -/
def readsLine : Instr → Bool
  | .sync | .rdf | .hsk => true
  | .exec noresp _ => !noresp
  | .nop | .crci | .crcb _ | .crcg | .crcv | .hdrc | .enc | .send | .pace => false

/-- The commands that read a whole frame after the header (R136). -/
def readsFrame : Instr → Bool
  | .rdf | .hsk => true
  | .exec noresp _ => !noresp
  | .nop | .crci | .crcb _ | .crcg | .crcv | .hdrc | .enc | .send | .sync | .pace => false

/-- The expected total length of a command that reads a frame is legal (R136: "The caller has already checked `L`"). -/
def LegalLen (i : Instr) (s : State) : Prop :=
  readsFrame i = true → Config.minFrame ≤ runningLen i s ∧ runningLen i s ≤ Config.maxFrame

/-- What holds of a running command at the point it has reached (R36 with R133 and R136). -/
def PointFits (i : Instr) (p : SeqPoint) (seen : Nat) (s : State) : Prop :=
  match p with
  | .crcLoop _ => entryPoint i = .crcLoop 0
  | .tx k => k < 8 ∧ entryPoint i = .tx 0 ∧ (awaitsResponse i = true → s.rxCnt = 0 ∧ s.payLen = 0)
  | .syncFill => readsLine i = true ∧ seen ≤ 1 ∧ s.rxCnt = 0 ∧ s.payLen = 0
  | .syncSlide =>
    readsLine i = true ∧ 2 ≤ seen ∧ classify s.win0 s.win1 = .unknown ∧ s.rxCnt = 0 ∧ s.payLen = 0
  | .lenByte => readsFrame i = true ∧ s.rxCnt = 2 ∧ s.payLen = 0
  | .body m =>
    readsFrame i = true ∧ 3 + m < runningLen i s ∧ s.rxCnt.toNat = 3 + m ∧ s.payLen = 0
  | .check => readsFrame i = true ∧ s.rxCnt.toNat = runningLen i s ∧ s.payLen = 0
  | .pace => i = .pace

/-- What holds of the sequencer (R36): while it runs, it runs a legal command that is not locked, from a point that
belongs to it. -/
def SeqFits (s : State) : Prop :=
  match s.seq with
  | .idle => True
  | .run cmd p seen _ =>
    ∃ i, decode cmd = .ok i ∧ (touchesLine i = true → s.status.fatal = false) ∧ LegalLen i s ∧ PointFits i p seen s

/-- The invariant of the machine: true at reset and kept by every step. -/
structure Inv (s : State) : Prop where
  /-- `FBUF` is in canonical form and inside `FBUF[0 .. 511]` (R31). -/
  fbufWf : Memory.wf s.fbuf
  /-- "`STATUS.BUSY = 1` exactly when `SEQ.phase = RUN`" (R36). -/
  busyIff : s.status.busy = true ↔ s.seq ≠ .idle
  /-- "`DONE` is already 0 while `BUSY = 1`" (R71). -/
  notDone : s.status.busy = true → s.status.done = false
  /-- `TX_CNT` is 0 to 8 (R30). -/
  txCount : s.txCnt.toNat ≤ 8
  /-- `RX_CNT` counts bytes of `FBUF` (R34). -/
  rxCount : s.rxCnt.toNat ≤ Config.maxFrame
  /-- `PAY_LEN` is `L - 5` of the frame of `L = RX_CNT` bytes last read completely, or 0 (R35). -/
  payload : s.payLen = 0 ∨ s.payLen.toNat + 5 = s.rxCnt.toNat
  /-- While `rst` is asserted every piece of block state that has a reset value is at it (R250); `WIN` has none (R42). -/
  inReset : s.rst = true → s = { blockReset s with win0 := s.win0, win1 := s.win1 }
  /-- The sequencer runs a legal command from a point of its own (R36). -/
  seqFits : SeqFits s

/-! ### A host that keeps its duties (R256) -/

/-- The host's next access is one it may make now: while `BUSY = 1` it writes nothing but `CTRL` and `STATUS`, and reads
nothing but `ID`, `CTRL` and `STATUS` (R256, R71). -/
def hostObeys (s : State) : Bool :=
  match s.host.bus with
  | .read a :: _ => !s.status.busy || ((regAt a).map Reg.readableWhileBusy).getD true
  | .write a _ :: _ | .writeRacing a _ :: _ =>
    !s.status.busy || ((regAt a).map Reg.writableWhileBusy).getD true
  | .tick :: _ | .wait :: _ | .rst _ :: _ | [] => true

/-- A safe state: the invariant holds, the line is not given up (R211), and no command of the host has been dropped (R217). -/
def Safe (s : State) : Prop := Inv s ∧ s.status.fatal = false ∧ s.status.collide = false

end Sys2Proof.Machine
end

