-- ==== Sys2Proof/Certificates/Slice0/Obligations.lean ====
section
/-! DEFINITION. The statements for the provers, taken from the numbered rules of spec/. -/

open Sys2Proof Sys2Proof.Machine

/-! ### Encoding (30_encoding.md) -/

/-- R88, R95: decoding the encoding of a well-formed command gives it back, with every operand. -/
def Obligations.DecodeOfEncode : Prop :=
  ∀ i : Instr, i.wf = true → decode (encode i) = .ok i

/-- R83, R87: a word is rejected exactly when `RSVD ≠ 0` or `OPC ≥ 0x0D`. -/
def Obligations.IllegalWordsAreRejected : Prop :=
  ∀ v : Word, (∃ e, decode v = .error e) ↔ (v >>> 18 ≠ 0 ∨ 0x0D ≤ (v &&& 0xFF).toNat)

/-- R82: words that agree on `RSVD` and `OPC`, on `IMM8` where the command is `CRCB`, and on `NORESP` and `LOVR` where
it is `EXEC`, decode alike; with the ignored fields 0 among them. -/
def Obligations.IgnoredFieldsDoNotMatter : Prop :=
  ∀ v w : Word, v &&& 0xFFFC00FF = w &&& 0xFFFC00FF →
    (v &&& 0xFF = 0x02 → v &&& 0xFF00 = w &&& 0xFF00) →
    (v &&& 0xFF = 0x0A → v &&& 0x30000 = w &&& 0x30000) →
    decode v = decode w

/-- R86: under the mask 0xFFFC00FF a word that decodes matches the row of the command it decodes to, and no row of
another opcode; and its operands fit. -/
def Obligations.LegalWordsMatchOneRow : Prop :=
  ∀ (v : Word) (i : Instr), decode v = .ok i →
    v &&& 0xFFFC00FF = i.opcode.setWidth 32 ∧ i.wf = true ∧
    ∀ j : Instr, v &&& 0xFFFC00FF = j.opcode.setWidth 32 → j.opcode = i.opcode

/-- Words of 95_test_vectors.md §3 decode to the commands they stand for. -/
def Obligations.SampleWordsDecode : Prop :=
  decode 0x00000000 = .ok .nop ∧ decode 0x00000001 = .ok .crci ∧ decode 0x00003102 = .ok (.crcb 0x31) ∧
  decode 0x00000003 = .ok .crcg ∧ decode 0x00000005 = .ok .hdrc ∧ decode 0x00000006 = .ok .enc ∧
  decode 0x00000007 = .ok .send ∧ decode 0x00000009 = .ok .rdf ∧ decode 0x0001000A = .ok (.exec true false) ∧
  decode 0x0002000A = .ok (.exec false true) ∧ decode 0x0000000B = .ok .hsk ∧ decode 0x0000000C = .ok .pace ∧
  decode 0x0000000D = .error .noSuchOpcode ∧ decode 0x00040000 = .error .reservedBits

/-- R95: each mnemonic, as it is written, gives its command; what the assembler takes, it encodes as the formula says,
and the word decodes to what it took; `.NR` sets `NORESP` and `.LO` sets `LOVR`, in either order; a suffix elsewhere and an
operand above 255 are errors. -/
def Obligations.AssembledLinesEncode : Prop :=
  (∀ e ∈ ([("NOP", .nop, .nop), ("CRCI", .crci, .crci), ("CRCG", .crcg, .crcg), ("CRCV", .crcv, .crcv),
      ("HDRC", .hdrc, .hdrc), ("ENC", .enc, .enc), ("SEND", .send, .send), ("SYNC", .sync, .sync), ("RDF", .rdf, .rdf),
      ("EXEC", .exec, .exec false false), ("HSK", .hsk, .hsk), ("PACE", .pace, .pace)] :
      List (String × Mnemonic × Instr)),
    parseLine e.1.toList = some ⟨e.2.1, [], none⟩ ∧ assemble ⟨e.2.1, [], none⟩ = some e.2.2) ∧
  parseLine "CRCB 0x31".toList = some ⟨.crcb, [], some 0x31⟩ ∧
  (∀ n : Nat, n ≤ 255 → assemble ⟨.crcb, [], some n⟩ = some (.crcb n)) ∧
  assemble ⟨.exec, [.nr], none⟩ = some (.exec true false) ∧
  assemble ⟨.exec, [.lo], none⟩ = some (.exec false true) ∧
  (∀ (l : AsmLine) (i : Instr), assemble l = some i →
    i.wf = true ∧ decode (encode i) = .ok i ∧
    (encode i).toNat = i.lovr.toNat * 2 ^ 17 + i.noresp.toNat * 2 ^ 16 + i.imm8 * 2 ^ 8 + i.opcode.toNat) ∧
  assemble ⟨.exec, [.nr, .lo], none⟩ = some (.exec true true) ∧
  assemble ⟨.exec, [.lo, .nr], none⟩ = some (.exec true true) ∧
  (∀ (m : Mnemonic) (x : Suffix) (xs : List Suffix) (o : Option Nat),
    m ≠ .exec → assemble ⟨m, x :: xs, o⟩ = none) ∧
  (∀ (m : Mnemonic) (xs : List Suffix) (n : Nat), n > 255 → assemble ⟨m, xs, some n⟩ = none)

/-! ### Reset (10_state.md R47, 70_reset_and_hazards.md) -/

/-- R47: the values of the reset table, for the machine after reset and for every machine whose `rst` input changes:
registers, flags, `SEQ`, the timers and `irq`; every `FBUF` byte is unspecified. The reset value of `WIN` is the
model's choice (log 2) and is not stated; that a `rst` action which does not change the level resets the block too is the
model's choice as well (log 24). -/
def Obligations.ResetTable : Prop :=
  let atReset := fun t : State =>
    t.ie = false ∧ t.status.word = 0 ∧ t.crc = 0xFFFF ∧ t.bufLen = 0 ∧ t.expLen = 0 ∧
    reqList t.req = [0, 0, 0, 0, 0, 0] ∧ txList t.txbuf = [0, 0, 0, 0, 0, 0, 0, 0] ∧
    t.txCnt = 0 ∧ t.rxCnt = 0 ∧ t.payLen = 0 ∧ t.respVal = 0 ∧ t.lenByte = 0 ∧ t.dropCnt = 0 ∧
    (∀ k, Memory.get? t.fbuf k = none) ∧ t.seq = .idle ∧ irq t = false ∧
    readTimerRuns t = false ∧ writeTimerRuns t = false ∧ paceTimerRuns t = false ∧
    (regRead .id t).1 = 0x4D420001
  atReset State.reset ∧
  ∀ (s : State) (level : Bool) (rest : List BusAction), s.host.bus = .rst level :: rest →
    ∃ t, step s = .next t ∧ atReset t ∧ t.rst = level

/-- R252: a change of `rst` leaves the line's two sides as they are, whatever the block was doing, and the host's
accesses still to come. That it leaves `draws` and `waited`, the model's own fields, is the model's choice (log 3). -/
def Obligations.ResetLeavesTheLine : Prop :=
  ∀ (s : State) (level : Bool) (rest : List BusAction), s.host.bus = .rst level :: rest →
    ∃ t, step s = .next t ∧ t.line = s.line ∧ t.host = { s.host with bus := rest } ∧ t.draws = s.draws ∧
      t.waited = s.waited

/-- R250: while `rst` is asserted a host write changes nothing in the block and reaches no line, and a read gives the
host one word, which nothing fixes, and changes nothing else. -/
def Obligations.AccessesDuringResetAreIgnored : Prop :=
  ∀ (s : State) (a : Offset) (v : Word) (rest : List BusAction), s.rst = true →
    (s.host.bus = .write a v :: rest ∨ s.host.bus = .writeRacing a v :: rest →
      step s = .next { s with host := { s.host with bus := rest, wdata := v } }) ∧
    (s.host.bus = .read a :: rest →
      ∃ w d, step s = .next
        { s with host := { s.host with bus := rest, reads := s.host.reads ++ [w] }, draws := d })

/-! ### The host register window (20_memory.md) -/

/-- R61: offset bits `a[1:0]` are ignored, and no access stops the machine. -/
def Obligations.OffsetLowBitsAreIgnored : Prop :=
  ∀ (s : State) (a : Offset) (v : Word) (rest : List BusAction) (mk : Offset → BusAction),
    (mk = .read ∨ mk = (.write · v) ∨ mk = (.writeRacing · v)) →
    step { s with host := { s.host with bus := mk a :: rest } } =
      step { s with host := { s.host with bus := mk (a &&& 0xFFC) :: rest } } ∧
    ∃ t, step { s with host := { s.host with bus := mk a :: rest } } = .next t

/-- R62: an unmapped offset reads 0, and a write to it is ignored, running command or not. That the read gives 0 while a
command runs too is the model's reading (log 9) of U18, "a fixed value, not a draw". -/
def Obligations.UnmappedOffsets : Prop :=
  ∀ (s : State) (a : Offset) (v : Word) (rest : List BusAction), s.rst = false →
    ((0x044 ≤ a.toNat ∧ a.toNat ≤ 0x1FF) ∨ 0x400 ≤ a.toNat) →
    (s.host.bus = .read a :: rest →
      step s = .next { s with host := { s.host with bus := rest, reads := s.host.reads ++ [0] } }) ∧
    (s.host.bus = .write a v :: rest ∨ s.host.bus = .writeRacing a v :: rest →
      step s = .next { s with host := { s.host with bus := rest, wdata := v } })

/-- R63, R64: an idle block's registers read as their current values, undefined bits and `CMD` as 0, and the read
changes nothing else. -/
def Obligations.RegistersReadTheirValue : Prop :=
  ∀ (s : State) (a : Offset) (w : Word) (rest : List BusAction), Ready s → s.host.bus = .read a :: rest →
    (a, w) ∈ ([(0x000, 0x4D420001), (0x004, (BitVec.ofBool s.ie).setWidth 32), (0x008, 0),
      (0x00C, s.status.word), (0x010, s.crc.setWidth 32), (0x014, s.bufLen.setWidth 32),
      (0x018, s.expLen.setWidth 32),
      (0x01C, packWord s.req.address s.req.function s.req.regHi s.req.regLo),
      (0x020, packWord s.req.valHi s.req.valLo 0 0),
      (0x024, packWord s.txbuf.req.address s.txbuf.req.function s.txbuf.req.regHi s.txbuf.req.regLo),
      (0x028, packWord s.txbuf.req.valHi s.txbuf.req.valLo s.txbuf.crcLo s.txbuf.crcHi),
      (0x02C, s.txCnt.setWidth 32), (0x030, s.rxCnt.setWidth 32), (0x034, s.payLen.setWidth 32),
      (0x038, s.respVal.setWidth 32), (0x03C, s.lenByte.setWidth 32), (0x040, s.dropCnt.setWidth 32)] :
      List (Offset × Word)) →
    step s = .next { s with host := { s.host with bus := rest, reads := s.host.reads ++ [w] } }

/-- R65: a host write to an idle block's RW register sets its defined bits and nothing else, one to `STATUS` clears
the W1C bits that have a 1 in `v`, and one to a read-only register does nothing. -/
def Obligations.RegisterWrites : Prop :=
  ∀ (s t : State) (a : Offset) (v : Word) (rest : List BusAction), Ready s →
    (s.host.bus = .write a v :: rest ∨ s.host.bus = .writeRacing a v :: rest) →
    t = { s with host := { s.host with bus := rest, wdata := v } } →
    (a = 0x004 → step s = .next { t with ie := v.getLsbD 0 }) ∧
    (a = 0x00C → step s = .next { t with status := { t.status with
      done := t.status.done && !v.getLsbD 1, collide := t.status.collide && !v.getLsbD 3 } }) ∧
    (a = 0x010 → step s = .next { t with crc := v.extractLsb' 0 16 }) ∧
    (a = 0x014 → step s = .next { t with bufLen := v.extractLsb' 0 16 }) ∧
    (a = 0x018 → step s = .next { t with expLen := v.extractLsb' 0 16 }) ∧
    (a = 0x01C → step s = .next { t with req := { t.req with
      address := v.extractLsb' 0 8, function := v.extractLsb' 8 8,
      regHi := v.extractLsb' 16 8, regLo := v.extractLsb' 24 8 } }) ∧
    (a = 0x020 → step s = .next { t with req := { t.req with
      valHi := v.extractLsb' 0 8, valLo := v.extractLsb' 8 8 } }) ∧
    (a ∈ ([0x000, 0x024, 0x028, 0x02C, 0x030, 0x034, 0x038, 0x03C, 0x040] : List Offset) → step s = .next t)

/-- R66, R48: the word at `0x200 + 4*j` holds `FBUF[4j .. 4j+3]`, lowest byte in the lowest lane. A write to an idle
block sets those four bytes and no other; a read gives all four, a byte that nothing has written being a draw of this
read (the form of a draw: log 10), and changes nothing else. -/
def Obligations.FbufWindowHoldsTheWord : Prop :=
  ∀ (s : State) (j : Nat) (a : Offset) (v : Word) (rest : List BusAction), j < 128 → Ready s →
    a = BitVec.ofNat 12 (0x200 + 4 * j) →
    (s.host.bus = .write a v :: rest ∨ s.host.bus = .writeRacing a v :: rest →
      ∃ m, step s = .next { s with fbuf := m, host := { s.host with bus := rest, wdata := v } } ∧
        (∀ k, k < 4 → Memory.get? m (4 * j + k) = some (v.extractLsb' (8 * k) 8)) ∧
        (∀ i, i < 4 * j ∨ 4 * j + 4 ≤ i → Memory.get? m i = Memory.get? s.fbuf i)) ∧
    (s.host.bus = .read a :: rest →
      ∃ w d, step s = .next
          { s with host := { s.host with bus := rest, reads := s.host.reads ++ [w] }, draws := d } ∧
        ∀ k, k < 4 →
          (∀ b, Memory.get? s.fbuf (4 * j + k) = some b → w.extractLsb' (8 * k) 8 = b) ∧
          (Memory.get? s.fbuf (4 * j + k) = none →
            ∃ n, s.draws ≤ n ∧ n < d ∧ w.extractLsb' (8 * k) 8 = Config.freeByte n))

/-- R48: a read of an `FBUF` byte that nothing has written gives a fresh draw, and every read of it a later one; a
byte that has been written reads as it was written and draws nothing. -/
def Obligations.UnwrittenBytesAreFreshDraws : Prop :=
  ∀ (s : State) (i : Nat),
    (Memory.get? s.fbuf i = none →
      ∃ t u, fbufRead i s = (Config.freeByte s.draws, t) ∧ t = { s with draws := s.draws + 1 } ∧
        fbufRead i t = (Config.freeByte (s.draws + 1), u)) ∧
    (∀ b, Memory.get? s.fbuf i = some b → fbufRead i s = (b, s))

/-- R71, R73: while a command runs, writes to `CTRL` and to the W1C bits of `STATUS` take effect, a write to `CMD` only
sets `COLLIDE`, any other write is ignored; `ID`, `CTRL` and `STATUS` read as the host sees them, and any other register
as a fresh draw; none of these moves the running command; and `DONE` is 0 meanwhile. Whatever a step does, while `BUSY`
stays 1 the host sees no change of `STATUS` but of the W1C bits, and once it is 0 it sees all of it, with `DONE = 1`
unless `rst` changed. (The model's: that `STATUS` shows the command's flags as they stood at acceptance, log 23; that a
read of `CMD` is a draw too, log 8, is not stated.) -/
def Obligations.AccessesWhileBusy : Prop :=
  ∀ (s t : State) (a : Offset) (v : Word) (rest : List BusAction), s.rst = false → s.status.busy = true →
    t = { s with host := { s.host with bus := rest, wdata := v } } →
    ((s.host.bus = .write a v :: rest ∨ s.host.bus = .writeRacing a v :: rest) →
      step s = .next (
        if a &&& 0xFFC = 0x004 then { t with ie := v.getLsbD 0 }
        else if a &&& 0xFFC = 0x00C then { t with status := { t.status with
          done := t.status.done && !v.getLsbD 1, collide := t.status.collide && !v.getLsbD 3 } }
        else if a &&& 0xFFC = 0x008 then { t with status := { t.status with collide := true } }
        else t)) ∧
    (s.host.bus = .read a :: rest →
      ∃ w d, step s = .next
          { s with host := { s.host with bus := rest, reads := s.host.reads ++ [w] }, draws := d } ∧
        (a &&& 0xFFC = 0x000 → w = 0x4D420001) ∧
        (a &&& 0xFFC = 0x004 → w = (BitVec.ofBool s.ie).setWidth 32) ∧
        (a &&& 0xFFC = 0x00C → w = (hostStatus s).word) ∧
        ((0x010 ≤ a.toNat ∧ a.toNat ≤ 0x043) ∨ (0x200 ≤ a.toNat ∧ a.toNat ≤ 0x3FF) →
          w = Config.freeWord s.draws ∧ d = s.draws + 1)) ∧
    (Inv s → s.status.done = false) ∧
    (∀ u, step s = .next u →
      (u.status.busy = true →
        hostStatus u = { hostStatus s with done := u.status.done, collide := u.status.collide }) ∧
      (u.status.busy = false →
        (∃ level acts, s.host.bus = .rst level :: acts) ∨ u.status.done = true ∧ hostStatus u = u.status))

/-- R24, R210: the places of the `STATUS` fields in the word the host reads, and the codes of `HDR_CLASS` and
`RESULT`. -/
def Obligations.StatusWordLayout : Prop :=
  ∀ t : Status,
    t.word.getLsbD 0 = t.busy ∧ t.word.getLsbD 1 = t.done ∧ t.word.getLsbD 2 = t.fatal ∧
    t.word.getLsbD 3 = t.collide ∧ t.word.getLsbD 4 = t.crcChk ∧ t.word.getLsbD 5 = t.crcErr ∧
    t.word.extractLsb' 6 2 = (match t.hdrClass with | .unknown => 0 | .read => 1 | .write => 2) ∧
    t.word.extractLsb' 8 4 = (match t.result with
      | .none => 0 | .ok => 1 | .timeout => 2 | .badHeader => 3 | .lenMismatch => 4 | .incompleteWrite => 5
      | .hsFail => 6 | .illegalCmd => 7 | .lenErr => 8 | .locked => 9) ∧
    t.word.getLsbD 12 = t.hsOk ∧ t.word.extractLsb' 13 19 = 0

/-! ### Issue, completion, the fatal latch and the interrupt (60_exceptions.md) -/

/-- R23, R45, R216: a step whose next host access writes a legal command word to `CMD`, with the block ready, is the
command's meaning at the state with that access taken and its data on the bus; and `withFetchWord` gives such a step.
-/
def Obligations.StepRunsTheDecodedCommand : Prop :=
  (∀ (s : State) (a : Offset) (v : Word) (rest : List BusAction) (i : Instr), Ready s → a &&& 0xFFC = 0x008 →
    s.host.bus = .write a v :: rest → decode v = .ok i →
    step s = exec i { s with host := { s.host with bus := rest, wdata := v } }) ∧
  (∀ (s : State) (w : Nat) (i : Instr), s.rst = false → s.seq = .idle → s.status.busy = false → w < 2 ^ 32 →
    decodeTableWord 32 w = some i →
    step (s.withFetchWord 32 w) = exec i { s with host := { s.host with wdata := BitVec.ofNat 32 w } })

/-- R216: what a host write of `v` to `CMD` does, the conditions in the rule's order, in both views of a command. Where
an accepted command stands in the non-atomic view is the model's reading of R36 (logs 5 and 6), and what it remembers of
`STATUS` is the model's (log 23). -/
def Obligations.IssueRules : Prop :=
  ∀ (s t : State) (v : Word) (rest : List BusAction), s.rst = false →
    t = { s with host := { s.host with bus := rest, wdata := v } } →
    let illegal := v >>> 18 ≠ 0 ∨ 0x0D ≤ (v &&& 0xFF).toNat
    let ofLine := (v &&& 0xFF) ∈ ([0x07, 0x08, 0x09, 0x0A, 0x0B] : List Word)
    (s.host.bus = .write 0x008 v :: rest ∨ s.host.bus = .writeRacing 0x008 v :: rest →
      (s.status.busy = true → step s = .next { t with status := { t.status with collide := true } }) ∧
      (s.status.busy = false → illegal →
        step s = .next { t with status := { t.status with result := .illegalCmd, done := true } }) ∧
      (s.status.busy = false → ¬ illegal → s.status.fatal = true → ofLine →
        step s = .next { t with status := { t.status with result := .locked, done := true } })) ∧
    (s.status.busy = false → ¬ illegal → (s.status.fatal = true → ¬ ofLine) →
      ∃ i, decode v = .ok i ∧
        (s.host.bus = .write 0x008 v :: rest → step s = exec i t) ∧
        (s.host.bus = .writeRacing 0x008 v :: rest →
          step s = .next (begin i { t with
            seq := .run v (entryPoint i) 0 t.status.flags
            status := { t.status with busy := true, done := false } }).close))

/-- R217: a write to `CMD` while `BUSY = 1` sets `COLLIDE` and is dropped, with no effect on the running command; and
`COLLIDE` stays 1 until the host writes 1 to it or the block is reset. -/
def Obligations.CollideStaysUntilCleared : Prop :=
  (∀ (s : State) (v : Word) (rest : List BusAction), s.rst = false → s.status.busy = true →
    (s.host.bus = .write 0x008 v :: rest ∨ s.host.bus = .writeRacing 0x008 v :: rest) →
    step s = .next { s with
      status := { s.status with collide := true }, host := { s.host with bus := rest, wdata := v } }) ∧
  ∀ s t : State, s.status.collide = true → step s = .next t → t.status.collide = false →
    (∃ level rest, s.host.bus = .rst level :: rest) ∨
    (∃ a v rest, (s.host.bus = .write a v :: rest ∨ s.host.bus = .writeRacing a v :: rest) ∧
      a &&& 0xFFC = 0x00C ∧ v.getLsbD 3 = true)

/-- R218: an illegal command word issued while idle completes at once with `ILLEGAL_CMD`, changes no other state, and
does so even when `FATAL = 1`. -/
def Obligations.IllegalCommandCompletes : Prop :=
  ∀ (s : State) (v : Word) (rest : List BusAction), Ready s →
    (v >>> 18 ≠ 0 ∨ 0x0D ≤ (v &&& 0xFF).toNat) →
    (s.host.bus = .write 0x008 v :: rest ∨ s.host.bus = .writeRacing 0x008 v :: rest) →
    step s = .next { s with
      status := { s.status with result := .illegalCmd, done := true }
      host := { s.host with bus := rest, wdata := v } }

/-- R214, R211: what acceptance and completion write. (The word latched is the one on the bus, log 7; the flags
remembered are the model's, log 23.) -/
def Obligations.AcceptanceAndCompletion : Prop :=
  ∀ (s : State) (p : SeqPoint) (code : Result),
    accept p s = { s with
      seq := .run s.host.wdata p 0 s.status.flags, status := { s.status with busy := true, done := false } } ∧
    complete code s = { s with
      seq := .idle
      status := { s.status with
        result := code
        fatal := s.status.fatal || decide (code ∈ [Result.badHeader, .incompleteWrite, .hsFail])
        busy := false
        done := true } }

/-- R215: `FATAL` is sticky. Completion with a fatal result sets it, and no other completion changes it. A step clears
it only by `rst`, and sets it only where a command completes with a fatal result. -/
def Obligations.FatalIsSticky : Prop :=
  (∀ (s : State) (code : Result), (complete code s).status.fatal =
    (s.status.fatal || decide (code = .badHeader ∨ code = .incompleteWrite ∨ code = .hsFail))) ∧
  ∀ s t : State, step s = .next t →
    (s.status.fatal = true → t.status.fatal = false → ∃ level rest, s.host.bus = .rst level :: rest) ∧
    (s.status.fatal = false → t.status.fatal = true →
      t.status.done = true ∧ t.status.busy = false ∧
      (t.status.result = .badHeader ∨ t.status.result = .incompleteWrite ∨ t.status.result = .hsFail))

/-- R211, R215, R216: once `FATAL = 1`, no step sends or consumes a byte until reset. -/
def Obligations.FatalLineStaysQuiet : Prop :=
  ∀ s t : State, Inv s → s.status.fatal = true → step s = .next t → t.line = s.line

/-- R61, R62, 60_exceptions.md: no step ends in a fault or a refusal. -/
def Obligations.EveryStepGoesOn : Prop :=
  ∀ s : State, ∃ t, step s = .next t

/-- R214 ("Bytes transmitted stay transmitted, and bytes consumed from `RXQ` stay consumed"), R252: a step only
appends to `TXLOG` and only takes events from the front of `RXQ`. -/
def Obligations.LineOnlyMovesForward : Prop :=
  ∀ s t : State, step s = .next t →
    ∃ sent taken, t.line.txlog = s.line.txlog ++ sent ∧ s.line.rxq = taken ++ t.line.rxq

/-- R44, R220: `irq` is `IE` and `DONE`; an accepted command of an idle block lowers it, its completion raises it if
enabled, and writing 1 to `DONE` clears it. -/
def Obligations.InterruptFollowsDone : Prop :=
  ∀ (s : State) (v : Word) (rest : List BusAction), s.rst = false →
    irq s = (s.ie && s.status.done) ∧
    (∀ p, irq (accept p s) = false) ∧
    (∀ code, irq (complete code s) = s.ie) ∧
    (s.host.bus = .write 0x00C v :: rest → v.getLsbD 1 = true → ∃ t, step s = .next t ∧ irq t = false)

/-- The host's operand registers (R27: "The block never writes `EXP_LEN`"; likewise `BUF_LEN` and `CTRL`) change only
by a host write to that register or by `rst`. -/
def Obligations.OperandRegistersAreTheHosts : Prop :=
  ∀ s t : State, step s = .next t →
    let byHost := fun offset : Offset =>
      (∃ level rest, s.host.bus = .rst level :: rest) ∨
      (∃ a v rest, (s.host.bus = .write a v :: rest ∨ s.host.bus = .writeRacing a v :: rest) ∧
        a &&& 0xFFC = offset)
    (t.expLen ≠ s.expLen → byHost 0x018) ∧ (t.bufLen ≠ s.bufLen → byHost 0x014) ∧ (t.ie ≠ s.ie → byHost 0x004)

/-- R256: a host that keeps its duties never loses a command to a collision. (A `CMD` write during `rst` is ignored
without one, R250.) -/
def Obligations.DutifulHostNeverCollides : Prop :=
  ∀ s t : State, hostObeys s = true → s.status.collide = false → step s = .next t → t.status.collide = false

/-! ### Invariants -/

/-- The invariant holds after reset. -/
def Obligations.ResetMeetsTheInvariant : Prop := Inv State.reset

/-- R31, R34 to R36, R71, R250: every step keeps the invariant, which says nothing of the reset value of `WIN`. -/
def Obligations.StepKeepsTheInvariant : Prop :=
  ∀ s t : State, Inv s → step s = .next t → Inv t

/-! ### The two views of a command (R36, R72) -/

/-- R72, R36: a command started in the non-atomic view and moved on by the sequencer, primitive by primitive, comes to
exactly the state that the atomic transition gives; and between its acceptance and its completion the host sees the
`STATUS` that stood at its acceptance, with `BUSY = 1` and `DONE = 0` (log 23). -/
def Obligations.MovesReachTheAtomicResult : Prop :=
  ∀ (s : State) (v : Word),
    let racing := { s with host := { s.host with bus := [.writeRacing 0x008 v] } }
    (∃ n, Host.Core.run Sys2Proof.core (n + 1) racing =
      step { s with host := { s.host with bus := [.write 0x008 v] } }) ∧
    (s.status.busy = false → ∀ k t, Host.Core.run Sys2Proof.core (k + 1) racing = .next t →
      t.status.busy = true → hostStatus t = { s.status with busy := true, done := false })

/-- R261: a search keeps the block busy for as long as the bytes delivered hold no known header pair, however many
they are. -/
def Obligations.GarbageKeepsTheSearchRunning : Prop :=
  ∀ (s : State) (cmd : Word) (seen : Nat) (before : Flags) (i : Instr) (g : List Byte) (rest : List RxEvent),
    s.host.bus = [] → s.seq = .run cmd .syncSlide seen before → decode cmd = .ok i →
    noHeader (s.win1 :: g) = true → s.line.rxq = delivered g ++ rest →
    ∃ t, Host.Core.run Sys2Proof.core g.length s = .next t ∧
      t.seq = .run cmd .syncSlide (seen + g.length) before ∧ t.line = { s.line with rxq := rest } ∧
      t.status = s.status ∧ t.fbuf = s.fbuf

/-! ### The CRC (40_crc.md) -/

/-- R102 item 2: the residue of a sequence with its CRC appended, low byte first, is 0. -/
def Obligations.CrcResidueIsZero : Prop :=
  ∀ s : List Byte, crc16 (s ++ crcWire (crc16 s)) = 0

/-- R102 item 1: a sequence with its CRC appended, in the first `BUF_LEN` bytes of `FBUF`, passes the check of `CRCV`,
whatever the bytes past them. -/
def Obligations.CrcRoundTrip : Prop :=
  ∀ (s : State) (bs : List Byte), Ready s → bs.length + 2 ≤ 512 → s.bufLen.toNat = bs.length + 2 →
    (∀ k, k < bs.length + 2 → Memory.get? s.fbuf k = (bs ++ crcWire (crc16 bs))[k]?) →
    exec .crcv s = .next (complete .ok { s with
      crc := crc16 bs, status := { s.status with crcChk := true, crcErr := false } })

/-- R104, R105: `CRCI` followed by `CRCB` of each byte leaves `CRC = crc16` of the bytes. -/
def Obligations.CrcbChainComputesCrc : Prop :=
  ∀ (s : State) (bs : List Byte), Ready s →
    let run := fun (o : Host.Outcome State Fault Refusal) (b : Byte) =>
      match o with
      | .next t => exec (.crcb b.toNat) t
      | .fault e => .fault e
      | .refused e => .refused e
    (bs.foldl run (exec .crci s)) = .next (complete .ok { s with crc := crc16 bs })

/-- R103: `OPC = 0x00` is `NOP`, whatever its ignored fields, and illegal where `RSVD ≠ 0`; `NOP` completes with `OK`
and writes nothing else, locked or not. -/
def Obligations.NopResult : Prop :=
  (∀ v : Word, v >>> 18 = 0 → v &&& 0xFF = 0x00 → decode v = .ok .nop) ∧
  (∀ v : Word, v >>> 18 ≠ 0 → v &&& 0xFF = 0x00 → ∃ e, decode v = .error e) ∧
  ∀ s : State, Ready s → exec .nop s = .next (complete .ok s)

/-- R104: `OPC = 0x01` is `CRCI`; it sets `CRC` to `0xFFFF`, whatever it held. -/
def Obligations.CrciResult : Prop :=
  (∀ v : Word, v >>> 18 = 0 → v &&& 0xFF = 0x01 → decode v = .ok .crci) ∧
  ∀ s : State, Ready s → exec .crci s = .next (complete .ok { s with crc := 0xFFFF })

/-- R105, R100: `CRCB b` folds `b` into `CRC`: XOR into the low byte, then 8 shifts, each with `0xA001` where the low
bit was set. -/
def Obligations.CrcbResult : Prop :=
  ∀ (s : State) (imm8 : Nat), Ready s → (Instr.crcb imm8).wf = true →
    let shift := fun c : Half => if c.getLsbD 0 then (c >>> 1) ^^^ 0xA001 else c >>> 1
    exec (.crcb imm8) s = .next (complete .ok { s with
      crc := shift (shift (shift (shift (shift (shift (shift (shift (s.crc ^^^ BitVec.ofNat 16 imm8)))))))) })

/-- R106: `OPC = 0x03` is `CRCG`; it leaves the CRC of the first `BUF_LEN` bytes of `FBUF`, where unwritten bytes are
draws, and `LEN_ERR` with nothing else changed where `BUF_LEN > 512`. -/
def Obligations.CrcgResult : Prop :=
  (∀ v : Word, v >>> 18 = 0 → v &&& 0xFF = 0x03 → decode v = .ok .crcg) ∧
  ∀ s : State, Ready s →
    (s.bufLen.toNat ≤ 512 → ∃ bs d, bs.length = s.bufLen.toNat ∧
      (∀ k b, k < bs.length → Memory.get? s.fbuf k = some b → bs[k]? = some b) ∧
      exec .crcg s = .next (complete .ok { s with crc := crc16 bs, draws := d })) ∧
    (512 < s.bufLen.toNat → exec .crcg s = .next (complete .lenErr s))

/-- R107: `OPC = 0x04` is `CRCV`; it checks the last two of the first `BUF_LEN` bytes of `FBUF` against the CRC of
those before them; shorter than 2 is a mismatch that leaves `CRC`; `BUF_LEN > 512` is `LEN_ERR` with nothing else
changed. -/
def Obligations.CrcvResult : Prop :=
  (∀ v : Word, v >>> 18 = 0 → v &&& 0xFF = 0x04 → decode v = .ok .crcv) ∧
  ∀ s : State, Ready s →
    (2 ≤ s.bufLen.toNat → s.bufLen.toNat ≤ 512 → ∃ bs d, bs.length = s.bufLen.toNat ∧
      (∀ k b, k < bs.length → Memory.get? s.fbuf k = some b → bs[k]? = some b) ∧
      exec .crcv s = .next (complete .ok { s with
        crc := crc16 (frameCovered bs), draws := d
        status := { s.status with crcChk := true, crcErr := frameBad bs } })) ∧
    (s.bufLen.toNat < 2 → exec .crcv s = .next (complete .ok { s with
        status := { s.status with crcChk := true, crcErr := true } })) ∧
    (512 < s.bufLen.toNat → exec .crcv s = .next (complete .lenErr s))

/-! ### The frame codec (41_frame.md) -/

/-- R130, R131: `OPC = 0x05` is `HDRC`; it classifies the two bytes at `FBUF[0..1]`, where unwritten bytes are draws:
`01 03` is Read, `01 06` is Write, anything else Unknown. -/
def Obligations.HdrcResult : Prop :=
  (∀ v : Word, v >>> 18 = 0 → v &&& 0xFF = 0x05 → decode v = .ok .hdrc) ∧
  ∀ s : State, Ready s → ∃ h0 h1 d,
    (∀ b, Memory.get? s.fbuf 0 = some b → h0 = b) ∧ (∀ b, Memory.get? s.fbuf 1 = some b → h1 = b) ∧
    exec .hdrc s = .next (complete .ok { s with
      draws := d
      status := { s.status with hdrClass :=
        if h0 = 0x01 ∧ h1 = 0x03 then .read else if h0 = 0x01 ∧ h1 = 0x06 then .write else .unknown } })

/-- R132: `OPC = 0x06` is `ENC`; it fills `TXBUF` with `REQ[0..5]` and their CRC, low byte first, and leaves the CRC
in `CRC`; no request byte is checked. -/
def Obligations.EncResult : Prop :=
  (∀ v : Word, v >>> 18 = 0 → v &&& 0xFF = 0x06 → decode v = .ok .enc) ∧
  ∀ s : State, Ready s → ∃ t,
    exec .enc s = .next t ∧ txList t.txbuf = reqList s.req ++ crcWire (crc16 (reqList s.req)) ∧
    t = complete .ok { s with txbuf := t.txbuf, crc := crc16 (reqList s.req) }

/-- R133, R134: `SYNC` on garbage without a known header pair, then a header, drops exactly the garbage, stores the
header and leaves the rest on the line. -/
def Obligations.SyncFindsTheHeader : Prop :=
  ∀ (s : State) (g : List Byte) (h0 h1 : Byte) (rest : List RxEvent), LineReady s →
    noHeader (g ++ [h0]) = true → classify h0 h1 ≠ .unknown → s.line.rxq = delivered (g ++ [h0, h1]) ++ rest →
    ∃ m, HoldsFrame [h0, h1] s.fbuf m ∧
      exec .sync s = .next (complete .ok { s with
        status := { s.status with crcChk := false, crcErr := false, hdrClass := classify h0 h1 }
        rxCnt := 2, payLen := 0, respVal := 0, lenByte := 0, dropCnt := BitVec.ofNat 16 (min g.length 0xFFFF)
        fbuf := m, win0 := h0, win1 := h1, line := { s.line with rxq := rest } })

/-- R135, R174, R219: where the line falls silent before a known header, `SYNC`, `RDF` and `EXEC` complete with `TIMEOUT`
if no byte came, and with `BAD_HEADER`, which is fatal, if at least one did; `HSK` turns the `TIMEOUT` into `HS_FAIL`, which
is fatal, keeps the `BAD_HEADER`, and has `HS_OK = 0`. Every byte taken is counted in `DROP_CNT` and `FBUF` is unchanged. -/
def Obligations.EndOfStreamIsClassified : Prop :=
  ∀ (s : State) (g : List Byte) (rest : List RxEvent) (q : List Bool) (lo : Bool), LineReady s →
    noHeader g = true →
    FallsSilent g rest s.line →
    let ended := fun (code : Result) (fatal : Bool) (t : State) =>
      t.status.result = code ∧ t.status.fatal = fatal ∧
      t.status.busy = false ∧ t.status.done = true ∧ t.status.hdrClass = .unknown ∧ t.status.crcChk = false ∧
      t.dropCnt = BitVec.ofNat 16 (min g.length 0xFFFF) ∧ t.rxCnt = 0 ∧ t.payLen = 0 ∧ t.fbuf = s.fbuf ∧
      t.line.rxq = rest
    let timedOut := ended (if g = [] then .timeout else .badHeader) (decide (g ≠ []))
    (∃ t, exec .sync s = .next t ∧ timedOut t ∧ t.line.txlog = s.line.txlog) ∧
    (5 ≤ s.expLen.toNat ∧ s.expLen.toNat ≤ 512 →
      ∃ t, exec .rdf s = .next t ∧ timedOut t ∧ t.line.txlog = s.line.txlog) ∧
    (s.line.txAnswers = List.replicate 8 true ++ q →
      (expectedLen lo s ≠ none →
        ∃ t, exec (.exec false lo) s = .next t ∧ timedOut t ∧
          t.line.txlog = s.line.txlog ++ (reqList s.req ++ crcWire (crc16 (reqList s.req)))) ∧
      ∃ t, exec .hsk s = .next t ∧ ended (if g = [] then .hsFail else .badHeader) true t ∧ t.status.hsOk = false ∧
        let sent : List Byte := [0x01, 0x03, 0x00, 0xFD, 0x00, 0x01]
        t.line.txlog = s.line.txlog ++ (sent ++ crcWire (crc16 sent)))

/-- R136 to R140: `RDF` drops the garbage, reads exactly the `L` bytes of the frame into `FBUF`, checks its CRC
without changing the result, and delivers the payload length and the response value: the last two payload bytes, high byte
first, or the only one, or 0. Bytes past `L` stay on the line. -/
def Obligations.RdfDeliversTheFrame : Prop :=
  ∀ (s : State) (g f : List Byte) (rest : List RxEvent), LineReady s →
    s.expLen.toNat = f.length → 5 ≤ f.length → f.length ≤ 512 →
    noHeader (g ++ [f.getD 0 0]) = true → classify (f.getD 0 0) (f.getD 1 0) ≠ .unknown →
    s.line.rxq = delivered (g ++ f) ++ rest →
    ∃ m t, HoldsFrame f s.fbuf m ∧ t = complete .ok (frameReceived g f rest m s) ∧ exec .rdf s = .next t ∧
      t.respVal =
        (if 2 ≤ f.length - 5 then
          ((f.getD (f.length - 4) 0).setWidth 16 <<< 8) ||| (f.getD (f.length - 3) 0).setWidth 16
        else if f.length - 5 = 1 then (f.getD 3 0).setWidth 16
        else 0)

/-- R140: `RDF` with `EXP_LEN` outside 5 to 512 completes with `LEN_ERR` before any other effect. -/
def Obligations.RdfRefusesIllegalLengths : Prop :=
  ∀ s : State, LineReady s → (s.expLen.toNat < 5 ∨ 512 < s.expLen.toNat) →
    exec .rdf s = .next (complete .lenErr s)

/-- R136: where the line falls silent after a header and before the whole frame, `RDF` completes with `TIMEOUT`, which
is not fatal; the bytes received are in `FBUF[0 .. RX_CNT-1]`, `PAY_LEN` and `RESP_VAL` are 0, and no CRC check is
recorded. -/
def Obligations.RdfShortFrameTimesOut : Prop :=
  ∀ (s : State) (g f : List Byte) (rest : List RxEvent), LineReady s →
    2 ≤ f.length → f.length < s.expLen.toNat → 5 ≤ s.expLen.toNat → s.expLen.toNat ≤ 512 →
    noHeader (g ++ [f.getD 0 0]) = true → classify (f.getD 0 0) (f.getD 1 0) ≠ .unknown →
    FallsSilent (g ++ f) rest s.line →
    ∃ m, HoldsFrame f s.fbuf m ∧ exec .rdf s = .next (complete .timeout (frameCut g f rest m s))

/-! ### The transactor (42_transactor.md) -/

/-- R170, R41: `OPC = 0x07` is `SEND`; it offers `TXBUF[0..7]` in order until the line refuses a byte; `TX_CNT` and
`TXLOG` record the bytes accepted, none is offered twice, and fewer than 8 is `INCOMPLETE_WRITE`, which is fatal. For
every line, and for the answers listed. While `FATAL = 1` it is `LOCKED` and sends nothing. -/
def Obligations.SendResult : Prop :=
  (∀ v : Word, v >>> 18 = 0 → v &&& 0xFF = 0x07 → decode v = .ok .send) ∧
  (∀ s : State, Ready s → s.status.fatal = true → exec .send s = .next (completeAtOnce .locked s)) ∧
  ∀ s : State, LineReady s →
    (∃ k q d, k ≤ 8 ∧
      exec .send s = .next (complete (if k < 8 then .incompleteWrite else .ok) { s with
        txCnt := BitVec.ofNat 4 k, draws := d
        line := { s.line with txAnswers := q, txlog := s.line.txlog ++ (txList s.txbuf).take k } })) ∧
    (∀ k q, k ≤ 8 → s.line.txAnswers = List.replicate k true ++ (if k < 8 then false :: q else q) →
      exec .send s = .next (complete (if k < 8 then .incompleteWrite else .ok) { s with
        txCnt := BitVec.ofNat 4 k
        line := { s.line with txAnswers := q, txlog := s.line.txlog ++ (txList s.txbuf).take k } }))

/-- R171: without an override the length is that of the request's function code, with one it is `EXP_LEN` in 5 to 512,
and `EXEC` completes with `LEN_ERR` before any other effect where there is none. -/
def Obligations.ExecLengthSelection : Prop :=
  ∀ (s : State) (lo : Bool), LineReady s →
    (s.req.function = 0x03 → expectedLen false s = some 7) ∧
    (s.req.function = 0x06 → expectedLen false s = some 8) ∧
    (s.req.function ≠ 0x03 → s.req.function ≠ 0x06 → expectedLen false s = none) ∧
    (5 ≤ s.expLen.toNat → s.expLen.toNat ≤ 512 → expectedLen true s = some s.expLen.toNat) ∧
    (s.expLen.toNat < 5 ∨ 512 < s.expLen.toNat → expectedLen true s = none) ∧
    (expectedLen lo s = none → exec (.exec false lo) s = .next (complete .lenErr s))

/-- R173, R172: a whole transaction. The request and its CRC go out, the garbage is dropped, the `L` bytes of the
response are read, checked and decoded, and a bad CRC changes only its flag. Without an override a response whose
function code does not have the payload width completes with `LEN_MISMATCH`, and `PAY_LEN` and `RESP_VAL` are 0. -/
def Obligations.ExecTransaction : Prop :=
  ∀ (s : State) (lo : Bool) (q : List Bool) (g f : List Byte) (rest : List RxEvent), LineReady s →
    s.line.txAnswers = List.replicate 8 true ++ q → expectedLen lo s = some f.length →
    noHeader (g ++ [f.getD 0 0]) = true → classify (f.getD 0 0) (f.getD 1 0) ≠ .unknown →
    s.line.rxq = delivered (g ++ f) ++ rest →
    ∃ m, HoldsFrame f s.fbuf m ∧
      exec (.exec false lo) s = .next (
        if lo = true ∨ f.length - 5 = (if f.getD 1 0 = 0x03 then 2 else 3) then
          complete .ok (frameReceived g f rest m (requestSent q s))
        else complete .lenMismatch
          { frameReceived g f rest m (requestSent q s) with payLen := 0, respVal := 0 })

/-- R173: `EXEC.NR`, with or without `.LO`, transmits, clears the RX result registers and reads nothing, whatever the
function code and `EXP_LEN`. -/
def Obligations.ExecWithoutResponse : Prop :=
  ∀ (s : State) (lo : Bool) (q : List Bool), LineReady s → s.line.txAnswers = List.replicate 8 true ++ q →
    exec (.exec true lo) s = .next (complete .ok { requestSent q s with
      status := { s.status with crcChk := false, crcErr := false, hdrClass := .unknown }
      rxCnt := 0, payLen := 0, respVal := 0, lenByte := 0, dropCnt := 0 })

/-- R173, R174, R219: a refused byte ends `EXEC` and `HSK` with `INCOMPLETE_WRITE` before any read: the bytes accepted
before it are the only ones sent, `CRC` and `TXBUF` hold the request's, and the RX result registers are cleared. `HSK` keeps
that result, with its own request in `REQ` and `HS_OK = 0`. -/
def Obligations.ExecIncompleteWrite : Prop :=
  ∀ (s : State) (nr lo : Bool) (k : Nat) (q : List Bool), LineReady s → k < 8 →
    s.line.txAnswers = List.replicate k true ++ false :: q →
    let cut := fun t : State => complete .incompleteWrite { requestSent q t with
      txCnt := BitVec.ofNat 4 k
      status := { t.status with crcChk := false, crcErr := false, hdrClass := .unknown }
      rxCnt := 0, payLen := 0, respVal := 0, lenByte := 0, dropCnt := 0
      line := { t.line with
        txAnswers := q
        txlog := t.line.txlog ++ (reqList t.req ++ crcWire (crc16 (reqList t.req))).take k } }
    (nr = true ∨ expectedLen lo s ≠ none → exec (.exec nr lo) s = .next (cut s)) ∧
    exec .hsk s = .next (cut { s with
      status := { s.status with hsOk := false }
      req := { address := 0x01, function := 0x03, regHi := 0x00, regLo := 0xFD, valHi := 0x00, valLo := 0x01 } })

/-- R174: `HSK` sends `01 03 00 FD 00 01` and its CRC, and succeeds on a 7-byte response with a known header exactly where
the header is `01 03` and the last payload byte is `0x82`, whatever its CRC; every other one is `HS_FAIL`, which is fatal. A
`01 06` header is a length mismatch inside, so that `PAY_LEN` and `RESP_VAL` are 0, and the frame and the CRC flags are kept.
`REQ` keeps the handshake request. -/
def Obligations.HskResult : Prop :=
  ∀ (s : State) (q : List Bool) (g f : List Byte) (rest : List RxEvent), LineReady s →
    s.line.txAnswers = List.replicate 8 true ++ q → f.length = 7 →
    noHeader (g ++ [f.getD 0 0]) = true → classify (f.getD 0 0) (f.getD 1 0) ≠ .unknown →
    s.line.rxq = delivered (g ++ f) ++ rest →
    let began := { s with req :=
      { address := 0x01, function := 0x03, regHi := 0x00, regLo := 0xFD, valHi := 0x00, valLo := 0x01 } }
    ∃ m t, HoldsFrame f s.fbuf m ∧ t = frameReceived g f rest m (requestSent q began) ∧
      exec .hsk s = .next (
        if f.getD 0 0 = 0x01 ∧ f.getD 1 0 = 0x03 ∧ f.getD 4 0 = 0x82 then
          complete .ok { t with status := { t.status with hsOk := true } }
        else if f.getD 1 0 = 0x03 then complete .hsFail { t with status := { t.status with hsOk := false } }
        else complete .hsFail { t with status := { t.status with hsOk := false }, payLen := 0, respVal := 0 })

/-- R173, R174, R136: where the line falls silent after a header and before the whole response (no length byte, or a short
body), `EXEC` has sent its request, has what came in `FBUF[0 .. RX_CNT-1]`, and completes with `TIMEOUT`, which is not
fatal; `HSK` completes with `HS_FAIL`, which is, and `HS_OK = 0`. -/
def Obligations.ShortResponseEndsTheTransaction : Prop :=
  ∀ (s : State) (q : List Bool) (g f : List Byte) (rest : List RxEvent), LineReady s →
    s.line.txAnswers = List.replicate 8 true ++ q → 2 ≤ f.length →
    noHeader (g ++ [f.getD 0 0]) = true → classify (f.getD 0 0) (f.getD 1 0) ≠ .unknown →
    FallsSilent (g ++ f) rest s.line →
    let began := { s with req :=
      { address := 0x01, function := 0x03, regHi := 0x00, regLo := 0xFD, valHi := 0x00, valLo := 0x01 } }
    (∀ lo L, expectedLen lo s = some L → f.length < L →
      ∃ m, HoldsFrame f s.fbuf m ∧
        exec (.exec false lo) s = .next (complete .timeout (frameCut g f rest m (requestSent q s)))) ∧
    (f.length < 7 →
      ∃ m t, HoldsFrame f s.fbuf m ∧ t = frameCut g f rest m (requestSent q began) ∧
        exec .hsk s = .next (complete .hsFail { t with status := { t.status with hsOk := false } }))

/-- R174, R211, R219: however the line behaves, `HSK` that has completed has `HS_OK = 1` exactly where its result is
`OK`; its other results are `HS_FAIL`, `INCOMPLETE_WRITE` and `BAD_HEADER`, all of them fatal; and `REQ` is the
handshake request. -/
def Obligations.HskOutcomes : Prop :=
  ∀ s : State, LineReady s → ∃ t, exec .hsk s = .next t ∧
    reqList t.req = [0x01, 0x03, 0x00, 0xFD, 0x00, 0x01] ∧
    (t.status.busy = false →
      (t.status.result = .ok ∨ t.status.result = .hsFail ∨ t.status.result = .incompleteWrite ∨
        t.status.result = .badHeader) ∧
      t.status.hsOk = decide (t.status.result = .ok) ∧ t.status.fatal = decide (t.status.result ≠ .ok))

/-- R175: `OPC = 0x0C` is `PACE`; it waits for `PACE_INTERVAL` and touches no port and no register; `FATAL` does not
lock it. -/
def Obligations.PaceResult : Prop :=
  (∀ v : Word, v >>> 18 = 0 → v &&& 0xFF = 0x0C → decode v = .ok .pace) ∧
  ∀ s : State, Ready s →
    exec .pace s = .next (complete .ok { s with waited := s.waited + Config.paceInterval })

/-- R265, R40, R41: on a line that falls silent after the events it lists, every command that touches the line
completes. -/
def Obligations.LineCommandsComplete : Prop :=
  ∀ (s : State) (i : Instr), LineReady s → touchesLine i = true → s.line.tail = .silent →
    ∃ t, exec i s = .next t ∧ t.status.busy = false ∧ t.status.done = true ∧ t.seq = .idle

/-- R31, R46 and the rules of `SEND`, `SYNC`, `RDF`, `EXEC` and `HSK`: what they leave unchanged, however the line
behaves. `FBUF` beyond the bytes counted in `RX_CNT` (all of it for `SEND`), `CTRL`, `BUF_LEN`, `EXP_LEN`, `COLLIDE`
and the reads; the request and `HS_OK` but for `HSK`; the transmit registers but for the commands that transmit; the
RX registers, flags and window but for those that clear or read them; the RX side of the line but for those that read
it, and its TX side but for those that transmit. -/
def Obligations.LineCommandFrames : Prop :=
  ∀ (s t : State) (i : Instr), Ready s → touchesLine i = true → exec i s = .next t →
    t.ie = s.ie ∧ t.bufLen = s.bufLen ∧ t.expLen = s.expLen ∧ t.status.collide = s.status.collide ∧
    t.rst = s.rst ∧ t.host = s.host ∧ t.waited = s.waited ∧
    (∀ a, t.rxCnt.toNat ≤ a ∨ i = .send → Memory.get? t.fbuf a = Memory.get? s.fbuf a) ∧
    (i ≠ .hsk → t.req = s.req ∧ t.status.hsOk = s.status.hsOk) ∧
    (i = .sync ∨ i = .rdf → t.txbuf = s.txbuf ∧ t.txCnt = s.txCnt ∧
      t.line.txAnswers = s.line.txAnswers ∧ t.line.txlog = s.line.txlog) ∧
    (i = .sync ∨ i = .send → t.crc = s.crc) ∧
    (i = .send → t.txbuf = s.txbuf ∧ t.rxCnt = s.rxCnt ∧ t.payLen = s.payLen ∧ t.respVal = s.respVal ∧
      t.lenByte = s.lenByte ∧ t.dropCnt = s.dropCnt ∧ t.status.crcChk = s.status.crcChk ∧
      t.status.crcErr = s.status.crcErr ∧ t.status.hdrClass = s.status.hdrClass ∧
      t.win0 = s.win0 ∧ t.win1 = s.win1) ∧
    (readsLine i = false → t.line.rxq = s.line.rxq ∧ t.line.tail = s.line.tail ∧
      t.win0 = s.win0 ∧ t.win1 = s.win1)

/-! ### Host programs (30_encoding.md) -/

/-- R97: the `REQ_LO` and `REQ_HI` words of `READREG` and `WRITEREG` put the address `0x01`, the function code and the
two 16-bit fields, high byte first, into `REQ[0..5]`. -/
def Obligations.RegisterMacrosFillTheRequest : Prop :=
  ∀ (s : State) (a n : Half), Ready s →
    let after := fun code : Word => regWrite .reqHi (macroReqHi n) (regWrite .reqLo (macroReqLo a code) s)
    reqList (after 0x0301).req = [0x01, 0x03, hiByte a, loByte a, hiByte n, loByte n] ∧
    reqList (after 0x0601).req = [0x01, 0x06, hiByte a, loByte a, hiByte n, loByte n]
end

