-- ==== Sys2Proof/Laws/State.lean ====
section
/-! SUPPORT. One lemma per field per update: what each named update of the state does to each field. -/

namespace Sys2Proof.Machine

variable (s : State)

/-! ### `accept` -/

@[simp] theorem accept_ie (p : SeqPoint) : (accept p s).ie = s.ie := rfl
@[simp] theorem accept_status (p : SeqPoint) : (accept p s).status = { s.status with busy := true, done := false } := rfl
@[simp] theorem accept_crc (p : SeqPoint) : (accept p s).crc = s.crc := rfl
@[simp] theorem accept_bufLen (p : SeqPoint) : (accept p s).bufLen = s.bufLen := rfl
@[simp] theorem accept_expLen (p : SeqPoint) : (accept p s).expLen = s.expLen := rfl
@[simp] theorem accept_req (p : SeqPoint) : (accept p s).req = s.req := rfl
@[simp] theorem accept_txbuf (p : SeqPoint) : (accept p s).txbuf = s.txbuf := rfl
@[simp] theorem accept_txCnt (p : SeqPoint) : (accept p s).txCnt = s.txCnt := rfl
@[simp] theorem accept_rxCnt (p : SeqPoint) : (accept p s).rxCnt = s.rxCnt := rfl
@[simp] theorem accept_payLen (p : SeqPoint) : (accept p s).payLen = s.payLen := rfl
@[simp] theorem accept_respVal (p : SeqPoint) : (accept p s).respVal = s.respVal := rfl
@[simp] theorem accept_lenByte (p : SeqPoint) : (accept p s).lenByte = s.lenByte := rfl
@[simp] theorem accept_dropCnt (p : SeqPoint) : (accept p s).dropCnt = s.dropCnt := rfl
@[simp] theorem accept_fbuf (p : SeqPoint) : (accept p s).fbuf = s.fbuf := rfl
@[simp] theorem accept_seq (p : SeqPoint) : (accept p s).seq = .run s.host.wdata p 0 s.status.flags := rfl
@[simp] theorem accept_win0 (p : SeqPoint) : (accept p s).win0 = s.win0 := rfl
@[simp] theorem accept_win1 (p : SeqPoint) : (accept p s).win1 = s.win1 := rfl
@[simp] theorem accept_rst (p : SeqPoint) : (accept p s).rst = s.rst := rfl
@[simp] theorem accept_line (p : SeqPoint) : (accept p s).line = s.line := rfl
@[simp] theorem accept_host (p : SeqPoint) : (accept p s).host = s.host := rfl
@[simp] theorem accept_draws (p : SeqPoint) : (accept p s).draws = s.draws := rfl
@[simp] theorem accept_waited (p : SeqPoint) : (accept p s).waited = s.waited := rfl

/-! ### `complete` -/

@[simp] theorem complete_ie (code : Result) : (complete code s).ie = s.ie := rfl
@[simp] theorem complete_status (code : Result) : (complete code s).status = { s.status with result := code, fatal := s.status.fatal || code.isFatal, busy := false, done := true } := rfl
@[simp] theorem complete_crc (code : Result) : (complete code s).crc = s.crc := rfl
@[simp] theorem complete_bufLen (code : Result) : (complete code s).bufLen = s.bufLen := rfl
@[simp] theorem complete_expLen (code : Result) : (complete code s).expLen = s.expLen := rfl
@[simp] theorem complete_req (code : Result) : (complete code s).req = s.req := rfl
@[simp] theorem complete_txbuf (code : Result) : (complete code s).txbuf = s.txbuf := rfl
@[simp] theorem complete_txCnt (code : Result) : (complete code s).txCnt = s.txCnt := rfl
@[simp] theorem complete_rxCnt (code : Result) : (complete code s).rxCnt = s.rxCnt := rfl
@[simp] theorem complete_payLen (code : Result) : (complete code s).payLen = s.payLen := rfl
@[simp] theorem complete_respVal (code : Result) : (complete code s).respVal = s.respVal := rfl
@[simp] theorem complete_lenByte (code : Result) : (complete code s).lenByte = s.lenByte := rfl
@[simp] theorem complete_dropCnt (code : Result) : (complete code s).dropCnt = s.dropCnt := rfl
@[simp] theorem complete_fbuf (code : Result) : (complete code s).fbuf = s.fbuf := rfl
@[simp] theorem complete_seq (code : Result) : (complete code s).seq = .idle := rfl
@[simp] theorem complete_win0 (code : Result) : (complete code s).win0 = s.win0 := rfl
@[simp] theorem complete_win1 (code : Result) : (complete code s).win1 = s.win1 := rfl
@[simp] theorem complete_rst (code : Result) : (complete code s).rst = s.rst := rfl
@[simp] theorem complete_line (code : Result) : (complete code s).line = s.line := rfl
@[simp] theorem complete_host (code : Result) : (complete code s).host = s.host := rfl
@[simp] theorem complete_draws (code : Result) : (complete code s).draws = s.draws := rfl
@[simp] theorem complete_waited (code : Result) : (complete code s).waited = s.waited := rfl

/-! ### `completeAtOnce` -/

@[simp] theorem completeAtOnce_ie (code : Result) : (completeAtOnce code s).ie = s.ie := rfl
@[simp] theorem completeAtOnce_status (code : Result) : (completeAtOnce code s).status = { s.status with result := code, done := true } := rfl
@[simp] theorem completeAtOnce_crc (code : Result) : (completeAtOnce code s).crc = s.crc := rfl
@[simp] theorem completeAtOnce_bufLen (code : Result) : (completeAtOnce code s).bufLen = s.bufLen := rfl
@[simp] theorem completeAtOnce_expLen (code : Result) : (completeAtOnce code s).expLen = s.expLen := rfl
@[simp] theorem completeAtOnce_req (code : Result) : (completeAtOnce code s).req = s.req := rfl
@[simp] theorem completeAtOnce_txbuf (code : Result) : (completeAtOnce code s).txbuf = s.txbuf := rfl
@[simp] theorem completeAtOnce_txCnt (code : Result) : (completeAtOnce code s).txCnt = s.txCnt := rfl
@[simp] theorem completeAtOnce_rxCnt (code : Result) : (completeAtOnce code s).rxCnt = s.rxCnt := rfl
@[simp] theorem completeAtOnce_payLen (code : Result) : (completeAtOnce code s).payLen = s.payLen := rfl
@[simp] theorem completeAtOnce_respVal (code : Result) : (completeAtOnce code s).respVal = s.respVal := rfl
@[simp] theorem completeAtOnce_lenByte (code : Result) : (completeAtOnce code s).lenByte = s.lenByte := rfl
@[simp] theorem completeAtOnce_dropCnt (code : Result) : (completeAtOnce code s).dropCnt = s.dropCnt := rfl
@[simp] theorem completeAtOnce_fbuf (code : Result) : (completeAtOnce code s).fbuf = s.fbuf := rfl
@[simp] theorem completeAtOnce_seq (code : Result) : (completeAtOnce code s).seq = s.seq := rfl
@[simp] theorem completeAtOnce_win0 (code : Result) : (completeAtOnce code s).win0 = s.win0 := rfl
@[simp] theorem completeAtOnce_win1 (code : Result) : (completeAtOnce code s).win1 = s.win1 := rfl
@[simp] theorem completeAtOnce_rst (code : Result) : (completeAtOnce code s).rst = s.rst := rfl
@[simp] theorem completeAtOnce_line (code : Result) : (completeAtOnce code s).line = s.line := rfl
@[simp] theorem completeAtOnce_host (code : Result) : (completeAtOnce code s).host = s.host := rfl
@[simp] theorem completeAtOnce_draws (code : Result) : (completeAtOnce code s).draws = s.draws := rfl
@[simp] theorem completeAtOnce_waited (code : Result) : (completeAtOnce code s).waited = s.waited := rfl

/-! ### `collide` -/

@[simp] theorem collide_ie : (collide s).ie = s.ie := rfl
@[simp] theorem collide_status : (collide s).status = { s.status with collide := true } := rfl
@[simp] theorem collide_crc : (collide s).crc = s.crc := rfl
@[simp] theorem collide_bufLen : (collide s).bufLen = s.bufLen := rfl
@[simp] theorem collide_expLen : (collide s).expLen = s.expLen := rfl
@[simp] theorem collide_req : (collide s).req = s.req := rfl
@[simp] theorem collide_txbuf : (collide s).txbuf = s.txbuf := rfl
@[simp] theorem collide_txCnt : (collide s).txCnt = s.txCnt := rfl
@[simp] theorem collide_rxCnt : (collide s).rxCnt = s.rxCnt := rfl
@[simp] theorem collide_payLen : (collide s).payLen = s.payLen := rfl
@[simp] theorem collide_respVal : (collide s).respVal = s.respVal := rfl
@[simp] theorem collide_lenByte : (collide s).lenByte = s.lenByte := rfl
@[simp] theorem collide_dropCnt : (collide s).dropCnt = s.dropCnt := rfl
@[simp] theorem collide_fbuf : (collide s).fbuf = s.fbuf := rfl
@[simp] theorem collide_seq : (collide s).seq = s.seq := rfl
@[simp] theorem collide_win0 : (collide s).win0 = s.win0 := rfl
@[simp] theorem collide_win1 : (collide s).win1 = s.win1 := rfl
@[simp] theorem collide_rst : (collide s).rst = s.rst := rfl
@[simp] theorem collide_line : (collide s).line = s.line := rfl
@[simp] theorem collide_host : (collide s).host = s.host := rfl
@[simp] theorem collide_draws : (collide s).draws = s.draws := rfl
@[simp] theorem collide_waited : (collide s).waited = s.waited := rfl

/-! ### `setCrcFlags` -/

@[simp] theorem setCrcFlags_ie (e : Bool) : (setCrcFlags e s).ie = s.ie := rfl
@[simp] theorem setCrcFlags_status (e : Bool) : (setCrcFlags e s).status = { s.status with crcChk := true, crcErr := e } := rfl
@[simp] theorem setCrcFlags_crc (e : Bool) : (setCrcFlags e s).crc = s.crc := rfl
@[simp] theorem setCrcFlags_bufLen (e : Bool) : (setCrcFlags e s).bufLen = s.bufLen := rfl
@[simp] theorem setCrcFlags_expLen (e : Bool) : (setCrcFlags e s).expLen = s.expLen := rfl
@[simp] theorem setCrcFlags_req (e : Bool) : (setCrcFlags e s).req = s.req := rfl
@[simp] theorem setCrcFlags_txbuf (e : Bool) : (setCrcFlags e s).txbuf = s.txbuf := rfl
@[simp] theorem setCrcFlags_txCnt (e : Bool) : (setCrcFlags e s).txCnt = s.txCnt := rfl
@[simp] theorem setCrcFlags_rxCnt (e : Bool) : (setCrcFlags e s).rxCnt = s.rxCnt := rfl
@[simp] theorem setCrcFlags_payLen (e : Bool) : (setCrcFlags e s).payLen = s.payLen := rfl
@[simp] theorem setCrcFlags_respVal (e : Bool) : (setCrcFlags e s).respVal = s.respVal := rfl
@[simp] theorem setCrcFlags_lenByte (e : Bool) : (setCrcFlags e s).lenByte = s.lenByte := rfl
@[simp] theorem setCrcFlags_dropCnt (e : Bool) : (setCrcFlags e s).dropCnt = s.dropCnt := rfl
@[simp] theorem setCrcFlags_fbuf (e : Bool) : (setCrcFlags e s).fbuf = s.fbuf := rfl
@[simp] theorem setCrcFlags_seq (e : Bool) : (setCrcFlags e s).seq = s.seq := rfl
@[simp] theorem setCrcFlags_win0 (e : Bool) : (setCrcFlags e s).win0 = s.win0 := rfl
@[simp] theorem setCrcFlags_win1 (e : Bool) : (setCrcFlags e s).win1 = s.win1 := rfl
@[simp] theorem setCrcFlags_rst (e : Bool) : (setCrcFlags e s).rst = s.rst := rfl
@[simp] theorem setCrcFlags_line (e : Bool) : (setCrcFlags e s).line = s.line := rfl
@[simp] theorem setCrcFlags_host (e : Bool) : (setCrcFlags e s).host = s.host := rfl
@[simp] theorem setCrcFlags_draws (e : Bool) : (setCrcFlags e s).draws = s.draws := rfl
@[simp] theorem setCrcFlags_waited (e : Bool) : (setCrcFlags e s).waited = s.waited := rfl

/-! ### `setHdrClass` -/

@[simp] theorem setHdrClass_ie (c : HdrClass) : (setHdrClass c s).ie = s.ie := rfl
@[simp] theorem setHdrClass_status (c : HdrClass) : (setHdrClass c s).status = { s.status with hdrClass := c } := rfl
@[simp] theorem setHdrClass_crc (c : HdrClass) : (setHdrClass c s).crc = s.crc := rfl
@[simp] theorem setHdrClass_bufLen (c : HdrClass) : (setHdrClass c s).bufLen = s.bufLen := rfl
@[simp] theorem setHdrClass_expLen (c : HdrClass) : (setHdrClass c s).expLen = s.expLen := rfl
@[simp] theorem setHdrClass_req (c : HdrClass) : (setHdrClass c s).req = s.req := rfl
@[simp] theorem setHdrClass_txbuf (c : HdrClass) : (setHdrClass c s).txbuf = s.txbuf := rfl
@[simp] theorem setHdrClass_txCnt (c : HdrClass) : (setHdrClass c s).txCnt = s.txCnt := rfl
@[simp] theorem setHdrClass_rxCnt (c : HdrClass) : (setHdrClass c s).rxCnt = s.rxCnt := rfl
@[simp] theorem setHdrClass_payLen (c : HdrClass) : (setHdrClass c s).payLen = s.payLen := rfl
@[simp] theorem setHdrClass_respVal (c : HdrClass) : (setHdrClass c s).respVal = s.respVal := rfl
@[simp] theorem setHdrClass_lenByte (c : HdrClass) : (setHdrClass c s).lenByte = s.lenByte := rfl
@[simp] theorem setHdrClass_dropCnt (c : HdrClass) : (setHdrClass c s).dropCnt = s.dropCnt := rfl
@[simp] theorem setHdrClass_fbuf (c : HdrClass) : (setHdrClass c s).fbuf = s.fbuf := rfl
@[simp] theorem setHdrClass_seq (c : HdrClass) : (setHdrClass c s).seq = s.seq := rfl
@[simp] theorem setHdrClass_win0 (c : HdrClass) : (setHdrClass c s).win0 = s.win0 := rfl
@[simp] theorem setHdrClass_win1 (c : HdrClass) : (setHdrClass c s).win1 = s.win1 := rfl
@[simp] theorem setHdrClass_rst (c : HdrClass) : (setHdrClass c s).rst = s.rst := rfl
@[simp] theorem setHdrClass_line (c : HdrClass) : (setHdrClass c s).line = s.line := rfl
@[simp] theorem setHdrClass_host (c : HdrClass) : (setHdrClass c s).host = s.host := rfl
@[simp] theorem setHdrClass_draws (c : HdrClass) : (setHdrClass c s).draws = s.draws := rfl
@[simp] theorem setHdrClass_waited (c : HdrClass) : (setHdrClass c s).waited = s.waited := rfl

/-! ### `setHsOk` -/

@[simp] theorem setHsOk_ie (b : Bool) : (setHsOk b s).ie = s.ie := rfl
@[simp] theorem setHsOk_status (b : Bool) : (setHsOk b s).status = { s.status with hsOk := b } := rfl
@[simp] theorem setHsOk_crc (b : Bool) : (setHsOk b s).crc = s.crc := rfl
@[simp] theorem setHsOk_bufLen (b : Bool) : (setHsOk b s).bufLen = s.bufLen := rfl
@[simp] theorem setHsOk_expLen (b : Bool) : (setHsOk b s).expLen = s.expLen := rfl
@[simp] theorem setHsOk_req (b : Bool) : (setHsOk b s).req = s.req := rfl
@[simp] theorem setHsOk_txbuf (b : Bool) : (setHsOk b s).txbuf = s.txbuf := rfl
@[simp] theorem setHsOk_txCnt (b : Bool) : (setHsOk b s).txCnt = s.txCnt := rfl
@[simp] theorem setHsOk_rxCnt (b : Bool) : (setHsOk b s).rxCnt = s.rxCnt := rfl
@[simp] theorem setHsOk_payLen (b : Bool) : (setHsOk b s).payLen = s.payLen := rfl
@[simp] theorem setHsOk_respVal (b : Bool) : (setHsOk b s).respVal = s.respVal := rfl
@[simp] theorem setHsOk_lenByte (b : Bool) : (setHsOk b s).lenByte = s.lenByte := rfl
@[simp] theorem setHsOk_dropCnt (b : Bool) : (setHsOk b s).dropCnt = s.dropCnt := rfl
@[simp] theorem setHsOk_fbuf (b : Bool) : (setHsOk b s).fbuf = s.fbuf := rfl
@[simp] theorem setHsOk_seq (b : Bool) : (setHsOk b s).seq = s.seq := rfl
@[simp] theorem setHsOk_win0 (b : Bool) : (setHsOk b s).win0 = s.win0 := rfl
@[simp] theorem setHsOk_win1 (b : Bool) : (setHsOk b s).win1 = s.win1 := rfl
@[simp] theorem setHsOk_rst (b : Bool) : (setHsOk b s).rst = s.rst := rfl
@[simp] theorem setHsOk_line (b : Bool) : (setHsOk b s).line = s.line := rfl
@[simp] theorem setHsOk_host (b : Bool) : (setHsOk b s).host = s.host := rfl
@[simp] theorem setHsOk_draws (b : Bool) : (setHsOk b s).draws = s.draws := rfl
@[simp] theorem setHsOk_waited (b : Bool) : (setHsOk b s).waited = s.waited := rfl

/-! ### `waitFor` -/

@[simp] theorem waitFor_ie (d : Nat) : (waitFor d s).ie = s.ie := rfl
@[simp] theorem waitFor_status (d : Nat) : (waitFor d s).status = s.status := rfl
@[simp] theorem waitFor_crc (d : Nat) : (waitFor d s).crc = s.crc := rfl
@[simp] theorem waitFor_bufLen (d : Nat) : (waitFor d s).bufLen = s.bufLen := rfl
@[simp] theorem waitFor_expLen (d : Nat) : (waitFor d s).expLen = s.expLen := rfl
@[simp] theorem waitFor_req (d : Nat) : (waitFor d s).req = s.req := rfl
@[simp] theorem waitFor_txbuf (d : Nat) : (waitFor d s).txbuf = s.txbuf := rfl
@[simp] theorem waitFor_txCnt (d : Nat) : (waitFor d s).txCnt = s.txCnt := rfl
@[simp] theorem waitFor_rxCnt (d : Nat) : (waitFor d s).rxCnt = s.rxCnt := rfl
@[simp] theorem waitFor_payLen (d : Nat) : (waitFor d s).payLen = s.payLen := rfl
@[simp] theorem waitFor_respVal (d : Nat) : (waitFor d s).respVal = s.respVal := rfl
@[simp] theorem waitFor_lenByte (d : Nat) : (waitFor d s).lenByte = s.lenByte := rfl
@[simp] theorem waitFor_dropCnt (d : Nat) : (waitFor d s).dropCnt = s.dropCnt := rfl
@[simp] theorem waitFor_fbuf (d : Nat) : (waitFor d s).fbuf = s.fbuf := rfl
@[simp] theorem waitFor_seq (d : Nat) : (waitFor d s).seq = s.seq := rfl
@[simp] theorem waitFor_win0 (d : Nat) : (waitFor d s).win0 = s.win0 := rfl
@[simp] theorem waitFor_win1 (d : Nat) : (waitFor d s).win1 = s.win1 := rfl
@[simp] theorem waitFor_rst (d : Nat) : (waitFor d s).rst = s.rst := rfl
@[simp] theorem waitFor_line (d : Nat) : (waitFor d s).line = s.line := rfl
@[simp] theorem waitFor_host (d : Nat) : (waitFor d s).host = s.host := rfl
@[simp] theorem waitFor_draws (d : Nat) : (waitFor d s).draws = s.draws := rfl
@[simp] theorem waitFor_waited (d : Nat) : (waitFor d s).waited = s.waited + d := rfl

/-! ### `rxPrologue` -/

@[simp] theorem rxPrologue_ie : (rxPrologue s).ie = s.ie := rfl
@[simp] theorem rxPrologue_status : (rxPrologue s).status = { s.status with crcChk := false, crcErr := false, hdrClass := .unknown } := rfl
@[simp] theorem rxPrologue_crc : (rxPrologue s).crc = s.crc := rfl
@[simp] theorem rxPrologue_bufLen : (rxPrologue s).bufLen = s.bufLen := rfl
@[simp] theorem rxPrologue_expLen : (rxPrologue s).expLen = s.expLen := rfl
@[simp] theorem rxPrologue_req : (rxPrologue s).req = s.req := rfl
@[simp] theorem rxPrologue_txbuf : (rxPrologue s).txbuf = s.txbuf := rfl
@[simp] theorem rxPrologue_txCnt : (rxPrologue s).txCnt = s.txCnt := rfl
@[simp] theorem rxPrologue_rxCnt : (rxPrologue s).rxCnt = 0 := rfl
@[simp] theorem rxPrologue_payLen : (rxPrologue s).payLen = 0 := rfl
@[simp] theorem rxPrologue_respVal : (rxPrologue s).respVal = 0 := rfl
@[simp] theorem rxPrologue_lenByte : (rxPrologue s).lenByte = 0 := rfl
@[simp] theorem rxPrologue_dropCnt : (rxPrologue s).dropCnt = 0 := rfl
@[simp] theorem rxPrologue_fbuf : (rxPrologue s).fbuf = s.fbuf := rfl
@[simp] theorem rxPrologue_seq : (rxPrologue s).seq = s.seq := rfl
@[simp] theorem rxPrologue_win0 : (rxPrologue s).win0 = s.win0 := rfl
@[simp] theorem rxPrologue_win1 : (rxPrologue s).win1 = s.win1 := rfl
@[simp] theorem rxPrologue_rst : (rxPrologue s).rst = s.rst := rfl
@[simp] theorem rxPrologue_line : (rxPrologue s).line = s.line := rfl
@[simp] theorem rxPrologue_host : (rxPrologue s).host = s.host := rfl
@[simp] theorem rxPrologue_draws : (rxPrologue s).draws = s.draws := rfl
@[simp] theorem rxPrologue_waited : (rxPrologue s).waited = s.waited := rfl

/-! ### `encodeRequest` -/

@[simp] theorem encodeRequest_ie : (encodeRequest s).ie = s.ie := rfl
@[simp] theorem encodeRequest_status : (encodeRequest s).status = s.status := rfl
@[simp] theorem encodeRequest_crc : (encodeRequest s).crc = crc16 (reqList s.req) := rfl
@[simp] theorem encodeRequest_bufLen : (encodeRequest s).bufLen = s.bufLen := rfl
@[simp] theorem encodeRequest_expLen : (encodeRequest s).expLen = s.expLen := rfl
@[simp] theorem encodeRequest_req : (encodeRequest s).req = s.req := rfl
@[simp] theorem encodeRequest_txbuf : (encodeRequest s).txbuf = { req := s.req, crcLo := loByte (crc16 (reqList s.req)), crcHi := hiByte (crc16 (reqList s.req)) } := rfl
@[simp] theorem encodeRequest_txCnt : (encodeRequest s).txCnt = s.txCnt := rfl
@[simp] theorem encodeRequest_rxCnt : (encodeRequest s).rxCnt = s.rxCnt := rfl
@[simp] theorem encodeRequest_payLen : (encodeRequest s).payLen = s.payLen := rfl
@[simp] theorem encodeRequest_respVal : (encodeRequest s).respVal = s.respVal := rfl
@[simp] theorem encodeRequest_lenByte : (encodeRequest s).lenByte = s.lenByte := rfl
@[simp] theorem encodeRequest_dropCnt : (encodeRequest s).dropCnt = s.dropCnt := rfl
@[simp] theorem encodeRequest_fbuf : (encodeRequest s).fbuf = s.fbuf := rfl
@[simp] theorem encodeRequest_seq : (encodeRequest s).seq = s.seq := rfl
@[simp] theorem encodeRequest_win0 : (encodeRequest s).win0 = s.win0 := rfl
@[simp] theorem encodeRequest_win1 : (encodeRequest s).win1 = s.win1 := rfl
@[simp] theorem encodeRequest_rst : (encodeRequest s).rst = s.rst := rfl
@[simp] theorem encodeRequest_line : (encodeRequest s).line = s.line := rfl
@[simp] theorem encodeRequest_host : (encodeRequest s).host = s.host := rfl
@[simp] theorem encodeRequest_draws : (encodeRequest s).draws = s.draws := rfl
@[simp] theorem encodeRequest_waited : (encodeRequest s).waited = s.waited := rfl

/-! ### `hskBegin` -/

@[simp] theorem hskBegin_ie : (hskBegin s).ie = s.ie := rfl
@[simp] theorem hskBegin_status : (hskBegin s).status = { s.status with hsOk := false } := rfl
@[simp] theorem hskBegin_crc : (hskBegin s).crc = s.crc := rfl
@[simp] theorem hskBegin_bufLen : (hskBegin s).bufLen = s.bufLen := rfl
@[simp] theorem hskBegin_expLen : (hskBegin s).expLen = s.expLen := rfl
@[simp] theorem hskBegin_req : (hskBegin s).req = Config.hsReq := rfl
@[simp] theorem hskBegin_txbuf : (hskBegin s).txbuf = s.txbuf := rfl
@[simp] theorem hskBegin_txCnt : (hskBegin s).txCnt = s.txCnt := rfl
@[simp] theorem hskBegin_rxCnt : (hskBegin s).rxCnt = s.rxCnt := rfl
@[simp] theorem hskBegin_payLen : (hskBegin s).payLen = s.payLen := rfl
@[simp] theorem hskBegin_respVal : (hskBegin s).respVal = s.respVal := rfl
@[simp] theorem hskBegin_lenByte : (hskBegin s).lenByte = s.lenByte := rfl
@[simp] theorem hskBegin_dropCnt : (hskBegin s).dropCnt = s.dropCnt := rfl
@[simp] theorem hskBegin_fbuf : (hskBegin s).fbuf = s.fbuf := rfl
@[simp] theorem hskBegin_seq : (hskBegin s).seq = s.seq := rfl
@[simp] theorem hskBegin_win0 : (hskBegin s).win0 = s.win0 := rfl
@[simp] theorem hskBegin_win1 : (hskBegin s).win1 = s.win1 := rfl
@[simp] theorem hskBegin_rst : (hskBegin s).rst = s.rst := rfl
@[simp] theorem hskBegin_line : (hskBegin s).line = s.line := rfl
@[simp] theorem hskBegin_host : (hskBegin s).host = s.host := rfl
@[simp] theorem hskBegin_draws : (hskBegin s).draws = s.draws := rfl
@[simp] theorem hskBegin_waited : (hskBegin s).waited = s.waited := rfl

/-! ### `popAction` -/

@[simp] theorem popAction_ie (rest : List BusAction) : (popAction rest s).ie = s.ie := rfl
@[simp] theorem popAction_status (rest : List BusAction) : (popAction rest s).status = s.status := rfl
@[simp] theorem popAction_crc (rest : List BusAction) : (popAction rest s).crc = s.crc := rfl
@[simp] theorem popAction_bufLen (rest : List BusAction) : (popAction rest s).bufLen = s.bufLen := rfl
@[simp] theorem popAction_expLen (rest : List BusAction) : (popAction rest s).expLen = s.expLen := rfl
@[simp] theorem popAction_req (rest : List BusAction) : (popAction rest s).req = s.req := rfl
@[simp] theorem popAction_txbuf (rest : List BusAction) : (popAction rest s).txbuf = s.txbuf := rfl
@[simp] theorem popAction_txCnt (rest : List BusAction) : (popAction rest s).txCnt = s.txCnt := rfl
@[simp] theorem popAction_rxCnt (rest : List BusAction) : (popAction rest s).rxCnt = s.rxCnt := rfl
@[simp] theorem popAction_payLen (rest : List BusAction) : (popAction rest s).payLen = s.payLen := rfl
@[simp] theorem popAction_respVal (rest : List BusAction) : (popAction rest s).respVal = s.respVal := rfl
@[simp] theorem popAction_lenByte (rest : List BusAction) : (popAction rest s).lenByte = s.lenByte := rfl
@[simp] theorem popAction_dropCnt (rest : List BusAction) : (popAction rest s).dropCnt = s.dropCnt := rfl
@[simp] theorem popAction_fbuf (rest : List BusAction) : (popAction rest s).fbuf = s.fbuf := rfl
@[simp] theorem popAction_seq (rest : List BusAction) : (popAction rest s).seq = s.seq := rfl
@[simp] theorem popAction_win0 (rest : List BusAction) : (popAction rest s).win0 = s.win0 := rfl
@[simp] theorem popAction_win1 (rest : List BusAction) : (popAction rest s).win1 = s.win1 := rfl
@[simp] theorem popAction_rst (rest : List BusAction) : (popAction rest s).rst = s.rst := rfl
@[simp] theorem popAction_line (rest : List BusAction) : (popAction rest s).line = s.line := rfl
@[simp] theorem popAction_host (rest : List BusAction) : (popAction rest s).host = { s.host with bus := rest } := rfl
@[simp] theorem popAction_draws (rest : List BusAction) : (popAction rest s).draws = s.draws := rfl
@[simp] theorem popAction_waited (rest : List BusAction) : (popAction rest s).waited = s.waited := rfl

/-! ### `driveData` -/

@[simp] theorem driveData_ie (v : Word) : (driveData v s).ie = s.ie := rfl
@[simp] theorem driveData_status (v : Word) : (driveData v s).status = s.status := rfl
@[simp] theorem driveData_crc (v : Word) : (driveData v s).crc = s.crc := rfl
@[simp] theorem driveData_bufLen (v : Word) : (driveData v s).bufLen = s.bufLen := rfl
@[simp] theorem driveData_expLen (v : Word) : (driveData v s).expLen = s.expLen := rfl
@[simp] theorem driveData_req (v : Word) : (driveData v s).req = s.req := rfl
@[simp] theorem driveData_txbuf (v : Word) : (driveData v s).txbuf = s.txbuf := rfl
@[simp] theorem driveData_txCnt (v : Word) : (driveData v s).txCnt = s.txCnt := rfl
@[simp] theorem driveData_rxCnt (v : Word) : (driveData v s).rxCnt = s.rxCnt := rfl
@[simp] theorem driveData_payLen (v : Word) : (driveData v s).payLen = s.payLen := rfl
@[simp] theorem driveData_respVal (v : Word) : (driveData v s).respVal = s.respVal := rfl
@[simp] theorem driveData_lenByte (v : Word) : (driveData v s).lenByte = s.lenByte := rfl
@[simp] theorem driveData_dropCnt (v : Word) : (driveData v s).dropCnt = s.dropCnt := rfl
@[simp] theorem driveData_fbuf (v : Word) : (driveData v s).fbuf = s.fbuf := rfl
@[simp] theorem driveData_seq (v : Word) : (driveData v s).seq = s.seq := rfl
@[simp] theorem driveData_win0 (v : Word) : (driveData v s).win0 = s.win0 := rfl
@[simp] theorem driveData_win1 (v : Word) : (driveData v s).win1 = s.win1 := rfl
@[simp] theorem driveData_rst (v : Word) : (driveData v s).rst = s.rst := rfl
@[simp] theorem driveData_line (v : Word) : (driveData v s).line = s.line := rfl
@[simp] theorem driveData_host (v : Word) : (driveData v s).host = { s.host with wdata := v } := rfl
@[simp] theorem driveData_draws (v : Word) : (driveData v s).draws = s.draws := rfl
@[simp] theorem driveData_waited (v : Word) : (driveData v s).waited = s.waited := rfl

/-! ### `prepareRequest` -/

@[simp] theorem prepareRequest_ie : (prepareRequest s).ie = s.ie := rfl
@[simp] theorem prepareRequest_status : (prepareRequest s).status = { s.status with crcChk := false, crcErr := false, hdrClass := .unknown } := rfl
@[simp] theorem prepareRequest_crc : (prepareRequest s).crc = crc16 (reqList s.req) := rfl
@[simp] theorem prepareRequest_bufLen : (prepareRequest s).bufLen = s.bufLen := rfl
@[simp] theorem prepareRequest_expLen : (prepareRequest s).expLen = s.expLen := rfl
@[simp] theorem prepareRequest_req : (prepareRequest s).req = s.req := rfl
@[simp] theorem prepareRequest_txbuf : (prepareRequest s).txbuf = { req := s.req, crcLo := loByte (crc16 (reqList s.req)), crcHi := hiByte (crc16 (reqList s.req)) } := rfl
@[simp] theorem prepareRequest_txCnt : (prepareRequest s).txCnt = 0 := rfl
@[simp] theorem prepareRequest_rxCnt : (prepareRequest s).rxCnt = 0 := rfl
@[simp] theorem prepareRequest_payLen : (prepareRequest s).payLen = 0 := rfl
@[simp] theorem prepareRequest_respVal : (prepareRequest s).respVal = 0 := rfl
@[simp] theorem prepareRequest_lenByte : (prepareRequest s).lenByte = 0 := rfl
@[simp] theorem prepareRequest_dropCnt : (prepareRequest s).dropCnt = 0 := rfl
@[simp] theorem prepareRequest_fbuf : (prepareRequest s).fbuf = s.fbuf := rfl
@[simp] theorem prepareRequest_seq : (prepareRequest s).seq = s.seq := rfl
@[simp] theorem prepareRequest_win0 : (prepareRequest s).win0 = s.win0 := rfl
@[simp] theorem prepareRequest_win1 : (prepareRequest s).win1 = s.win1 := rfl
@[simp] theorem prepareRequest_rst : (prepareRequest s).rst = s.rst := rfl
@[simp] theorem prepareRequest_line : (prepareRequest s).line = s.line := rfl
@[simp] theorem prepareRequest_host : (prepareRequest s).host = s.host := rfl
@[simp] theorem prepareRequest_draws : (prepareRequest s).draws = s.draws := rfl
@[simp] theorem prepareRequest_waited : (prepareRequest s).waited = s.waited := rfl

/-! ### `setPoint` -/

@[simp] theorem setPoint_ie (p : SeqPoint) (n : Nat) : (setPoint p n s).ie = s.ie := by unfold setPoint; split <;> rfl
@[simp] theorem setPoint_status (p : SeqPoint) (n : Nat) : (setPoint p n s).status = s.status := by unfold setPoint; split <;> rfl
@[simp] theorem setPoint_crc (p : SeqPoint) (n : Nat) : (setPoint p n s).crc = s.crc := by unfold setPoint; split <;> rfl
@[simp] theorem setPoint_bufLen (p : SeqPoint) (n : Nat) : (setPoint p n s).bufLen = s.bufLen := by unfold setPoint; split <;> rfl
@[simp] theorem setPoint_expLen (p : SeqPoint) (n : Nat) : (setPoint p n s).expLen = s.expLen := by unfold setPoint; split <;> rfl
@[simp] theorem setPoint_req (p : SeqPoint) (n : Nat) : (setPoint p n s).req = s.req := by unfold setPoint; split <;> rfl
@[simp] theorem setPoint_txbuf (p : SeqPoint) (n : Nat) : (setPoint p n s).txbuf = s.txbuf := by unfold setPoint; split <;> rfl
@[simp] theorem setPoint_txCnt (p : SeqPoint) (n : Nat) : (setPoint p n s).txCnt = s.txCnt := by unfold setPoint; split <;> rfl
@[simp] theorem setPoint_rxCnt (p : SeqPoint) (n : Nat) : (setPoint p n s).rxCnt = s.rxCnt := by unfold setPoint; split <;> rfl
@[simp] theorem setPoint_payLen (p : SeqPoint) (n : Nat) : (setPoint p n s).payLen = s.payLen := by unfold setPoint; split <;> rfl
@[simp] theorem setPoint_respVal (p : SeqPoint) (n : Nat) : (setPoint p n s).respVal = s.respVal := by unfold setPoint; split <;> rfl
@[simp] theorem setPoint_lenByte (p : SeqPoint) (n : Nat) : (setPoint p n s).lenByte = s.lenByte := by unfold setPoint; split <;> rfl
@[simp] theorem setPoint_dropCnt (p : SeqPoint) (n : Nat) : (setPoint p n s).dropCnt = s.dropCnt := by unfold setPoint; split <;> rfl
@[simp] theorem setPoint_fbuf (p : SeqPoint) (n : Nat) : (setPoint p n s).fbuf = s.fbuf := by unfold setPoint; split <;> rfl
@[simp] theorem setPoint_win0 (p : SeqPoint) (n : Nat) : (setPoint p n s).win0 = s.win0 := by unfold setPoint; split <;> rfl
@[simp] theorem setPoint_win1 (p : SeqPoint) (n : Nat) : (setPoint p n s).win1 = s.win1 := by unfold setPoint; split <;> rfl
@[simp] theorem setPoint_rst (p : SeqPoint) (n : Nat) : (setPoint p n s).rst = s.rst := by unfold setPoint; split <;> rfl
@[simp] theorem setPoint_line (p : SeqPoint) (n : Nat) : (setPoint p n s).line = s.line := by unfold setPoint; split <;> rfl
@[simp] theorem setPoint_host (p : SeqPoint) (n : Nat) : (setPoint p n s).host = s.host := by unfold setPoint; split <;> rfl
@[simp] theorem setPoint_draws (p : SeqPoint) (n : Nat) : (setPoint p n s).draws = s.draws := by unfold setPoint; split <;> rfl
@[simp] theorem setPoint_waited (p : SeqPoint) (n : Nat) : (setPoint p n s).waited = s.waited := by unfold setPoint; split <;> rfl

@[simp] theorem setPoint_seq_run (p q : SeqPoint) (n k : Nat) (cmd : Word) (b : Flags) (h : s.seq = .run cmd q k b) :
    (setPoint p n s).seq = .run cmd p n b := by simp [setPoint, h]

/-- The flags that the host sees of a running command; none while idle. -/
def Seq.before : Seq → Option Flags
  | .idle => none
  | .run _ _ _ b => some b

/-- A change of `SEQ.step` leaves them. -/
@[simp] theorem setPoint_seq_before (p : SeqPoint) (n : Nat) : (setPoint p n s).seq.before = s.seq.before := by
  unfold setPoint; split <;> simp_all [Seq.before]

/-- With the block idle the host sees `STATUS` itself. -/
@[simp] theorem hostStatus_idle (h : s.status.busy = false) : hostStatus s = s.status := by
  unfold hostStatus; split <;> simp_all

/-! ### `fbufWrite` -/

@[simp] theorem fbufWrite_ie (i : Nat) (b : Byte) : (fbufWrite i b s).ie = s.ie := by unfold fbufWrite; split <;> rfl
@[simp] theorem fbufWrite_status (i : Nat) (b : Byte) : (fbufWrite i b s).status = s.status := by unfold fbufWrite; split <;> rfl
@[simp] theorem fbufWrite_crc (i : Nat) (b : Byte) : (fbufWrite i b s).crc = s.crc := by unfold fbufWrite; split <;> rfl
@[simp] theorem fbufWrite_bufLen (i : Nat) (b : Byte) : (fbufWrite i b s).bufLen = s.bufLen := by unfold fbufWrite; split <;> rfl
@[simp] theorem fbufWrite_expLen (i : Nat) (b : Byte) : (fbufWrite i b s).expLen = s.expLen := by unfold fbufWrite; split <;> rfl
@[simp] theorem fbufWrite_req (i : Nat) (b : Byte) : (fbufWrite i b s).req = s.req := by unfold fbufWrite; split <;> rfl
@[simp] theorem fbufWrite_txbuf (i : Nat) (b : Byte) : (fbufWrite i b s).txbuf = s.txbuf := by unfold fbufWrite; split <;> rfl
@[simp] theorem fbufWrite_txCnt (i : Nat) (b : Byte) : (fbufWrite i b s).txCnt = s.txCnt := by unfold fbufWrite; split <;> rfl
@[simp] theorem fbufWrite_rxCnt (i : Nat) (b : Byte) : (fbufWrite i b s).rxCnt = s.rxCnt := by unfold fbufWrite; split <;> rfl
@[simp] theorem fbufWrite_payLen (i : Nat) (b : Byte) : (fbufWrite i b s).payLen = s.payLen := by unfold fbufWrite; split <;> rfl
@[simp] theorem fbufWrite_respVal (i : Nat) (b : Byte) : (fbufWrite i b s).respVal = s.respVal := by unfold fbufWrite; split <;> rfl
@[simp] theorem fbufWrite_lenByte (i : Nat) (b : Byte) : (fbufWrite i b s).lenByte = s.lenByte := by unfold fbufWrite; split <;> rfl
@[simp] theorem fbufWrite_dropCnt (i : Nat) (b : Byte) : (fbufWrite i b s).dropCnt = s.dropCnt := by unfold fbufWrite; split <;> rfl
@[simp] theorem fbufWrite_seq (i : Nat) (b : Byte) : (fbufWrite i b s).seq = s.seq := by unfold fbufWrite; split <;> rfl
@[simp] theorem fbufWrite_win0 (i : Nat) (b : Byte) : (fbufWrite i b s).win0 = s.win0 := by unfold fbufWrite; split <;> rfl
@[simp] theorem fbufWrite_win1 (i : Nat) (b : Byte) : (fbufWrite i b s).win1 = s.win1 := by unfold fbufWrite; split <;> rfl
@[simp] theorem fbufWrite_rst (i : Nat) (b : Byte) : (fbufWrite i b s).rst = s.rst := by unfold fbufWrite; split <;> rfl
@[simp] theorem fbufWrite_line (i : Nat) (b : Byte) : (fbufWrite i b s).line = s.line := by unfold fbufWrite; split <;> rfl
@[simp] theorem fbufWrite_host (i : Nat) (b : Byte) : (fbufWrite i b s).host = s.host := by unfold fbufWrite; split <;> rfl
@[simp] theorem fbufWrite_draws (i : Nat) (b : Byte) : (fbufWrite i b s).draws = s.draws := by unfold fbufWrite; split <;> rfl
@[simp] theorem fbufWrite_waited (i : Nat) (b : Byte) : (fbufWrite i b s).waited = s.waited := by unfold fbufWrite; split <;> rfl

end Sys2Proof.Machine
end

