-- ==== Sys2Proof/Laws/Memory.lean ====
section
/-! SUPPORT. Memory and `FBUF`: read after write, the canonical form, and everything a read or a store of `FBUF` can do. -/

namespace Sys2Proof.Machine

/-! ### Memory -/

@[simp] theorem Memory.get?_nil (i : Nat) : Memory.get? [] i = none := rfl

theorem Memory.get?_set (m : Memory) (i j : Nat) (v : Byte) :
    Memory.get? (Memory.set m i v) j = if j = i then some v else Memory.get? m j := by
  induction m with
  | nil => simp [Memory.set, Memory.get?, eq_comm]
  | cons c m ih =>
    unfold Memory.set
    split
    · simp [Memory.get?, eq_comm (a := i)]
    · split
      · rename_i h
        subst h
        by_cases hj : j = c.1
        · simp [Memory.get?, hj]
        · simp [Memory.get?, hj, Ne.symm hj]
      · simp only [Memory.get?, ih]
        split <;> split <;> simp_all

theorem Memory.mem_set {m : Memory} {i : Nat} {v : Byte} {c : Host.Cell} (h : c ∈ Memory.set m i v) :
    c = (i, v) ∨ c ∈ m := by
  induction m with
  | nil => simpa [Memory.set] using h
  | cons d m ih =>
    unfold Memory.set at h
    split at h
    · simpa using h
    · split at h
      · simp only [List.mem_cons] at h ⊢
        tauto
      · simp only [List.mem_cons] at h ⊢
        rcases h with h | h
        · exact .inr (.inl h)
        · exact (ih h).imp id .inr

/-- A write keeps the canonical form. -/
theorem Memory.set_wf {m : Memory} {i : Nat} (v : Byte) (hm : Memory.wf m) (hi : i < Config.maxFrame) :
    Memory.wf (Memory.set m i v) := by
  refine ⟨?_, fun c hc => ?_⟩
  · have hp := hm.1
    clear hm
    induction m with
    | nil => simp [Memory.set]
    | cons d m ih =>
      rw [List.pairwise_cons] at hp
      unfold Memory.set
      split
      · rename_i h
        simp only [List.pairwise_cons, List.mem_cons]
        refine ⟨fun a ha => ?_, hp⟩
        rcases ha with rfl | ha
        · exact h
        · exact lt_trans h (hp.1 a ha)
      · split
        · rename_i h
          simp only [List.pairwise_cons]
          exact ⟨fun a ha => by simpa [h] using hp.1 a ha, hp.2⟩
        · rename_i h₁ h₂
          rw [List.pairwise_cons]
          refine ⟨fun a ha => ?_, ih hp.2⟩
          rcases Memory.mem_set ha with rfl | ha
          · simp only
            omega
          · exact hp.1 a ha
  · rcases Memory.mem_set hc with rfl | hc
    · exact hi
    · exact hm.2 c hc

/-! ### `FBUF` writes -/

theorem fbufWrite_get? (i j : Nat) (b : Byte) (s : State) (hi : i < Config.maxFrame) :
    Memory.get? (fbufWrite i b s).fbuf j = if j = i then some b else Memory.get? s.fbuf j := by
  simp [fbufWrite, hi, Memory.get?_set]

theorem fbufWrite_wf (i : Nat) (b : Byte) (s : State) (h : Memory.wf s.fbuf) :
    Memory.wf (fbufWrite i b s).fbuf := by
  unfold fbufWrite
  split
  · exact Memory.set_wf b h ‹_›
  · exact h

/-- A write of a byte changes `FBUF` and nothing else. -/
theorem fbufWrite_eq (i : Nat) (b : Byte) (s : State) :
    fbufWrite i b s = { s with fbuf := (fbufWrite i b s).fbuf } := by
  unfold fbufWrite
  split <;> rfl

/-- A write depends on the state through `FBUF` only. -/
theorem fbufWrite_fbuf_congr (i : Nat) (b : Byte) {s t : State} (h : s.fbuf = t.fbuf) :
    (fbufWrite i b s).fbuf = (fbufWrite i b t).fbuf := by
  unfold fbufWrite
  split <;> simp [h]

/-- A store changes `FBUF` and nothing else. -/
theorem fbufStore_eq (bs : List Byte) : ∀ (i : Nat) (s : State),
    fbufStore i bs s = { s with fbuf := (fbufStore i bs s).fbuf } := by
  induction bs with
  | nil => intro i s; rfl
  | cons b bs ih =>
    intro i s
    rw [fbufStore, ih, fbufWrite_eq]

theorem fbufStore_fbuf_congr (bs : List Byte) : ∀ (i : Nat) {s t : State}, s.fbuf = t.fbuf →
    (fbufStore i bs s).fbuf = (fbufStore i bs t).fbuf := by
  induction bs with
  | nil => intro i s t h; exact h
  | cons b bs ih => intro i s t h; exact ih _ (fbufWrite_fbuf_congr i b h)

/-- Where a store puts its bytes, and that it leaves every other byte alone. -/
theorem fbufStore_get? (bs : List Byte) : ∀ (i j : Nat) (s : State), i + bs.length ≤ Config.maxFrame →
    Memory.get? (fbufStore i bs s).fbuf j =
      if i ≤ j ∧ j < i + bs.length then bs[j - i]? else Memory.get? s.fbuf j := by
  induction bs with
  | nil => intro i j s _; simp [fbufStore]
  | cons b bs ih =>
    intro i j s h
    simp only [List.length_cons] at h
    rw [fbufStore, ih _ _ _ (by omega), fbufWrite_get? _ _ _ _ (by omega)]
    by_cases h₁ : j = i
    · subst h₁
      simp
    · by_cases h₂ : i + 1 ≤ j ∧ j < i + 1 + bs.length
      · have h₃ : i ≤ j ∧ j < i + (b :: bs).length := by simp only [List.length_cons]; omega
        have h₄ : j - i = (j - (i + 1)) + 1 := by omega
        rw [if_pos h₂, if_pos h₃, h₄, List.getElem?_cons_succ]
      · have h₃ : ¬ (i ≤ j ∧ j < i + (b :: bs).length) := by simp only [List.length_cons]; omega
        rw [if_neg h₂, if_neg h₃, if_neg h₁]

theorem fbufStore_wf (bs : List Byte) : ∀ (i : Nat) (s : State), Memory.wf s.fbuf →
    Memory.wf (fbufStore i bs s).fbuf := by
  induction bs with
  | nil => intro i s h; exact h
  | cons b bs ih => intro i s h; exact ih _ _ (fbufWrite_wf i b s h)

/-! ### `FBUF` reads -/

/-- A read of a byte changes only the count of draws. -/
theorem fbufRead_cases (i : Nat) (s : State) : ∃ b d, fbufRead i s = (b, { s with draws := d }) ∧
    ∀ b', Memory.get? s.fbuf i = some b' → b = b' := by
  unfold fbufRead drawByte
  split
  · exact ⟨_, _, rfl, by simp_all⟩
  · exact ⟨_, _, rfl, by simp_all⟩

theorem fbufRead_listed {i : Nat} {s : State} {b : Byte} (h : Memory.get? s.fbuf i = some b) :
    fbufRead i s = (b, s) := by simp [fbufRead, h]

/-- A read of a range gives as many bytes as asked for, those written as they were written, and changes only the count
of draws. -/
theorem fbufRange_cases (n : Nat) : ∀ (i : Nat) (s : State), ∃ bs d,
    fbufRange i n s = (bs, { s with draws := d }) ∧ bs.length = n ∧
    ∀ k b, k < n → Memory.get? s.fbuf (i + k) = some b → bs[k]? = some b := by
  induction n with
  | zero => intro i s; exact ⟨[], s.draws, rfl, rfl, by omega⟩
  | succ n ih =>
    intro i s
    obtain ⟨b, d, h, hb⟩ := fbufRead_cases i s
    obtain ⟨bs, d', h', hl, hbs⟩ := ih (i + 1) { s with draws := d }
    refine ⟨b :: bs, d', by simp [fbufRange, h, h'], by simp [hl], fun k c hk hc => ?_⟩
    cases k with
    | zero => simp [hb c hc]
    | succ k =>
      rw [List.getElem?_cons_succ]
      exact hbs k c (by omega) (by simpa [Nat.add_comm, Nat.add_left_comm] using hc)

/-- A range that has been written reads as it was written. -/
theorem fbufRange_listed (f : List Byte) : ∀ (i : Nat) (s : State),
    (∀ k, k < f.length → Memory.get? s.fbuf (i + k) = f[k]?) → fbufRange i f.length s = (f, s) := by
  induction f with
  | nil => intro i s _; rfl
  | cons b f ih =>
    intro i s h
    have h₀ : Memory.get? s.fbuf i = some b := by simpa using h 0 (by simp)
    have h₁ := ih (i + 1) s (fun k hk => by
      have := h (k + 1) (by simpa using hk)
      simpa [Nat.add_comm, Nat.add_left_comm] using this)
    simp [fbufRange, fbufRead_listed h₀, h₁]

end Sys2Proof.Machine
end

