-- ==== Sys2Proof/Laws/Line.lean ====
section
/-! SUPPORT. The line's primitives (R40, R41): everything `rxPop`, `rxRead`, `txOffer` and `txWrite` can do. -/

namespace Sys2Proof.Machine

/-! ### The RX side -/

/-- Taking an event changes only the RX side of the line, and takes from its front. -/
theorem rxPop_cases (s : State) : ∃ e q t, rxPop s = (e, { s with line := { s.line with rxq := q, tail := t } }) ∧
    (s.line.rxq = e :: q ∧ t = s.line.tail ∨ s.line.rxq = [] ∧ q = [] ∧ s.line.tail = .silent ∧ e = .gap ∧ t = .silent ∨
      s.line.rxq = [] ∧ q = [] ∧ ∃ n, s.line.tail = .endless n ∧ t = .endless (n + 1)) := by
  unfold rxPop
  split
  · exact ⟨_, _, s.line.tail, rfl, .inl ⟨by assumption, rfl⟩⟩
  · split
    · rename_i h₁ _ h₂
      refine ⟨_, s.line.rxq, s.line.tail, rfl, .inr (.inl ⟨h₁, h₁, h₂, rfl, h₂⟩)⟩
    · rename_i h₁ _ n h₂
      refine ⟨_, s.line.rxq, .endless (n + 1), rfl, .inr (.inr ⟨h₁, h₁, n, h₂, rfl⟩)⟩

theorem rxPop_cons {s : State} {e : RxEvent} {q : List RxEvent} (h : s.line.rxq = e :: q) :
    rxPop s = (e, { s with line := { s.line with rxq := q } }) := by simp [rxPop, h]

theorem rxPop_silent {s : State} (h : s.line.rxq = []) (ht : s.line.tail = .silent) :
    rxPop s = (.gap, s) := by simp [rxPop, h, ht]

/-- A read changes only the RX side of the line, takes from its front, and gives at most the bytes asked for. -/
theorem rxRead_cases (n : Nat) : ∀ s : State, ∃ bs q t es,
    rxRead n s = (bs, { s with line := { s.line with rxq := q, tail := t } }) ∧ bs.length ≤ n ∧
    s.line.rxq = es ++ q ∧ (s.line.tail = .silent → t = .silent) := by
  induction n with
  | zero => intro s; exact ⟨[], s.line.rxq, s.line.tail, [], rfl, le_refl _, rfl, id⟩
  | succ n ih =>
    intro s
    obtain ⟨e, q, t, h, hc⟩ := rxPop_cases s
    have hq : ∃ es, s.line.rxq = es ++ q := by
      rcases hc with ⟨h', -⟩ | ⟨h', rfl, -⟩ | ⟨h', rfl, -⟩
      · exact ⟨[e], h'⟩
      · exact ⟨[], h'⟩
      · exact ⟨[], h'⟩
    have ht : s.line.tail = .silent → t = .silent := by
      intro hs
      rcases hc with ⟨-, rfl⟩ | ⟨-, -, -, -, rfl⟩ | ⟨-, -, k, hk, -⟩
      · exact hs
      · rfl
      · simp [hs] at hk
    obtain ⟨es, hes⟩ := hq
    cases e with
    | gap => exact ⟨[], q, t, es, by simp [rxRead, h], by simp, hes, ht⟩
    | byte b =>
      obtain ⟨bs, q', t', es', h', hl, hes', ht'⟩ := ih { s with line := { s.line with rxq := q, tail := t } }
      refine ⟨b :: bs, q', t', es ++ es', by simp [rxRead, h, h'], by simpa using hl, ?_, fun hs => ht' (ht hs)⟩
      rw [hes, List.append_assoc, ← hes']

/-- A read of bytes that the line lists. -/
theorem rxRead_delivered (bs : List Byte) : ∀ (s : State) (rest : List RxEvent),
    s.line.rxq = bs.map RxEvent.byte ++ rest →
    rxRead bs.length s = (bs, { s with line := { s.line with rxq := rest } }) := by
  induction bs with
  | nil => intro s rest h; simp at h; simp [rxRead, ← h]
  | cons b bs ih =>
    intro s rest h
    simp only [List.map_cons, List.cons_append] at h
    simp [rxRead, rxPop_cons h, ih { s with line := { s.line with rxq := bs.map RxEvent.byte ++ rest } } rest rfl]

/-! ### The TX side -/

/-- An offer changes only the TX side of the line and the count of draws, and an accepted byte ends `TXLOG`. -/
theorem txOffer_cases (b : Byte) (s : State) : ∃ ok q d, txOffer b s =
    (ok, { s with
      line := { s.line with txAnswers := q, txlog := s.line.txlog ++ (if ok then [b] else []) }, draws := d }) := by
  unfold txOffer
  split
  · exact ⟨_, _, s.draws, rfl⟩
  · rename_i q _
    exact ⟨false, q, s.draws, by simp⟩
  · split
    · exact ⟨true, s.line.txAnswers, s.draws + 1, rfl⟩
    · exact ⟨false, s.line.txAnswers, s.draws + 1, by simp⟩

/-- A write sends a first part of its bytes, changes only the TX side of the line and the count of draws, and offers no
byte twice. -/
theorem txWrite_cases (bs : List Byte) : ∀ s : State, ∃ k q d, k ≤ bs.length ∧ txWrite bs s =
    (k, { s with line := { s.line with txAnswers := q, txlog := s.line.txlog ++ bs.take k }, draws := d }) := by
  induction bs with
  | nil => intro s; exact ⟨0, s.line.txAnswers, s.draws, le_refl _, by simp [txWrite]⟩
  | cons b bs ih =>
    intro s
    obtain ⟨ok, q, d, h⟩ := txOffer_cases b s
    cases ok with
    | false => exact ⟨0, q, d, by simp, by simp [txWrite, h]⟩
    | true =>
      obtain ⟨k, q', d', hk, h'⟩ := ih { s with
        line := { s.line with txAnswers := q, txlog := s.line.txlog ++ [b] }, draws := d }
      refine ⟨k + 1, q', d', by simpa using hk, ?_⟩
      simp only [if_true] at h
      simp [txWrite, h, h']

/-- A write whose answers the line lists. -/
theorem txWrite_answers (bs : List Byte) : ∀ (s : State) (k : Nat) (q : List Bool), k ≤ bs.length →
    s.line.txAnswers = List.replicate k true ++ (if k < bs.length then false :: q else q) →
    txWrite bs s = (k, { s with line := { s.line with txAnswers := q, txlog := s.line.txlog ++ bs.take k } }) := by
  induction bs with
  | nil =>
    intro s k q hk h
    obtain rfl : k = 0 := by simpa using hk
    simp at h
    simp [txWrite, ← h]
  | cons b bs ih =>
    intro s k q hk h
    cases k with
    | zero =>
      simp at h
      simp [txWrite, txOffer, h]
    | succ k =>
      simp only [List.replicate_succ, List.cons_append, List.length_cons, Nat.add_lt_add_iff_right] at h
      have := ih { s with line := { s.line with
        txAnswers := List.replicate k true ++ (if k < bs.length then false :: q else q)
        txlog := s.line.txlog ++ [b] } } k q (by simpa using hk) rfl
      simp [txWrite, txOffer, h, this]

end Sys2Proof.Machine
end

