-- ==== Sys2Proof/Laws/Frame.lean ====
section
/-! SUPPORT. The frame codec's procedures: everything `synchronize` can do (R133), what it does on the streams of C5 and
R135, and the check and decoding of a frame that is in `FBUF` (R136 to R139). -/

namespace Sys2Proof.Machine

/-! ### `synchronize` -/

/-- `s'` is `s` but for the window and the RX side of the line, from whose front events have been taken. -/
def RxOnly (s s' : State) : Prop :=
  ∃ a b q t es, s' = { s with win0 := a, win1 := b, line := { s.line with rxq := q, tail := t } } ∧
    s.line.rxq = es ++ q ∧ (s.line.tail = .silent → t = .silent)

theorem RxOnly.refl (s : State) : RxOnly s s :=
  ⟨s.win0, s.win1, s.line.rxq, s.line.tail, [], rfl, rfl, id⟩

theorem RxOnly.trans {s t u : State} (h : RxOnly s t) (h' : RxOnly t u) : RxOnly s u := by
  obtain ⟨a, b, q, x, es, rfl, hq, hx⟩ := h
  obtain ⟨a', b', q', x', es', rfl, hq', hx'⟩ := h'
  refine ⟨a', b', q', x', es ++ es', rfl, ?_, fun hs => hx' (hx hs)⟩
  simp only at hq'
  rw [hq, hq', List.append_assoc]

theorem RxOnly.setWin {s t : State} (a b : Byte) (h : RxOnly s t) : RxOnly s { t with win0 := a, win1 := b } := by
  obtain ⟨_, _, q, x, es, rfl, hq, hx⟩ := h
  exact ⟨a, b, q, x, es, rfl, hq, hx⟩

theorem rxPop_rxOnly (s : State) : RxOnly s (rxPop s).2 := by
  obtain ⟨e, q, t, h, hc⟩ := rxPop_cases s
  rw [h]
  rcases hc with ⟨hq, rfl⟩ | ⟨hq, rfl, hs, -, rfl⟩ | ⟨hq, rfl, n, hs, rfl⟩
  · exact ⟨s.win0, s.win1, q, _, [e], rfl, hq, id⟩
  · exact ⟨s.win0, s.win1, [], _, [], rfl, hq, fun _ => rfl⟩
  · exact ⟨s.win0, s.win1, [], _, [], rfl, hq, by simp [hs]⟩

/-- On a line that falls silent, taking a byte leaves fewer events listed. -/
theorem rxPop_byte_silent {s t : State} {b : Byte} (h : rxPop s = (.byte b, t)) (hs : s.line.tail = .silent) :
    t.line.tail = .silent ∧ t.line.rxq.length + 1 = s.line.rxq.length := by
  obtain ⟨e, q, x, h', hc⟩ := rxPop_cases s
  rw [h'] at h
  simp only [Prod.mk.injEq] at h
  obtain ⟨rfl, rfl⟩ := h
  rcases hc with ⟨hq, rfl⟩ | ⟨-, -, -, he, -⟩ | ⟨-, -, n, hn, -⟩
  · exact ⟨hs, by simp [hq]⟩
  · cases he
  · simp [hs] at hn

/-- How a search can end: at a known header; at the end of the stream; or, only where its fuel ran out before the line's
events did, still on. -/
inductive SlideEnds (fuel seen : Nat) (s : State) : Sync → Prop where
  | found (n : Nat) (t : State) (hn : seen ≤ n) (ht : RxOnly s t) (hc : classify t.win0 t.win1 ≠ .unknown) :
    SlideEnds fuel seen s (.found n t)
  | eos (n : Nat) (t : State) (hn : seen ≤ n) (ht : RxOnly s t) : SlideEnds fuel seen s (.eos n t)
  | searching (n : Nat) (t : State) (hn : seen ≤ n) (ht : RxOnly s t) (hc : classify t.win0 t.win1 = .unknown)
    (hf : s.line.tail = .silent → fuel ≤ s.line.rxq.length) : SlideEnds fuel seen s (.searching n t)

theorem slide_ends (fuel : Nat) : ∀ (seen : Nat) (s : State), SlideEnds fuel seen s (slide fuel seen s) := by
  induction fuel with
  | zero =>
    intro seen s
    unfold slide
    split
    · exact .found _ _ (le_refl _) (.refl s) ‹_›
    · exact .searching _ _ (le_refl _) (.refl s) (by simp_all) (by simp)
  | succ fuel ih =>
    intro seen s
    unfold slide
    split
    · exact .found _ _ (le_refl _) (.refl s) ‹_›
    · have hp : RxOnly s (rxPop { s with win0 := s.win1 }).2 :=
        ((RxOnly.refl s).setWin s.win1 s.win1).trans (rxPop_rxOnly _)
      have hlen : ∀ b t, rxPop { s with win0 := s.win1 } = (.byte b, t) → s.line.tail = .silent →
          t.line.tail = .silent ∧ t.line.rxq.length + 1 = s.line.rxq.length :=
        fun b t ht hs => rxPop_byte_silent (s := { s with win0 := s.win1 }) ht hs
      rcases hr : rxPop { s with win0 := s.win1 } with ⟨e, t⟩
      rw [hr] at hp
      cases e with
      | gap => exact .eos _ _ (le_refl _) hp
      | byte b =>
        have hl := hlen b t hr
        have := ih (seen + 1) { t with win1 := b }
        have hp' : RxOnly s { t with win1 := b } := hp.setWin t.win0 b
        revert this
        show SlideEnds fuel (seen + 1) { t with win1 := b } (slide fuel (seen + 1) { t with win1 := b }) →
          SlideEnds (fuel + 1) seen s (slide fuel (seen + 1) { t with win1 := b })
        generalize slide fuel (seen + 1) { t with win1 := b } = r
        intro h
        cases h with
        | found n u hn hu hc => exact .found n u (by omega) (hp'.trans hu) hc
        | eos n u hn hu => exact .eos n u (by omega) (hp'.trans hu)
        | searching n u hn hu hc hf =>
          refine .searching n u (by omega) (hp'.trans hu) hc (fun hs => ?_)
          obtain ⟨h₁, h₂⟩ := hl hs
          have := hf h₁
          simp only at this
          omega

/-- How `synchronize()` can end. On a line that falls silent it never goes on searching. -/
theorem synchronize_cases (s : State) :
    (∃ n t, synchronize s = .found n t ∧ 2 ≤ n ∧ RxOnly s t ∧ classify t.win0 t.win1 ≠ .unknown) ∨
    (∃ n t, synchronize s = .eos n t ∧ RxOnly s t) ∨
    (∃ n t, synchronize s = .searching n t ∧ 2 ≤ n ∧ RxOnly s t ∧ classify t.win0 t.win1 = .unknown ∧
      s.line.tail ≠ .silent) := by
  have h₁ := rxPop_rxOnly s
  unfold synchronize
  rcases hr : rxPop s with ⟨e, t⟩
  rw [hr] at h₁
  cases e with
  | gap => exact .inr (.inl ⟨0, t, rfl, h₁⟩)
  | byte b =>
    have h₂ := h₁.trans (((RxOnly.refl t).setWin b t.win1).trans (rxPop_rxOnly _))
    have hs₁ := rxPop_byte_silent hr
    simp only at h₂ ⊢
    rcases hr' : rxPop { t with win0 := b } with ⟨e, u⟩
    rw [hr'] at h₂
    cases e with
    | gap => exact .inr (.inl ⟨1, u, rfl, h₂⟩)
    | byte c =>
      have hs₂ := rxPop_byte_silent hr'
      have h₃ : RxOnly s { u with win1 := c } := h₂.setWin u.win0 c
      have := slide_ends (u.line.rxq.length + 1) 2 { u with win1 := c }
      simp only at this ⊢
      revert this
      generalize slide (u.line.rxq.length + 1) 2 { u with win1 := c } = r
      intro h
      cases h with
      | found n v hn hv hc => exact .inl ⟨n, v, rfl, hn, h₃.trans hv, hc⟩
      | eos n v hn hv => exact .inr (.inl ⟨n, v, rfl, h₃.trans hv⟩)
      | searching n v hn hv hc hf =>
        refine .inr (.inr ⟨n, v, rfl, hn, h₃.trans hv, hc, fun hs => ?_⟩)
        have := hf (hs₂ (hs₁ hs).1).1
        simp only at this
        omega

/-! ### The streams of C5 and R135 -/

@[simp] theorem delivered_nil : delivered [] = [] := rfl
@[simp] theorem delivered_cons (b : Byte) (bs : List Byte) : delivered (b :: bs) = .byte b :: delivered bs := rfl
@[simp] theorem delivered_append (bs cs : List Byte) : delivered (bs ++ cs) = delivered bs ++ delivered cs := by
  simp [delivered]

theorem noHeader_cons_cons (a b : Byte) (bs : List Byte) :
    noHeader (a :: b :: bs) = true ↔ classify a b = .unknown ∧ noHeader (b :: bs) = true := by
  simp [noHeader]

theorem noHeader_tail {a : Byte} {bs : List Byte} (h : noHeader (a :: bs) = true) : noHeader bs = true := by
  cases bs with
  | nil => rfl
  | cons b bs => exact ((noHeader_cons_cons a b bs).1 h).2

/-- With the window holding the first two bytes of `g ++ [h0, h1]` and the line delivering the others, the search stops at
the header `h0 h1`. -/
theorem slide_found (bs : List Byte) : ∀ (g : List Byte) (h0 h1 : Byte) (s : State) (rest : List RxEvent)
    (fuel seen : Nat), s.win0 :: s.win1 :: bs = g ++ [h0, h1] → noHeader (g ++ [h0]) = true →
    classify h0 h1 ≠ .unknown → s.line.rxq = delivered bs ++ rest → bs.length ≤ fuel →
    slide fuel seen s = .found (seen + bs.length)
      { s with win0 := h0, win1 := h1, line := { s.line with rxq := rest } } := by
  induction bs with
  | nil =>
    intro g h0 h1 s rest fuel seen hw hg hk hq hf
    obtain rfl : g = [] := by
      have := congrArg List.length hw
      simp at this
      exact this
    simp only [List.nil_append, List.cons.injEq, and_true] at hw
    obtain ⟨rfl, rfl⟩ := hw
    simp only [delivered_nil, List.nil_append] at hq
    unfold slide
    simp [hk, ← hq]
  | cons b bs ih =>
    intro g h0 h1 s rest fuel seen hw hg hk hq hf
    cases g with
    | nil => have := congrArg List.length hw; simp at this
    | cons a g =>
      simp only [List.cons_append, List.cons.injEq] at hw
      obtain ⟨ha, hw⟩ := hw
      have hg' : noHeader (g ++ [h0]) = true := noHeader_tail hg
      have hu : classify s.win0 s.win1 = .unknown := by
        cases g with
        | nil =>
          simp only [List.nil_append, List.cons.injEq] at hw
          simp only [List.cons_append, List.nil_append] at hg
          rw [ha, hw.1]
          exact ((noHeader_cons_cons _ _ _).1 hg).1
        | cons c g =>
          simp only [List.cons_append, List.cons.injEq] at hw
          simp only [List.cons_append] at hg
          rw [ha, hw.1]
          exact ((noHeader_cons_cons _ _ _).1 hg).1
      obtain ⟨fuel, rfl⟩ : ∃ n, fuel = n + 1 := ⟨fuel - 1, by simp at hf; omega⟩
      have hp : rxPop { s with win0 := s.win1 } =
          (.byte b, { s with win0 := s.win1, line := { s.line with rxq := delivered bs ++ rest } }) :=
        rxPop_cons (by simpa using hq)
      have := ih g h0 h1
        { s with win0 := s.win1, win1 := b, line := { s.line with rxq := delivered bs ++ rest } } rest fuel (seen + 1)
        hw hg' hk rfl (by simpa using hf)
      unfold slide
      simp only [hu, ne_eq, not_true_eq_false, if_false, hp, this]
      rw [show seen + (b :: bs).length = seen + 1 + bs.length by simp only [List.length_cons]; omega]

theorem rxPop_fallsSilent {s : State} {rest : List RxEvent} (h : FallsSilent [] rest s.line) :
    rxPop s = (.gap, { s with line := { s.line with rxq := rest } }) := by
  rcases h with h | ⟨h, ht, rfl⟩
  · exact rxPop_cons h
  · rw [rxPop_silent h ht]
    simp only [delivered_nil] at h
    simp [← h]

theorem fallsSilent_cons {s : State} {b : Byte} {bs : List Byte} {rest : List RxEvent}
    (h : FallsSilent (b :: bs) rest s.line) : ∃ q, rxPop s = (.byte b, { s with line := { s.line with rxq := q } }) ∧
      FallsSilent bs rest { s.line with rxq := q } := by
  rcases h with h | ⟨h, ht, rfl⟩
  · exact ⟨_, rxPop_cons h, .inl rfl⟩
  · exact ⟨_, rxPop_cons h, .inr ⟨rfl, ht, rfl⟩⟩

/-- A read that a silence cuts short. -/
theorem rxRead_short (bs : List Byte) : ∀ (n : Nat) (s : State) (rest : List RxEvent), bs.length < n →
    FallsSilent bs rest s.line → rxRead n s = (bs, { s with line := { s.line with rxq := rest } }) := by
  induction bs with
  | nil =>
    intro n s rest hn h
    obtain ⟨m, rfl⟩ := Nat.exists_eq_add_of_lt hn
    simp [rxRead, rxPop_fallsSilent h]
  | cons b bs ih =>
    intro n s rest hn h
    obtain ⟨m, rfl⟩ : ∃ m, n = m + 1 := ⟨n - 1, by omega⟩
    obtain ⟨q, hp, he⟩ := fallsSilent_cons h
    simp [rxRead, hp, ih m { s with line := { s.line with rxq := q } } rest (by simpa using hn) he]

/-- A line that delivers `xs ++ ys` and falls silent does so after `xs` too. -/
theorem fallsSilent_append {xs ys : List Byte} {rest : List RxEvent} {l : Line} (h : FallsSilent (xs ++ ys) rest l) :
    ∃ q, l.rxq = delivered xs ++ q ∧ FallsSilent ys rest { l with rxq := q } := by
  rcases h with h | ⟨h, ht, rfl⟩
  · exact ⟨delivered ys ++ .gap :: rest, by simp [h, delivered], .inl rfl⟩
  · exact ⟨delivered ys, by simp [h, delivered], .inr ⟨rfl, ht, rfl⟩⟩

/-- Where no known header comes before the stream ends, the search ends having counted every byte. -/
theorem slide_eos (bs : List Byte) : ∀ (s : State) (rest : List RxEvent) (fuel seen : Nat),
    noHeader (s.win0 :: s.win1 :: bs) = true → FallsSilent bs rest s.line → bs.length < fuel →
    ∃ a b, slide fuel seen s = .eos (seen + bs.length)
      { s with win0 := a, win1 := b, line := { s.line with rxq := rest } } := by
  induction bs with
  | nil =>
    intro s rest fuel seen hg hq hf
    obtain ⟨fuel, rfl⟩ : ∃ n, fuel = n + 1 := ⟨fuel - 1, by simp at hf; omega⟩
    have hu := ((noHeader_cons_cons _ _ _).1 hg).1
    have hp := rxPop_fallsSilent (s := { s with win0 := s.win1 }) hq
    refine ⟨s.win1, s.win1, ?_⟩
    unfold slide
    simp [hu, hp]
  | cons b bs ih =>
    intro s rest fuel seen hg hq hf
    obtain ⟨fuel, rfl⟩ : ∃ n, fuel = n + 1 := ⟨fuel - 1, by simp at hf; omega⟩
    obtain ⟨hu, hg'⟩ := (noHeader_cons_cons _ _ _).1 hg
    obtain ⟨q, hp, he⟩ := fallsSilent_cons (s := { s with win0 := s.win1 }) hq
    obtain ⟨a, c, h⟩ := ih { s with win0 := s.win1, win1 := b, line := { s.line with rxq := q } } rest fuel (seen + 1)
      hg' he (by simpa using hf)
    refine ⟨a, c, ?_⟩
    unfold slide
    simp only [hu, ne_eq, not_true_eq_false, if_false, hp, h]
    rw [show seen + (b :: bs).length = seen + 1 + bs.length by simp only [List.length_cons]; omega]

/-- C5, R133: garbage without a known header pair, then a header. -/
theorem synchronize_found (g : List Byte) (h0 h1 : Byte) (s : State) (rest : List RxEvent)
    (hg : noHeader (g ++ [h0]) = true) (hk : classify h0 h1 ≠ .unknown)
    (hq : s.line.rxq = delivered (g ++ [h0, h1]) ++ rest) :
    synchronize s = .found (g.length + 2)
      { s with win0 := h0, win1 := h1, line := { s.line with rxq := rest } } := by
  obtain ⟨a, b, bs, hb⟩ : ∃ a b bs, g ++ [h0, h1] = a :: b :: bs := by
    rcases g with _ | ⟨a, _ | ⟨b, g⟩⟩ <;> simp
  rw [hb] at hq
  simp only [delivered_cons, List.cons_append] at hq
  have hlen : bs.length = g.length := by
    have := congrArg List.length hb
    simp at this
    omega
  have hs := slide_found bs g h0 h1
    { s with win0 := a, win1 := b, line := { s.line with rxq := delivered bs ++ rest } } rest
    ((delivered bs ++ rest).length + 1) 2 hb.symm hg hk rfl (by simp [delivered]; omega)
  unfold synchronize
  rw [rxPop_cons hq]
  simp only
  rw [rxPop_cons (s := { s with
    win0 := a, line := { s.line with rxq := .byte b :: (delivered bs ++ rest) } }) rfl]
  simp only [hs, hlen]
  rw [Nat.add_comm]

/-- R135: no known header before the stream ends. -/
theorem synchronize_eos (g : List Byte) (s : State) (rest : List RxEvent) (hg : noHeader g = true)
    (hq : FallsSilent g rest s.line) : ∃ a b, synchronize s = .eos g.length
      { s with win0 := a, win1 := b, line := { s.line with rxq := rest } } := by
  unfold synchronize
  cases g with
  | nil => exact ⟨s.win0, s.win1, by rw [rxPop_fallsSilent hq]; rfl⟩
  | cons x g =>
    obtain ⟨q, hp, he⟩ := fallsSilent_cons hq
    rw [hp]
    simp only
    cases g with
    | nil =>
      refine ⟨x, s.win1, ?_⟩
      rw [rxPop_fallsSilent he]
      rfl
    | cons y g =>
      obtain ⟨q', hp', he'⟩ := fallsSilent_cons (s := { s with win0 := x, line := { s.line with rxq := q } }) he
      simp only at hp'
      have hlen : g.length < q'.length + 1 := by
        rcases he' with h | ⟨h, -⟩
        · simp only at h
          simp [h, delivered]
        · simp only at h
          simp [h, delivered]
      obtain ⟨a, b, h⟩ := slide_eos g { s with win0 := x, win1 := y, line := { s.line with rxq := q' } } rest
        (q'.length + 1) 2 hg he' hlen
      refine ⟨a, b, ?_⟩
      rw [hp']
      simp only [h]
      rw [show (x :: y :: g).length = 2 + g.length by simp only [List.length_cons]; omega]

/-! ### A frame in `FBUF` -/

/-- The frame check of a frame that is in `FBUF` (R138). -/
theorem checkFrame_listed (f : List Byte) (s : State) (hl : 2 ≤ f.length)
    (h : ∀ k, k < f.length → Memory.get? s.fbuf k = f[k]?) :
    checkFrame f.length s = { s with
      crc := crc16 (frameCovered f)
      status := { s.status with crcChk := true, crcErr := frameBad f } } := by
  have hr : fbufRange 0 (f.length - 2) s = (f.take (f.length - 2), s) := by
    have hlen : (f.take (f.length - 2)).length = f.length - 2 := by simp
    conv_lhs => rw [← hlen]
    refine fbufRange_listed _ 0 s (fun k hk => ?_)
    rw [hlen] at hk
    rw [Nat.zero_add, h k (by omega), List.getElem?_take_of_lt hk]
  obtain ⟨lo, hlo⟩ : ∃ b, f[f.length - 2]? = some b := ⟨_, List.getElem?_eq_getElem (by omega)⟩
  obtain ⟨hi, hhi⟩ : ∃ b, f[f.length - 1]? = some b := ⟨_, List.getElem?_eq_getElem (by omega)⟩
  have h₁ : fbufRead (f.length - 2) s = (lo, s) := fbufRead_listed (by rw [h _ (by omega), hlo])
  have h₂ : fbufRead (f.length - 1) s = (hi, s) := fbufRead_listed (by rw [h _ (by omega), hhi])
  have hd : f.drop (f.length - 2) = [lo, hi] := by
    apply List.ext_getElem?
    intro k
    rw [List.getElem?_drop]
    match k with
    | 0 => simpa using hlo
    | 1 =>
      have : f.length - 2 + 1 = f.length - 1 := by omega
      rw [this, hhi]
      rfl
    | k + 2 =>
      rw [List.getElem?_eq_none (by omega)]
      rfl
  have hb : frameBad f = crcMismatch (crc16 (frameCovered f)) lo hi := by
    rw [Bool.eq_iff_iff]
    simp [frameBad, hd, crcWire, crcMismatch]
    tauto
  simp [checkFrame, hr, h₁, h₂, setCrcFlags, hb, frameCovered]

/-- The response value of a frame that is in `FBUF` (R139). -/
theorem respValue_listed (f : List Byte) (s : State) (h : ∀ k, k < f.length → Memory.get? s.fbuf k = f[k]?) :
    respValue f.length s = (frameValue f, s) := by
  have hr : ∀ k, k < f.length → fbufRead k s = (f.getD k 0, s) := fun k hk =>
    fbufRead_listed (by rw [h k hk, List.getElem?_eq_getElem hk, List.getD_eq_getElem _ _ hk])
  unfold respValue frameValue
  split
  · rw [hr _ (by omega)]
    simp only
    rw [hr _ (by omega)]
    rfl
  · split
    · rw [hr _ (by omega)]
    · rfl

/-- The end of `read_frame` for a frame that is in `FBUF` (R136 to R139). -/
theorem deliver_listed (f : List Byte) (s : State) (hl : 2 ≤ f.length)
    (h : ∀ k, k < f.length → Memory.get? s.fbuf k = f[k]?) :
    deliver f.length s = { s with
      crc := crc16 (frameCovered f)
      status := { s.status with crcChk := true, crcErr := frameBad f }
      payLen := BitVec.ofNat 16 (f.length - 5)
      respVal := frameValue f } := by
  unfold deliver
  rw [checkFrame_listed f s hl h, respValue_listed f]
  exact h

end Sys2Proof.Machine
end

