-- ==== Sys2Proof/Laws/Step.lean ====
section
/-! SUPPORT. What a step does for each action at the block's inputs, what the register map lists, and how a command is
issued: the lemmas that later proofs cite instead of unfolding `step`, `exec` and `issue`. -/

namespace Sys2Proof.Machine

/-! ### One lemma per action -/

variable {s : State} {rest : List BusAction} {a : Offset} {v : Word}

theorem step_nil (h : s.host.bus = []) : step s = .next (seqMove s) := by
  simp only [step, machineStep, h]

theorem step_read (h : s.host.bus = .read a :: rest) : step s = .next (hostRead a (popAction rest s)) := by
  simp only [step, machineStep, h, takeAction]

theorem step_write_cmd (h : s.host.bus = .write a v :: rest) (ha : regAt a = some .cmd) :
    step s = issueWord v (driveData v (popAction rest s)) := by
  simp only [step, machineStep, h, takeAction, ha, if_true]

theorem step_write_store (h : s.host.bus = .write a v :: rest) (ha : regAt a ≠ some .cmd) :
    step s = .next (hostStore a v (driveData v (popAction rest s))) := by
  simp only [step, machineStep, h, takeAction, ha, if_false]

theorem step_racing_cmd (h : s.host.bus = .writeRacing a v :: rest) (ha : regAt a = some .cmd) :
    step s = .next (issueWordRacing v (driveData v (popAction rest s))) := by
  simp only [step, machineStep, h, takeAction, ha, if_true]

theorem step_racing_store (h : s.host.bus = .writeRacing a v :: rest) (ha : regAt a ≠ some .cmd) :
    step s = .next (hostStore a v (driveData v (popAction rest s))) := by
  simp only [step, machineStep, h, takeAction, ha, if_false]

theorem step_tick (h : s.host.bus = .tick :: rest) : step s = .next (seqMove (popAction rest s)) := by
  simp only [step, machineStep, h, takeAction]

theorem step_wait_done (h : s.host.bus = .wait :: rest) (hd : s.status.done = true) :
    step s = .next (popAction rest s) := by
  simp only [step, machineStep, h, takeAction, hd, if_true]

theorem step_wait_busy (h : s.host.bus = .wait :: rest) (hd : s.status.done = false) :
    step s = .next (seqMove s) := by
  simp only [step, machineStep, h, takeAction, hd, Bool.false_eq_true, if_false]

theorem step_rst {level : Bool} (h : s.host.bus = .rst level :: rest) :
    step s = .next { blockReset (popAction rest s) with rst := level } := by
  simp only [step, machineStep, h, takeAction]

/-! ### The register map (R61 to R63) -/

/-- The offset an access acts on is the one below it that is a multiple of 4 (R61). -/
theorem wordOffset_eq (a : Offset) : wordOffset a = a.toNat / 4 * 4 := by
  have h : ∀ n : Nat, n < 4096 → n &&& 0xFFC = n / 4 * 4 := by
    intro n hn
    apply Nat.eq_of_testBit_eq
    intro k
    rw [show n / 4 * 4 = (n >>> 2) <<< 2 by rw [Nat.shiftRight_eq_div_pow, Nat.shiftLeft_eq], Nat.testBit_and,
      Nat.testBit_shiftLeft, Nat.testBit_shiftRight]
    by_cases hk : k < 12
    · interval_cases k <;> simp [Nat.testBit]
    · have hb : n.testBit k = false :=
        Nat.testBit_lt_two_pow (lt_of_lt_of_le hn (show 2 ^ 12 ≤ 2 ^ k from Nat.pow_le_pow_right (by omega) (by omega)))
      rw [hb, show 2 + (k - 2) = k by omega, hb]
      simp
  have hn := a.isLt
  simpa [wordOffset] using h a.toNat (by simpa using hn)

theorem wordOffset_eq_iff (a : Offset) (n : Nat) (hn : n < 4096) :
    wordOffset a = n ↔ a &&& 0xFFC = BitVec.ofNat 12 n := by
  unfold wordOffset
  rw [← BitVec.toNat_inj, BitVec.toNat_ofNat, Nat.mod_eq_of_lt (by simpa using hn)]

/-- R61: the low bits of an offset do not matter. -/
theorem regAt_masked (a : Offset) : regAt (a &&& 0xFFC) = regAt a := by
  have : wordOffset (a &&& 0xFFC) = wordOffset a := by
    unfold wordOffset
    rw [BitVec.and_assoc]
    rfl
  unfold regAt
  rw [this]

/-- What a lookup in the map says, entry by entry (R63). -/
theorem regAt_eq_some (a : Offset) (r : Reg) (h : ∀ j, r ≠ .fbuf j) :
    regAt a = some r ↔ (wordOffset a, r) ∈ regMap := by
  unfold regAt
  generalize wordOffset a = n
  split
  · rename_i hn
    have hm : (n, r) ∉ regMap := by
      simp only [regMap, List.mem_cons, Prod.mk.injEq, List.not_mem_nil, or_false]
      omega
    simp only [Option.some.injEq, hm, iff_false]
    exact fun e => h _ e.symm
  · simp only [regMap, List.lookup_cons, List.lookup_nil, List.mem_cons, Prod.mk.injEq, List.not_mem_nil, or_false]
    constructor
    · intro hl
      repeat' split at hl
      all_goals simp_all
    · intro hl
      rcases r <;> simp_all

/-- `CMD` is at 0x008 and nowhere else (R63). -/
theorem regAt_eq_cmd (a : Offset) : regAt a = some .cmd ↔ a &&& 0xFFC = 0x008 := by
  rw [regAt_eq_some a _ (by simp), show (0x008 : Offset) = BitVec.ofNat 12 0x008 from rfl,
    ← wordOffset_eq_iff a _ (by omega)]
  simp [regMap]

/-- `CTRL` is at 0x004 and nowhere else (R63). -/
theorem regAt_eq_ctrl (a : Offset) : regAt a = some .ctrl ↔ a &&& 0xFFC = 0x004 := by
  rw [regAt_eq_some a _ (by simp), show (0x004 : Offset) = BitVec.ofNat 12 0x004 from rfl,
    ← wordOffset_eq_iff a _ (by omega)]
  simp [regMap]

/-- `STATUS` is at 0x00C and nowhere else (R63). -/
theorem regAt_eq_status (a : Offset) : regAt a = some .status ↔ a &&& 0xFFC = 0x00C := by
  rw [regAt_eq_some a _ (by simp), show (0x00C : Offset) = BitVec.ofNat 12 0x00C from rfl,
    ← wordOffset_eq_iff a _ (by omega)]
  simp [regMap]

/-- `ID` is at 0x000 and nowhere else (R63). -/
theorem regAt_eq_id (a : Offset) : regAt a = some .id ↔ a &&& 0xFFC = 0x000 := by
  rw [regAt_eq_some a _ (by simp), show (0x000 : Offset) = BitVec.ofNat 12 0x000 from rfl,
    ← wordOffset_eq_iff a _ (by omega)]
  simp [regMap]

/-- `BUF_LEN` is at 0x014 and nowhere else (R63). -/
theorem regAt_eq_bufLen (a : Offset) : regAt a = some .bufLen ↔ a &&& 0xFFC = 0x014 := by
  rw [regAt_eq_some a _ (by simp), show (0x014 : Offset) = BitVec.ofNat 12 0x014 from rfl,
    ← wordOffset_eq_iff a _ (by omega)]
  simp [regMap]

/-- `EXP_LEN` is at 0x018 and nowhere else (R63). -/
theorem regAt_eq_expLen (a : Offset) : regAt a = some .expLen ↔ a &&& 0xFFC = 0x018 := by
  rw [regAt_eq_some a _ (by simp), show (0x018 : Offset) = BitVec.ofNat 12 0x018 from rfl,
    ← wordOffset_eq_iff a _ (by omega)]
  simp [regMap]

/-- R63: the unmapped ranges. -/
theorem regAt_unmapped (a : Offset) (h : (0x044 ≤ a.toNat ∧ a.toNat ≤ 0x1FF) ∨ 0x400 ≤ a.toNat) : regAt a = none := by
  unfold regAt
  have hn := wordOffset_eq a
  generalize wordOffset a = n at hn
  rw [if_neg (by omega)]
  simp only [regMap, List.lookup_cons, List.lookup_nil]
  have hne : ∀ k, k ≤ 0x040 → (n == k) = false := by
    intro k hk
    simp only [beq_eq_false_iff_ne, ne_eq]
    omega
  simp [hne]

/-- R66: the `FBUF` window. -/
theorem regAt_fbuf (j : Nat) (hj : j < 128) : regAt (BitVec.ofNat 12 (0x200 + 4 * j)) = some (.fbuf j) := by
  unfold regAt
  rw [wordOffset_eq, BitVec.toNat_ofNat, Nat.mod_eq_of_lt (by omega), if_pos (by omega)]
  congr 2
  omega

/-! ### Host accesses -/

/-- A host read changes the reads and the count of draws, and nothing else. -/
theorem hostRead_cases (a : Offset) (s : State) : ∃ w d,
    hostRead a s = { s with host := { s.host with reads := s.host.reads ++ [w] }, draws := d } := by
  have hd : ∀ t : State, ∃ w d, logRead (drawWord t) =
      { t with host := { t.host with reads := t.host.reads ++ [w] }, draws := d } := fun t => ⟨_, _, rfl⟩
  have hn : ∀ (w : Word) (t : State), ∃ w' d, logRead (w, t) =
      { t with host := { t.host with reads := t.host.reads ++ [w'] }, draws := d } := fun w t => ⟨w, t.draws, rfl⟩
  unfold hostRead
  split
  · exact hd s
  · split
    · exact hn 0 s
    · split
      · exact hd s
      · rename_i r _ _
        cases r <;> first
          | exact hn _ s
          | (rename_i j _ _
             obtain ⟨b0, d0, h0, -⟩ := fbufRead_cases (4 * j) s
             obtain ⟨b1, d1, h1, -⟩ := fbufRead_cases (4 * j + 1) { s with draws := d0 }
             obtain ⟨b2, d2, h2, -⟩ := fbufRead_cases (4 * j + 2) { s with draws := d1 }
             obtain ⟨b3, d3, h3, -⟩ := fbufRead_cases (4 * j + 3) { s with draws := d2 }
             simp only [regRead, fbufReadWord, h0, h1, h2, h3]
             exact ⟨_, d3, rfl⟩)

/-- A host write that is no command changes only what the host may write: `CTRL`, the W1C bits, `CRC`, `BUF_LEN`, `EXP_LEN`,
`REQ` and `FBUF`. -/
theorem hostStore_cases (a : Offset) (v : Word) (s : State) : ∃ i t c n l r m,
    hostStore a v s =
      { s with ie := i, status := t, crc := c, bufLen := n, expLen := l, req := r, fbuf := m } ∧
    (i = s.ie ∨ regAt a = some .ctrl) ∧
    (t = s.status ∨ regAt a = some .status ∧ t = s.status.writeOneToClear v) ∧
    (n = s.bufLen ∨ regAt a = some .bufLen) ∧ (l = s.expLen ∨ regAt a = some .expLen) ∧
    (Memory.wf s.fbuf → Memory.wf m) ∧
    (s.rst = true → hostStore a v s = s) ∧
    (s.status.busy = true → c = s.crc ∧ n = s.bufLen ∧ l = s.expLen ∧ r = s.req ∧ m = s.fbuf) := by
  have hs : ∀ t : State, t = s → ∃ i t' c n l r m, t =
        { s with ie := i, status := t', crc := c, bufLen := n, expLen := l, req := r, fbuf := m } ∧
      (i = s.ie ∨ regAt a = some .ctrl) ∧
      (t' = s.status ∨ regAt a = some .status ∧ t' = s.status.writeOneToClear v) ∧
      (n = s.bufLen ∨ regAt a = some .bufLen) ∧ (l = s.expLen ∨ regAt a = some .expLen) ∧
      (Memory.wf s.fbuf → Memory.wf m) ∧ (s.rst = true → t = s) ∧
      (s.status.busy = true → c = s.crc ∧ n = s.bufLen ∧ l = s.expLen ∧ r = s.req ∧ m = s.fbuf) := by
    rintro t rfl
    exact ⟨t.ie, t.status, t.crc, t.bufLen, t.expLen, t.req, t.fbuf, rfl, .inl rfl, .inl rfl, .inl rfl, .inl rfl, id,
      fun _ => rfl, fun _ => ⟨rfl, rfl, rfl, rfl, rfl⟩⟩
  unfold hostStore
  split
  · exact hs s rfl
  · rename_i hr
    split
    · exact hs s rfl
    · rename_i r hreg
      split
      · exact hs s rfl
      · rename_i hb
        have hb' : s.status.busy = true → r.writableWhileBusy = true := by
          intro h
          simpa [h] using hb
        have hr' : s.rst = true → False := fun h => hr h
        cases r <;> first
          | exact hs s rfl
          | skip
        case ctrl =>
          exact ⟨_, s.status, s.crc, s.bufLen, s.expLen, s.req, s.fbuf, rfl, .inr hreg, .inl rfl, .inl rfl, .inl rfl, id,
            fun h => (hr' h).elim, fun _ => ⟨rfl, rfl, rfl, rfl, rfl⟩⟩
        case status =>
          exact ⟨s.ie, _, s.crc, s.bufLen, s.expLen, s.req, s.fbuf, rfl, .inl rfl, .inr ⟨hreg, rfl⟩, .inl rfl, .inl rfl, id,
            fun h => (hr' h).elim, fun _ => ⟨rfl, rfl, rfl, rfl, rfl⟩⟩
        case crc =>
          exact ⟨s.ie, s.status, _, s.bufLen, s.expLen, s.req, s.fbuf, rfl, .inl rfl, .inl rfl, .inl rfl, .inl rfl, id,
            fun h => (hr' h).elim, fun h => absurd (hb' h) (by decide)⟩
        case bufLen =>
          exact ⟨s.ie, s.status, s.crc, _, s.expLen, s.req, s.fbuf, rfl, .inl rfl, .inl rfl, .inr hreg, .inl rfl, id,
            fun h => (hr' h).elim, fun h => absurd (hb' h) (by decide)⟩
        case expLen =>
          exact ⟨s.ie, s.status, s.crc, s.bufLen, _, s.req, s.fbuf, rfl, .inl rfl, .inl rfl, .inl rfl, .inr hreg, id,
            fun h => (hr' h).elim, fun h => absurd (hb' h) (by decide)⟩
        case reqLo =>
          exact ⟨s.ie, s.status, s.crc, s.bufLen, s.expLen, _, s.fbuf, rfl, .inl rfl, .inl rfl, .inl rfl, .inl rfl, id,
            fun h => (hr' h).elim, fun h => absurd (hb' h) (by decide)⟩
        case reqHi =>
          exact ⟨s.ie, s.status, s.crc, s.bufLen, s.expLen, _, s.fbuf, rfl, .inl rfl, .inl rfl, .inl rfl, .inl rfl, id,
            fun h => (hr' h).elim, fun h => absurd (hb' h) (by decide)⟩
        case fbuf j =>
          refine ⟨s.ie, s.status, s.crc, s.bufLen, s.expLen, s.req, _, fbufStore_eq _ _ s, .inl rfl, .inl rfl, .inl rfl,
            .inl rfl, fun h => fbufStore_wf _ _ s h, fun h => (hr' h).elim, fun h => absurd (hb' h) (by simp [Reg.writableWhileBusy])⟩

/-- A host write that the block acts on is the register's write (R65, R71). -/
theorem hostStore_mapped {a : Offset} {v : Word} {r : Reg} {s : State} (hs : s.rst = false) (ha : regAt a = some r)
    (hb : s.status.busy = false ∨ r.writableWhileBusy = true) : hostStore a v s = regWrite r v s := by
  unfold hostStore
  rw [hs, ha]
  rcases hb with hb | hb
  · rw [hb]; rfl
  · simp only [hb, Bool.not_true, Bool.and_false, Bool.false_eq_true, if_false]

/-- A host write to any other register while a command runs (R71). -/
theorem hostStore_ignored {a : Offset} {v : Word} {r : Reg} {s : State} (ha : regAt a = some r)
    (hb : s.status.busy = true) (hw : r.writableWhileBusy = false) : hostStore a v s = s := by
  unfold hostStore
  rw [ha]
  simp only [hb, hw, Bool.not_false, Bool.and_self, if_true, ite_self]

/-- A host write to an unmapped offset (R62). -/
theorem hostStore_unmapped {a : Offset} {v : Word} {s : State} (ha : regAt a = none) : hostStore a v s = s := by
  unfold hostStore
  rw [ha]
  simp only [ite_self]

/-- A host read that gives the register's value (R64, R71). -/
theorem hostRead_mapped {a : Offset} {r : Reg} {s : State} (hs : s.rst = false) (ha : regAt a = some r)
    (hb : s.status.busy = false ∨ r.readableWhileBusy = true) : hostRead a s = logRead (regRead r s) := by
  unfold hostRead
  rw [hs, ha]
  rcases hb with hb | hb
  · rw [hb]; rfl
  · simp only [hb, Bool.not_true, Bool.and_false, Bool.false_eq_true, if_false]

/-- A host read of an unmapped offset (R62). -/
theorem hostRead_unmapped {a : Offset} {s : State} (hs : s.rst = false) (ha : regAt a = none) :
    hostRead a s = logRead (0, s) := by
  unfold hostRead
  rw [hs, ha]
  rfl

/-- The four byte lanes of a word make the word (R66). -/
theorem packWord_lanes (v : Word) :
    packWord (byteLane v 0) (byteLane v 1) (byteLane v 2) (byteLane v 3) = v := by
  unfold packWord byteLane
  apply BitVec.eq_of_getLsbD_eq
  intro i hi
  interval_cases i <;> simp only [BitVec.getLsbD_append, BitVec.getLsbD_extractLsb'] <;> rfl

/-- A word of `FBUF` whose bytes have been written. -/
theorem fbufReadWord_listed {j : Nat} {v : Word} {s : State}
    (h : ∀ k, k < 4 → Memory.get? s.fbuf (4 * j + k) = some (byteLane v k)) : fbufReadWord j s = (v, s) := by
  have h' := fun k hk => fbufRead_listed (h k hk)
  have h0 := h' 0 (by omega)
  rw [Nat.add_zero] at h0
  simp only [fbufReadWord, h0, h' 1 (by omega), h' 2 (by omega), h' 3 (by omega), packWord_lanes]

/-! ### Issue (R216) -/

section Issue

variable {touches : Bool} {p : SeqPoint} {body : State → Flow}

theorem issue_inReset (h : s.rst = true) : issue touches p body s = s := by
  simp only [issue, h, if_true]

theorem issue_busy (hr : s.rst = false) (hb : s.status.busy = true) : issue touches p body s = collide s := by
  simp only [issue, hr, hb, Bool.false_eq_true, if_false, if_true]

theorem issue_locked (hs : Ready s) (ht : touches = true) (hf : s.status.fatal = true) :
    issue touches p body s = completeAtOnce .locked s := by
  simp only [issue, hs.1, hs.2, ht, hf, Bool.and_self, Bool.false_eq_true, if_false, if_true]

/-- A command that is taken runs its pseudocode from acceptance. -/
theorem issue_taken (hs : Ready s) (ht : touches = false ∨ s.status.fatal = false) :
    issue touches p body s = (body (accept p s)).close := by
  have : (touches && s.status.fatal) = false := by rcases ht with h | h <;> simp [h]
  simp only [issue, hs.1, hs.2, this, Bool.false_eq_true, if_false]

/-- Everything an issue can do. -/
theorem issue_cases (touches : Bool) (p : SeqPoint) (body : State → Flow) (s : State) :
    (s.rst = true ∧ issue touches p body s = s) ∨
    (s.rst = false ∧ s.status.busy = true ∧ issue touches p body s = collide s) ∨
    (Ready s ∧ touches = true ∧ s.status.fatal = true ∧ issue touches p body s = completeAtOnce .locked s) ∨
    (Ready s ∧ (touches = true → s.status.fatal = false) ∧
      issue touches p body s = (body (accept p s)).close) := by
  cases hr : s.rst with
  | true => exact .inl ⟨rfl, issue_inReset hr⟩
  | false =>
    cases hb : s.status.busy with
    | true => exact .inr (.inl ⟨rfl, rfl, issue_busy hr hb⟩)
    | false =>
      cases ht : touches && s.status.fatal with
      | true =>
        simp only [Bool.and_eq_true] at ht
        exact .inr (.inr (.inl ⟨⟨hr, hb⟩, ht.1, ht.2, issue_locked ⟨hr, hb⟩ ht.1 ht.2⟩))
      | false =>
        have : touches = true → s.status.fatal = false := by
          intro h
          simpa [h] using ht
        refine .inr (.inr (.inr ⟨⟨hr, hb⟩, this, issue_taken ⟨hr, hb⟩ ?_⟩))
        cases touches
        · exact .inl rfl
        · exact .inr (this rfl)

end Issue

/-- The pseudocode of a command from its acceptance on, as the atomic view runs it (R72). -/
def commandBody : Instr → State → Flow
  | .nop => nopBody
  | .crci => crciBody
  | .crcb imm8 => crcbBody (immByte imm8)
  | .crcg => crcgBody
  | .crcv => crcvBody
  | .hdrc => hdrcBody
  | .enc => encBody
  | .send => sendBody
  | .sync => syncBody
  | .rdf => rdfBody
  | .exec noresp lovr => execBody noresp lovr
  | .hsk => hskBody
  | .pace => paceBody

/-- Every meaning is the issue of its command's pseudocode. -/
theorem exec_eq_issue (i : Instr) (s : State) :
    exec i s = .next (issue (touchesLine i) (entryPoint i) (commandBody i) s) := by
  cases i <;> rfl

/-- A command that is taken. -/
theorem exec_taken {i : Instr} (hs : Ready s) (ht : touchesLine i = false ∨ s.status.fatal = false) :
    exec i s = .next (commandBody i (accept (entryPoint i) s)).close := by
  rw [exec_eq_issue, issue_taken hs ht]

/-- What a host write to `CMD` gives, word by word. -/
theorem issueWord_cases (v : Word) (s : State) :
    (s.rst = true ∧ issueWord v s = .next s) ∨
    (s.rst = false ∧ s.status.busy = true ∧ issueWord v s = .next (collide s)) ∨
    (Ready s ∧ (∃ e, decode v = .error e) ∧ issueWord v s = .next (completeAtOnce .illegalCmd s)) ∨
    (Ready s ∧ ∃ i, decode v = .ok i ∧ issueWord v s = exec i s) := by
  unfold issueWord
  cases hr : s.rst with
  | true => exact .inl ⟨rfl, rfl⟩
  | false =>
    cases hb : s.status.busy with
    | true => exact .inr (.inl ⟨rfl, rfl, rfl⟩)
    | false =>
      cases hd : decode v with
      | error e => exact .inr (.inr (.inl ⟨⟨hr, hb⟩, ⟨e, rfl⟩, rfl⟩))
      | ok i => exact .inr (.inr (.inr ⟨⟨hr, hb⟩, i, rfl, rfl⟩))

theorem issueWordRacing_cases (v : Word) (s : State) :
    (s.rst = true ∧ issueWordRacing v s = s) ∨
    (s.rst = false ∧ s.status.busy = true ∧ issueWordRacing v s = collide s) ∨
    (Ready s ∧ (∃ e, decode v = .error e) ∧ issueWordRacing v s = completeAtOnce .illegalCmd s) ∨
    (Ready s ∧ ∃ i, decode v = .ok i ∧ issueWordRacing v s = issueRacing i s) := by
  unfold issueWordRacing
  cases hr : s.rst with
  | true => exact .inl ⟨rfl, rfl⟩
  | false =>
    cases hb : s.status.busy with
    | true => exact .inr (.inl ⟨rfl, rfl, rfl⟩)
    | false =>
      cases hd : decode v with
      | error e => exact .inr (.inr (.inl ⟨⟨hr, hb⟩, ⟨e, rfl⟩, rfl⟩))
      | ok i => exact .inr (.inr (.inr ⟨⟨hr, hb⟩, i, rfl, rfl⟩))

/-- A command word written while another command runs (R217). -/
theorem issueWord_busy {v : Word} {s : State} (hr : s.rst = false) (hb : s.status.busy = true) :
    issueWord v s = .next (collide s) := by
  simp only [issueWord, hr, hb, Bool.false_eq_true, if_false, if_true]

theorem issueWordRacing_busy {v : Word} {s : State} (hr : s.rst = false) (hb : s.status.busy = true) :
    issueWordRacing v s = collide s := by
  simp only [issueWordRacing, hr, hb, Bool.false_eq_true, if_false, if_true]

/-- An illegal command word written to an idle block (R218). -/
theorem issueWord_illegal {v : Word} {s : State} {e : Illegal} (hs : Ready s) (hd : decode v = .error e) :
    issueWord v s = .next (completeAtOnce .illegalCmd s) := by
  simp only [issueWord, hs.1, hs.2, hd, Bool.false_eq_true, if_false]

theorem issueWordRacing_illegal {v : Word} {s : State} {e : Illegal} (hs : Ready s) (hd : decode v = .error e) :
    issueWordRacing v s = completeAtOnce .illegalCmd s := by
  simp only [issueWordRacing, hs.1, hs.2, hd, Bool.false_eq_true, if_false]

/-- A legal command word written to an idle block. -/
theorem issueWord_legal {v : Word} {s : State} {i : Instr} (hs : Ready s) (hd : decode v = .ok i) :
    issueWord v s = exec i s := by
  simp only [issueWord, hs.1, hs.2, hd, Bool.false_eq_true, if_false]

theorem issueWordRacing_legal {v : Word} {s : State} {i : Instr} (hs : Ready s) (hd : decode v = .ok i) :
    issueWordRacing v s = issueRacing i s := by
  simp only [issueWordRacing, hs.1, hs.2, hd, Bool.false_eq_true, if_false]

/-- Completion forgets the sequencer and the acceptance it ends. -/
theorem complete_accept (code : Result) (p : SeqPoint) (s : State) :
    complete code (accept p s) = complete code s := rfl

end Sys2Proof.Machine
end

