-- ==== Sys2Proof/Laws/Transactor.lean ====
section
/-! SUPPORT. Everything the transmit step, a resynchronization and a frame read can do, and what they do on a line whose
events and answers are listed. -/

namespace Sys2Proof.Machine

/-! ### The transmit step (R170, R173) -/

/-- `s` after `k` bytes of `TXBUF` have been accepted. -/
def transmitted (k : Nat) (q : List Bool) (d : Nat) (s : State) : State :=
  { s with
    txCnt := BitVec.ofNat 4 k, draws := d
    line := { s.line with txAnswers := q, txlog := s.line.txlog ++ (txList s.txbuf).take k } }

@[simp] theorem txList_length (t : TxBuf) : (txList t).length = 8 := rfl

@[simp] theorem reqList_length (r : ReqBytes) : (reqList r).length = 6 := rfl

theorem transmit_eq {s : State} {k : Nat} {q : List Bool} {d : Nat}
    (h : txWrite (txList s.txbuf) s = (k, { s with
      line := { s.line with txAnswers := q, txlog := s.line.txlog ++ (txList s.txbuf).take k }, draws := d })) :
    transmit s = if k < 8 then .raise .incompleteWrite (transmitted k q d s) else .next (transmitted k q d s) := by
  unfold transmit
  rw [h]
  rfl

/-- The transmit step on any line. -/
theorem transmit_cases (s : State) : ∃ k q d, k ≤ 8 ∧
    transmit s = if k < 8 then .raise .incompleteWrite (transmitted k q d s) else .next (transmitted k q d s) := by
  obtain ⟨k, q, d, hk, hw⟩ := txWrite_cases (txList s.txbuf) s
  exact ⟨k, q, d, hk, transmit_eq hw⟩

/-- The transmit step on a line that lists its answers. -/
theorem transmit_answers (s : State) (k : Nat) (q : List Bool) (hk : k ≤ 8)
    (h : s.line.txAnswers = List.replicate k true ++ (if k < 8 then false :: q else q)) :
    transmit s =
      if k < 8 then .raise .incompleteWrite (transmitted k q s.draws s)
      else .next (transmitted k q s.draws s) :=
  transmit_eq (txWrite_answers (txList s.txbuf) s k q hk h)

/-- What `EXEC` prepares and a whole transmission make together (R173). -/
theorem transmitted_prepareRequest (q : List Bool) (s : State) :
    transmitted 8 q s.draws (prepareRequest s) = requestSent q (rxPrologue s) := rfl

/-! ### The end of a stretch -/

@[simp] theorem andThen_next (s : State) (k : State → Flow) : (Flow.next s).andThen k = k s := rfl
@[simp] theorem andThen_raise (c : Result) (s : State) (k : State → Flow) :
    (Flow.raise c s).andThen k = .raise c s := rfl
@[simp] theorem andThen_hold (s : State) (k : State → Flow) : (Flow.hold s).andThen k = .hold s := rfl
@[simp] theorem close_next (s : State) : (Flow.next s).close = complete .ok s := rfl
@[simp] theorem close_raise (c : Result) (s : State) : (Flow.raise c s).close = complete c s := rfl
@[simp] theorem close_hold (s : State) : (Flow.hold s).close = s := rfl

/-! ### Frame reads (R133, R136) -/

/-- `FBUF` and the registers after a resynchronization that found `h0 h1` behind the garbage `g`. -/
theorem resync_found {s : State} {g : List Byte} {h0 h1 : Byte} {rest : List RxEvent}
    (hg : noHeader (g ++ [h0]) = true) (hk : classify h0 h1 ≠ .unknown)
    (hq : s.line.rxq = delivered (g ++ [h0, h1]) ++ rest) :
    resync s = .next (syncFound (g.length + 2)
      { s with win0 := h0, win1 := h1, line := { s.line with rxq := rest } }) := by
  unfold resync
  rw [synchronize_found g h0 h1 s rest hg hk hq]

/-- The bytes of a frame stored by `FOUND`, by the length byte and by the body are the frame. -/
theorem holdsFrame_stored (f bs : List Byte) (a b c : Byte) (hf : f = a :: b :: c :: bs) (hl : f.length ≤ 512) (s : State) :
    HoldsFrame f s.fbuf (fbufStore 3 bs (fbufWrite 2 c (fbufWrite 1 b (fbufWrite 0 a s)))).fbuf := by
  intro k
  subst hf
  have hl' : 3 + bs.length ≤ 512 := by simp only [List.length_cons] at hl; omega
  rw [fbufStore_get? _ _ _ _ hl', fbufWrite_get? _ _ _ _ (by decide), fbufWrite_get? _ _ _ _ (by decide),
    fbufWrite_get? _ _ _ _ (by decide)]
  rcases k with _ | _ | _ | k
  · simp
  · simp
  · simp
  · by_cases h : k < bs.length
    · rw [if_pos (by omega), if_pos (by simpa using h)]
      simp
    · rw [if_neg (by omega), if_neg (by omega), if_neg (by omega), if_neg (by omega), if_neg (by simpa using h)]

/-- What `FOUND`, the length byte and the body write, put together. -/
theorem storeBody_eq (bs : List Byte) (c : Byte) (n : Nat) (l : Line) (t : State) :
    storeBody bs { storeLenByte c (syncFound n t) with line := l } = { t with
      status := { t.status with hdrClass := classify t.win0 t.win1 }
      rxCnt := BitVec.ofNat 16 (3 + bs.length), lenByte := c, dropCnt := saturate16 (n - 2)
      fbuf := (fbufStore 3 bs (fbufWrite 2 c (fbufWrite 1 t.win1 (fbufWrite 0 t.win0 t)))).fbuf
      line := l } := by
  have h : (fbufStore 3 bs { storeLenByte c (syncFound n t) with line := l }).fbuf =
      (fbufStore 3 bs (fbufWrite 2 c (fbufWrite 1 t.win1 (fbufWrite 0 t.win0 t)))).fbuf :=
    fbufStore_fbuf_congr bs 3 rfl
  unfold storeBody
  rw [fbufStore_eq, h]
  rfl

/-- A whole frame behind garbage: `read_frame(L)` drops the garbage, takes exactly the frame, and delivers it. -/
theorem readFrame_delivered {s : State} {g f : List Byte} {rest : List RxEvent} (h5 : 5 ≤ f.length)
    (hl : f.length ≤ 512) (hg : noHeader (g ++ [f.getD 0 0]) = true)
    (hk : classify (f.getD 0 0) (f.getD 1 0) ≠ .unknown) (hq : s.line.rxq = delivered (g ++ f) ++ rest) :
    ∃ m, HoldsFrame f s.fbuf m ∧ readFrame f.length s = .next (frameReceived g f rest m s) := by
  obtain ⟨a, b, c, bs, rfl⟩ : ∃ a b c bs, f = a :: b :: c :: bs := by
    rcases f with _ | ⟨a, _ | ⟨b, _ | ⟨c, bs⟩⟩⟩ <;> simp_all
  have hm : HoldsFrame (a :: b :: c :: bs) s.fbuf _ := holdsFrame_stored _ bs a b c rfl hl
    { s with win0 := a, win1 := b, line := { s.line with rxq := delivered bs ++ rest } }
  refine ⟨_, hm, ?_⟩
  have hr := resync_found (s := s) (g := g) (h0 := a) (h1 := b) (rest := .byte c :: (delivered bs ++ rest)) hg hk
    (by rw [hq]; simp)
  unfold readFrame
  rw [hr, andThen_next]
  unfold readRest
  have hb : (a :: b :: c :: bs).length - Config.hdrConsumed = bs.length := by simp [Config.hdrConsumed]
  rw [hb, show rxPop (syncFound (g.length + 2) { s with
      win0 := a, win1 := b, line := { s.line with rxq := .byte c :: (delivered bs ++ rest) } }) =
    (.byte c, syncFound (g.length + 2) { s with
      win0 := a, win1 := b, line := { s.line with rxq := delivered bs ++ rest } }) from rfl]
  simp only
  rw [rxRead_delivered bs _ rest rfl]
  simp only [lt_irrefl, if_false]
  rw [storeBody_eq]
  have hd := fun t => deliver_listed (a :: b :: c :: bs) t (by omega)
  rw [hd]
  · rw [show 3 + bs.length = (a :: b :: c :: bs).length by simp only [List.length_cons]; omega, Nat.add_sub_cancel]
    rfl
  · exact fun k hk => (hm k).trans (if_pos hk)

/-- A frame that a silence cuts short: `read_frame(L)` raises `TIMEOUT` with the bytes received in `FBUF`. -/
theorem readFrame_short {s : State} {g f : List Byte} {n : Nat} {rest : List RxEvent} (h2 : 2 ≤ f.length)
    (hn : f.length < n) (hl : n ≤ 512) (hg : noHeader (g ++ [f.getD 0 0]) = true)
    (hk : classify (f.getD 0 0) (f.getD 1 0) ≠ .unknown) (hq : FallsSilent (g ++ f) rest s.line) :
    ∃ m, HoldsFrame f s.fbuf m ∧ readFrame n s = .raise .timeout { s with
      status := { s.status with hdrClass := classify (f.getD 0 0) (f.getD 1 0) }
      rxCnt := BitVec.ofNat 16 f.length
      lenByte := f.getD 2 s.lenByte, dropCnt := saturate16 g.length
      fbuf := m, win0 := f.getD 0 0, win1 := f.getD 1 0, line := { s.line with rxq := rest } } := by
  obtain ⟨a, b, f, rfl⟩ : ∃ a b bs, f = a :: b :: bs := by
    rcases f with _ | ⟨a, _ | ⟨b, bs⟩⟩ <;> simp_all
  obtain ⟨q, hq, he⟩ := fallsSilent_append (xs := g ++ [a, b]) (ys := f) (by simpa using hq)
  have hr := resync_found (s := s) (g := g) (h0 := a) (h1 := b) (rest := q) hg hk hq
  unfold readFrame
  rw [hr, andThen_next]
  unfold readRest
  generalize hs : syncFound (g.length + 2) { s with win0 := a, win1 := b, line := { s.line with rxq := q } } = t
  have ht : FallsSilent f rest t.line := by rw [← hs]; exact he
  cases f with
  | nil =>
    refine ⟨(fbufWrite 1 b (fbufWrite 0 a s)).fbuf, fun k => ?_, ?_⟩
    · rw [fbufWrite_get? _ _ _ _ (by decide), fbufWrite_get? _ _ _ _ (by decide)]
      rcases k with _ | _ | k <;> simp
    · rw [rxPop_fallsSilent ht, ← hs]
      rfl
  | cons c bs =>
    simp only [List.length_cons] at hn
    have hm : HoldsFrame (a :: b :: c :: bs) s.fbuf _ :=
      holdsFrame_stored _ bs a b c rfl (by simp only [List.length_cons]; omega)
        { s with win0 := a, win1 := b, line := { s.line with rxq := q } }
    refine ⟨_, hm, ?_⟩
    obtain ⟨q', hp, he'⟩ := fallsSilent_cons ht
    have hb : bs.length < n - Config.hdrConsumed := by unfold Config.hdrConsumed; omega
    rw [hp]
    simp only
    rw [rxRead_short bs _ _ rest hb he', ← hs]
    simp only [if_pos hb]
    have := storeBody_eq bs c (g.length + 2) { s.line with rxq := rest }
      { s with win0 := a, win1 := b, line := { s.line with rxq := q } }
    rw [show 3 + bs.length = (a :: b :: c :: bs).length by simp only [List.length_cons]; omega, Nat.add_sub_cancel] at this
    exact congrArg (Flow.raise .timeout) this

/-- A stream that ends before a known header (R135). -/
theorem resync_eos {s : State} {g : List Byte} {rest : List RxEvent} (hg : noHeader g = true)
    (hq : FallsSilent g rest s.line) : ∃ a b, resync s =
      .raise (if g = [] then .timeout else .badHeader) { s with
        win0 := a, win1 := b, line := { s.line with rxq := rest }, dropCnt := saturate16 g.length } := by
  obtain ⟨a, b, h⟩ := synchronize_eos g s rest hg hq
  refine ⟨a, b, ?_⟩
  unfold resync syncEos
  rw [h]
  simp only [List.length_eq_zero_iff]

end Sys2Proof.Machine
end

