-- ==== Sys2Proof/Laws/Kept.lean ====
section
/-! SUPPORT. What no command's pseudocode and no move of the sequencer ever touches, and that the line only moves forward:
one relation, kept by every operation. -/

namespace Sys2Proof.Machine

/-- What a stretch of any command's pseudocode keeps: the host's own registers, acceptance and completion (which are not the
pseudocode's), the latches, the host's side and the `rst` input; and the line only moves forward. -/
structure Kept (s t : State) : Prop where
  ie : t.ie = s.ie
  bufLen : t.bufLen = s.bufLen
  expLen : t.expLen = s.expLen
  rst : t.rst = s.rst
  host : t.host = s.host
  busy : t.status.busy = s.status.busy
  done : t.status.done = s.status.done
  fatal : t.status.fatal = s.status.fatal
  collide : t.status.collide = s.status.collide
  result : t.status.result = s.status.result
  before : t.seq.before = s.seq.before
  forward : ∃ sent taken, t.line.txlog = s.line.txlog ++ sent ∧ s.line.rxq = taken ++ t.line.rxq
  silent : s.line.tail = .silent → t.line.tail = .silent
  fbufWf : Memory.wf s.fbuf → Memory.wf t.fbuf

theorem Kept.refl (s : State) : Kept s s :=
  ⟨rfl, rfl, rfl, rfl, rfl, rfl, rfl, rfl, rfl, rfl, rfl, ⟨[], [], by simp⟩, id, id⟩

theorem Kept.trans {s t u : State} (h : Kept s t) (k : Kept t u) : Kept s u := by
  obtain ⟨a, b, h₁, h₂⟩ := h.forward
  obtain ⟨c, d, k₁, k₂⟩ := k.forward
  exact ⟨k.ie.trans h.ie, k.bufLen.trans h.bufLen, k.expLen.trans h.expLen, k.rst.trans h.rst, k.host.trans h.host,
    k.busy.trans h.busy, k.done.trans h.done, k.fatal.trans h.fatal, k.collide.trans h.collide,
    k.result.trans h.result, k.before.trans h.before, ⟨a ++ c, b ++ d, by rw [k₁, h₁, List.append_assoc], by rw [h₂, k₂, List.append_assoc]⟩,
    fun hs => k.silent (h.silent hs), fun hw => k.fbufWf (h.fbufWf hw)⟩

/-- A stretch keeps the frame, however it ends. -/
def Flow.Kept (s : State) : Flow → Prop
  | .next t | .raise _ t | .hold t => Machine.Kept s t

theorem Flow.Kept.trans {s t : State} (h : Machine.Kept s t) {f : Flow} (hf : f.Kept t) : f.Kept s := by
  cases f <;> exact Machine.Kept.trans h hf

theorem Flow.Kept.andThen {s : State} {f : Flow} {k : State → Flow} (hf : f.Kept s) (hk : ∀ t, (k t).Kept t) :
    (f.andThen k).Kept s := by
  cases f with
  | next t => exact Flow.Kept.trans hf (hk t)
  | raise c t => exact hf
  | hold t => exact hf

/-! ### The operations -/

theorem fbufRead_kept (i : Nat) (s : State) : Kept s (fbufRead i s).2 := by
  obtain ⟨b, d, h, -⟩ := fbufRead_cases i s
  rw [h]
  exact ⟨rfl, rfl, rfl, rfl, rfl, rfl, rfl, rfl, rfl, rfl, rfl, ⟨[], [], by simp⟩, id, id⟩

theorem fbufRange_kept (i n : Nat) (s : State) : Kept s (fbufRange i n s).2 := by
  obtain ⟨b, d, h, -⟩ := fbufRange_cases n i s
  rw [h]
  exact ⟨rfl, rfl, rfl, rfl, rfl, rfl, rfl, rfl, rfl, rfl, rfl, ⟨[], [], by simp⟩, id, id⟩

theorem fbufStore_kept (i : Nat) (bs : List Byte) (s : State) : Kept s (fbufStore i bs s) := by
  have h := fbufStore_wf bs i s
  rw [fbufStore_eq] at h ⊢
  exact ⟨rfl, rfl, rfl, rfl, rfl, rfl, rfl, rfl, rfl, rfl, rfl, ⟨[], [], by simp⟩, id, h⟩

theorem fbufWrite_kept (i : Nat) (b : Byte) (s : State) : Kept s (fbufWrite i b s) := fbufStore_kept i [b] s

theorem rxPop_kept (s : State) : Kept s (rxPop s).2 := by
  obtain ⟨e, q, t, h, hc⟩ := rxPop_cases s
  rw [h]
  refine ⟨rfl, rfl, rfl, rfl, rfl, rfl, rfl, rfl, rfl, rfl, rfl, ⟨[], ?_⟩, fun hs => ?_, id⟩
  · rcases hc with ⟨hx, -⟩ | ⟨hx, rfl, -⟩ | ⟨hx, rfl, -⟩
    · exact ⟨[e], by simp [hx]⟩
    · exact ⟨[], by simpa using hx⟩
    · exact ⟨[], by simpa using hx⟩
  · rcases hc with ⟨-, rfl⟩ | ⟨-, -, -, -, rfl⟩ | ⟨-, -, n, hn, -⟩
    · exact hs
    · rfl
    · simp [hs] at hn

theorem rxRead_kept (n : Nat) (s : State) : Kept s (rxRead n s).2 := by
  obtain ⟨bs, q, t, es, h, -, hq, ht⟩ := rxRead_cases n s
  rw [h]
  exact ⟨rfl, rfl, rfl, rfl, rfl, rfl, rfl, rfl, rfl, rfl, rfl, ⟨[], es, by simp [hq]⟩, ht, id⟩

theorem RxOnly.kept {s t : State} (h : RxOnly s t) : Kept s t := by
  obtain ⟨a, b, q, x, es, rfl, hq, ht⟩ := h
  exact ⟨rfl, rfl, rfl, rfl, rfl, rfl, rfl, rfl, rfl, rfl, rfl, ⟨[], es, by simp [hq]⟩, ht, id⟩

theorem txOffer_kept (b : Byte) (s : State) : Kept s (txOffer b s).2 := by
  obtain ⟨ok, q, d, h⟩ := txOffer_cases b s
  rw [h]
  exact ⟨rfl, rfl, rfl, rfl, rfl, rfl, rfl, rfl, rfl, rfl, rfl, ⟨_, [], rfl, rfl⟩, id, id⟩

/-- An update of nothing but what the pseudocode may write. -/
theorem Kept.of_eq {s : State} {h : HdrClass} {k e o : Bool} {c n p r d : Half} {x : BitVec 4} {l w v : Byte}
    {rq : ReqBytes} {tb : TxBuf} {dr wt : Nat} : Kept s { s with
      status := { s.status with hdrClass := h, crcChk := k, crcErr := e, hsOk := o }
      crc := c, rxCnt := n, payLen := p, respVal := r, dropCnt := d, txCnt := x, lenByte := l, win0 := w, win1 := v
      req := rq, txbuf := tb, draws := dr, waited := wt } :=
  ⟨rfl, rfl, rfl, rfl, rfl, rfl, rfl, rfl, rfl, rfl, rfl, ⟨[], [], by simp⟩, id, id⟩

theorem setPoint_kept (p : SeqPoint) (n : Nat) (s : State) : Kept s (setPoint p n s) := by
  unfold setPoint
  split
  · exact .refl s
  · rename_i h
    exact ⟨rfl, rfl, rfl, rfl, rfl, rfl, rfl, rfl, rfl, rfl, by simp [h, Seq.before], ⟨[], [], by simp⟩, id, id⟩

theorem checkFrame_kept (n : Nat) (s : State) : Kept s (checkFrame n s) :=
  (fbufRange_kept 0 (n - 2) s).trans ((fbufRead_kept _ _).trans ((fbufRead_kept _ _).trans .of_eq))

theorem respValue_kept (n : Nat) (s : State) : Kept s (respValue n s).2 := by
  unfold respValue
  split
  · exact (fbufRead_kept _ _).trans (fbufRead_kept _ _)
  · split
    · exact fbufRead_kept _ _
    · exact .refl s

theorem deliver_kept (n : Nat) (s : State) : Kept s (deliver n s) :=
  (checkFrame_kept n s).trans ((respValue_kept n _).trans .of_eq)

theorem syncFound_kept (n : Nat) (s : State) : Kept s (syncFound n s) :=
  (fbufWrite_kept 0 s.win0 s).trans ((fbufWrite_kept 1 s.win1 _).trans .of_eq)

theorem syncEos_kept (n : Nat) (s : State) : (syncEos n s).Kept s := Kept.of_eq (s := s)

theorem storeLenByte_kept (b : Byte) (s : State) : Kept s (storeLenByte b s) := (fbufWrite_kept 2 b s).trans .of_eq

theorem storeBody_kept (bs : List Byte) (s : State) : Kept s (storeBody bs s) := (fbufStore_kept 3 bs s).trans .of_eq

theorem rxPrologue_kept (s : State) : Kept s (rxPrologue s) := .of_eq

theorem prepareRequest_kept (s : State) : Kept s (prepareRequest s) := .of_eq

theorem transmitted_kept (k : Nat) (q : List Bool) (d : Nat) (s : State) : Kept s (transmitted k q d s) :=
  ⟨rfl, rfl, rfl, rfl, rfl, rfl, rfl, rfl, rfl, rfl, rfl, ⟨_, [], rfl, rfl⟩, id, id⟩

theorem transmit_kept (s : State) : (transmit s).Kept s := by
  obtain ⟨k, q, d, -, h⟩ := transmit_cases s
  rw [h]
  split
  · exact transmitted_kept k q d s
  · exact transmitted_kept k q d s

theorem resync_kept (s : State) : (resync s).Kept s := by
  unfold resync
  rcases synchronize_cases s with ⟨n, t, h, -, ht, -⟩ | ⟨n, t, h, ht⟩ | ⟨n, t, h, -, ht, -, -⟩
  · rw [h]
    exact ht.kept.trans (syncFound_kept n t)
  · rw [h]
    exact Flow.Kept.trans ht.kept (syncEos_kept n t)
  · rw [h]
    exact ht.kept.trans (setPoint_kept _ n t)

theorem readRest_kept (n : Nat) (s : State) : (readRest n s).Kept s := by
  have hp := rxPop_kept s
  unfold readRest
  rcases hr : rxPop s with ⟨e, t⟩
  rw [hr] at hp
  cases e with
  | gap => exact hp
  | byte b =>
    have h₁ := hp.trans (storeLenByte_kept b t)
    have h₂ := h₁.trans (rxRead_kept (n - Config.hdrConsumed) _)
    rcases hb : rxRead (n - Config.hdrConsumed) (storeLenByte b t) with ⟨bs, u⟩
    rw [hb] at h₂
    simp only [hb]
    split
    · exact h₂.trans (storeBody_kept bs u)
    · exact h₂.trans ((storeBody_kept bs u).trans (deliver_kept n _))

theorem readFrame_kept (n : Nat) (s : State) : (readFrame n s).Kept s :=
  (resync_kept s).andThen (readRest_kept n)

theorem widthCheck_kept (lovr : Bool) (s : State) : (widthCheck lovr s).Kept s := by
  unfold widthCheck
  split
  · exact Kept.refl s
  · have h := fbufRead_kept 1 s
    rcases hr : fbufRead 1 s with ⟨b, t⟩
    rw [hr] at h
    simp only
    split
    · exact h.trans .of_eq
    · exact h

theorem execBody_kept (nr lo : Bool) (s : State) : (execBody nr lo s).Kept s := by
  unfold execBody
  split
  · exact Flow.Kept.trans (prepareRequest_kept s) (transmit_kept _)
  · split
    · exact Kept.refl s
    · exact Flow.Kept.andThen (Flow.Kept.andThen (Flow.Kept.trans (prepareRequest_kept s) (transmit_kept _))
        (readFrame_kept _)) (widthCheck_kept lo)

theorem hskBegin_kept (s : State) : Kept s (hskBegin s) := .of_eq

theorem hskEnd_kept {s : State} {f : Flow} (h : f.Kept s) : (hskEnd f).Kept s := by
  cases f with
  | next t =>
    have hr := fbufRead_kept 4 t
    simp only [hskEnd]
    split
    · exact Kept.trans h (hr.trans .of_eq)
    · exact Kept.trans h (hr.trans .of_eq)
  | raise c t => exact Kept.trans h .of_eq
  | hold t => exact h

theorem commandBody_kept (i : Instr) (s : State) : (commandBody i s).Kept s := by
  cases i with
  | nop => exact Kept.refl s
  | crci => exact Kept.of_eq (s := s)
  | crcb b => exact Kept.of_eq (s := s)
  | crcg =>
    simp only [commandBody, crcgBody]
    split
    · exact Kept.refl s
    · exact (fbufRange_kept 0 _ s).trans .of_eq
  | crcv =>
    simp only [commandBody, crcvBody]
    split
    · exact Kept.refl s
    · split
      · exact Kept.of_eq (s := s)
      · exact checkFrame_kept _ s
  | hdrc => exact (fbufRead_kept 0 s).trans ((fbufRead_kept 1 _).trans .of_eq)
  | enc => exact Kept.of_eq (s := s)
  | send => exact transmit_kept s
  | sync => exact Flow.Kept.trans (rxPrologue_kept s) (resync_kept _)
  | rdf =>
    simp only [commandBody, rdfBody]
    split
    · exact Kept.refl s
    · exact Flow.Kept.trans (rxPrologue_kept s) (readFrame_kept _ _)
  | exec nr lo => exact execBody_kept nr lo s
  | hsk => exact hskEnd_kept (Flow.Kept.trans (hskBegin_kept s) (execBody_kept _ _ _))
  | pace => exact Kept.of_eq (s := s)

/-! ### The moves of the sequencer -/

theorem begin_kept (i : Instr) (s : State) : (begin i s).Kept s := by
  cases i <;> simp only [begin]
  all_goals first
    | exact Kept.refl s
    | exact rxPrologue_kept s
    | exact (hskBegin_kept s).trans (prepareRequest_kept _)
    | skip
  · split
    · exact Kept.refl s
    · exact rxPrologue_kept s
  · split
    · exact prepareRequest_kept s
    · split
      · exact Kept.refl s
      · exact prepareRequest_kept s

theorem localBody_kept (i : Instr) (s : State) : (localBody i s).Kept s := by
  cases i with
  | crci => exact commandBody_kept .crci s
  | crcb b => exact commandBody_kept (.crcb b) s
  | crcg => exact commandBody_kept .crcg s
  | crcv => exact commandBody_kept .crcv s
  | hdrc => exact commandBody_kept .hdrc s
  | enc => exact commandBody_kept .enc s
  | _ => exact Kept.refl s

theorem windowFull_kept (i : Instr) (n : Nat) (s : State) : (windowFull i n s).Kept s := by
  unfold windowFull
  split
  · simp only
    split
    · exact syncFound_kept n s
    · exact (syncFound_kept n s).trans (setPoint_kept _ _ _)
  · exact setPoint_kept _ _ _

theorem moveFrom_kept (i : Instr) (p : SeqPoint) (seen : Nat) (s : State) : (moveFrom i p seen s).Kept s := by
  have hp := rxPop_kept s
  cases p with
  | crcLoop _ => exact localBody_kept i s
  | tx k =>
    have h := txOffer_kept (txByte s.txbuf k) s
    simp only [moveFrom, moveTx]
    rcases hr : txOffer (txByte s.txbuf k) s with ⟨ok, t⟩
    rw [hr] at h
    cases ok with
    | false => exact h.trans .of_eq
    | true =>
      simp only
      split
      · exact h.trans (setPoint_kept _ _ _)
      · split
        · exact h.trans (Kept.trans .of_eq (setPoint_kept _ _ _))
        · exact h.trans .of_eq
  | syncFill =>
    simp only [moveFrom, moveSyncFill]
    rcases hr : rxPop s with ⟨e, t⟩
    rw [hr] at hp
    cases e with
    | gap => exact Flow.Kept.trans hp (syncEos_kept seen t)
    | byte b =>
      simp only
      split
      · exact hp.trans (Kept.trans .of_eq (setPoint_kept _ _ _))
      · exact Flow.Kept.trans (hp.trans .of_eq) (windowFull_kept i _ _)
  | syncSlide =>
    have hp' := Kept.trans (.of_eq (s := s) (w := s.win1)) (rxPop_kept { s with win0 := s.win1 })
    simp only [moveFrom, moveSyncSlide]
    rcases hr : rxPop { s with win0 := s.win1 } with ⟨e, t⟩
    rw [hr] at hp'
    cases e with
    | gap => exact Flow.Kept.trans hp' (syncEos_kept seen t)
    | byte b => exact Flow.Kept.trans (hp'.trans .of_eq) (windowFull_kept i _ _)
  | lenByte =>
    simp only [moveFrom, moveLenByte]
    rcases hr : rxPop s with ⟨e, t⟩
    rw [hr] at hp
    cases e with
    | gap => exact hp
    | byte b => exact hp.trans ((storeLenByte_kept b t).trans (setPoint_kept _ _ _))
  | body m =>
    simp only [moveFrom, moveBody]
    rcases hr : rxPop s with ⟨e, t⟩
    rw [hr] at hp
    cases e with
    | gap => exact hp
    | byte b =>
      have h : Kept s { fbufWrite (3 + m) b t with rxCnt := BitVec.ofNat 16 (3 + (m + 1)) } :=
        hp.trans ((fbufWrite_kept (3 + m) b t).trans .of_eq)
      simp only
      split
      · exact h.trans (setPoint_kept _ _ _)
      · exact h.trans (setPoint_kept _ _ _)
  | check =>
    simp only [moveFrom, moveCheck]
    split
    · exact Flow.Kept.trans (deliver_kept _ s) (widthCheck_kept _ _)
    · exact Flow.Kept.trans (deliver_kept _ s) (widthCheck_kept _ _)
    all_goals exact deliver_kept _ s
  | pace => exact Kept.of_eq (s := s)

theorem wrapEnd_kept {i : Instr} {s : State} {f : Flow} (h : f.Kept s) : (wrapEnd i f).Kept s := by
  unfold wrapEnd
  split
  · exact hskEnd_kept h
  · exact h

/-- What a close adds to a stretch: nothing where the command still runs, else the completion (R214). -/
theorem close_cases {s : State} {f : Flow} (h : f.Kept s) : ∃ t, Kept s t ∧
    (f = .hold t ∧ f.close = t ∨ ∃ code, f.close = complete code t ∧ (f = .next t ∧ code = .ok ∨ f = .raise code t)) := by
  cases f with
  | next t => exact ⟨t, h, .inr ⟨.ok, rfl, .inl ⟨rfl, rfl⟩⟩⟩
  | raise c t => exact ⟨t, h, .inr ⟨c, rfl, .inr rfl⟩⟩
  | hold t => exact ⟨t, h, .inl ⟨rfl, rfl⟩⟩

/-- Everything one move of the sequencer can do. -/
theorem seqMove_cases (s : State) :
    seqMove s = s ∨ ∃ cmd p n b i, s.seq = .run cmd p n b ∧ decode cmd = .ok i ∧
      seqMove s = (wrapEnd i (moveFrom i p n s)).close ∧ (wrapEnd i (moveFrom i p n s)).Kept s := by
  unfold seqMove
  split
  · exact .inl rfl
  · rename_i cmd p n b hs
    split
    · rename_i i hi
      exact .inr ⟨cmd, p, n, b, i, hs, hi, rfl, wrapEnd_kept (moveFrom_kept i p n s)⟩
    · exact .inl rfl

end Sys2Proof.Machine
end

