-- ==== Sys2Proof/Laws/StepEffect.lean ====
section
/-! SUPPORT. Everything one step can do, said once: the inversion lemma that invariants and whole-machine rules are proved
from. -/

namespace Sys2Proof.Machine

/-- The effect of one step from `s`. `h` is the host's side with the action taken and the data driven. -/
inductive StepEffect (s : State) : State → Prop where
  /-- Nothing, or only the host's side moves on. -/
  | quiet (h : HostSide) : StepEffect s { s with host := h }
  /-- The host is given a word. -/
  | read (h : HostSide) (d : Nat) : StepEffect s { s with host := h, draws := d }
  /-- A host write that issues no command. -/
  | store (a : Offset) (v : Word) (rest : List BusAction) (h : HostSide)
      (hb : s.host.bus = .write a v :: rest ∨ s.host.bus = .writeRacing a v :: rest) (ha : regAt a ≠ some .cmd) :
      StepEffect s (hostStore a v { s with host := h })
  /-- A dropped command. -/
  | collided (a : Offset) (v : Word) (rest : List BusAction) (h : HostSide) (hr : s.rst = false)
      (hs : s.status.busy = true) (hb : s.host.bus = .write a v :: rest ∨ s.host.bus = .writeRacing a v :: rest)
      (ha : regAt a = some .cmd) : StepEffect s (collide { s with host := h })
  /-- An illegal or a locked command. -/
  | atOnce (code : Result) (h : HostSide) (hs : Ready s)
      (hc : code = .illegalCmd ∨ code = .locked ∧ s.status.fatal = true) :
      StepEffect s (completeAtOnce code { s with host := h })
  /-- A command that is taken: run whole, or up to its first port primitive. -/
  | taken (cmd : Word) (i : Instr) (h : HostSide) (f : Flow) (hs : Ready s) (hw : h.wdata = cmd)
      (hd : decode cmd = .ok i) (hl : touchesLine i = true → s.status.fatal = false)
      (hf : f = commandBody i (accept (entryPoint i) { s with host := h }) ∨
        f = begin i (accept (entryPoint i) { s with host := h })) : StepEffect s f.close
  /-- One move of a running command. -/
  | moved (cmd : Word) (p : SeqPoint) (n : Nat) (b : Flags) (i : Instr) (h : HostSide) (hs : s.seq = .run cmd p n b)
      (hd : decode cmd = .ok i) : StepEffect s (wrapEnd i (moveFrom i p n { s with host := h })).close
  /-- The `rst` input. -/
  | reset (level : Bool) (rest : List BusAction) (h : HostSide) (hb : s.host.bus = .rst level :: rest) :
      StepEffect s { blockReset { s with host := h } with rst := level }

theorem issueWord_effect (a : Offset) (v : Word) (rest : List BusAction) (s : State)
    (hb : s.host.bus = .write a v :: rest ∨ s.host.bus = .writeRacing a v :: rest) (ha : regAt a = some .cmd) {t : State}
    (h : issueWord v (driveData v (popAction rest s)) = .next t) : StepEffect s t := by
  rcases issueWord_cases v (driveData v (popAction rest s)) with ⟨-, h'⟩ | ⟨hr, hs, h'⟩ | ⟨hs, -, h'⟩ | ⟨hs, i, hi, h'⟩
  · rw [h'] at h; cases h
    exact .quiet _
  · rw [h'] at h; cases h
    exact .collided a v rest _ hr hs hb ha
  · rw [h'] at h; cases h
    exact .atOnce _ _ hs (.inl rfl)
  · rw [h', exec_eq_issue] at h; cases h
    rcases issue_cases (touchesLine i) (entryPoint i) (commandBody i) (driveData v (popAction rest s)) with
      ⟨hr, -⟩ | ⟨-, hb', -⟩ | ⟨hs, ht, hf, h⟩ | ⟨hs, hf, h⟩
    · rw [hs.1] at hr; cases hr
    · rw [hs.2] at hb'; cases hb'
    · rw [h]; exact .atOnce _ _ hs (.inr ⟨rfl, hf⟩)
    · rw [h]; exact .taken v i (driveData v (popAction rest s)).host _ hs rfl hi hf (.inl rfl)

theorem issueWordRacing_effect (a : Offset) (v : Word) (rest : List BusAction) (s : State)
    (hb : s.host.bus = .write a v :: rest ∨ s.host.bus = .writeRacing a v :: rest) (ha : regAt a = some .cmd) :
    StepEffect s (issueWordRacing v (driveData v (popAction rest s))) := by
  rcases issueWordRacing_cases v (driveData v (popAction rest s)) with
    ⟨-, h'⟩ | ⟨hr, hs, h'⟩ | ⟨hs, -, h'⟩ | ⟨hs, i, hi, h'⟩
  · rw [h']; exact .quiet _
  · rw [h']; exact .collided a v rest _ hr hs hb ha
  · rw [h']; exact .atOnce _ _ hs (.inl rfl)
  · rw [h', issueRacing]
    rcases issue_cases (touchesLine i) (entryPoint i) (begin i) (driveData v (popAction rest s)) with
      ⟨hr, -⟩ | ⟨-, hb', -⟩ | ⟨hs, ht, hf, h⟩ | ⟨hs, hf, h⟩
    · rw [hs.1] at hr; cases hr
    · rw [hs.2] at hb'; cases hb'
    · rw [h]; exact .atOnce _ _ hs (.inr ⟨rfl, hf⟩)
    · rw [h]; exact .taken v i (driveData v (popAction rest s)).host _ hs rfl hi hf (.inr rfl)

theorem seqMove_effect (h : HostSide) (s : State) : StepEffect s (seqMove { s with host := h }) := by
  rcases seqMove_cases { s with host := h } with h' | ⟨cmd, p, n, b, i, hs, hd, h', -⟩
  · rw [h']; exact .quiet h
  · rw [h']; exact .moved cmd p n b i h hs hd

/-- Everything one step can do. -/
theorem step_effect {s t : State} (h : step s = .next t) : StepEffect s t := by
  cases hb : s.host.bus with
  | nil =>
    rw [step_nil hb] at h; cases h
    exact seqMove_effect s.host s
  | cons act rest =>
    cases act with
    | read a =>
      rw [step_read hb] at h; cases h
      obtain ⟨w, d, h⟩ := hostRead_cases a (popAction rest s)
      rw [h]
      exact .read _ d
    | write a v =>
      by_cases ha : regAt a = some .cmd
      · rw [step_write_cmd hb ha] at h
        exact issueWord_effect a v rest s (.inl hb) ha h
      · rw [step_write_store hb ha] at h; cases h
        exact .store a v rest _ (.inl hb) ha
    | writeRacing a v =>
      by_cases ha : regAt a = some .cmd
      · rw [step_racing_cmd hb ha] at h; cases h
        exact issueWordRacing_effect a v rest s (.inr hb) ha
      · rw [step_racing_store hb ha] at h; cases h
        exact .store a v rest _ (.inr hb) ha
    | tick =>
      rw [step_tick hb] at h; cases h
      exact seqMove_effect _ s
    | wait =>
      cases hd : s.status.done with
      | true =>
        rw [step_wait_done hb hd] at h; cases h
        exact .quiet _
      | false =>
        rw [step_wait_busy hb hd] at h; cases h
        exact seqMove_effect s.host s
    | rst level =>
      rw [step_rst hb] at h; cases h
      exact .reset level rest _ hb

/-- What a completion changes beside `Kept`. -/
theorem close_effect {s : State} {f : Flow} (h : f.Kept s) :
    Kept s f.close ∨ ∃ code t, Kept s t ∧ f.close = complete code t := by
  obtain ⟨t, ht, ⟨-, h'⟩ | ⟨code, h', -⟩⟩ := close_cases h
  · exact .inl (h'.symm ▸ ht)
  · exact .inr ⟨code, t, ht, h'⟩

theorem taken_kept {i : Instr} {u : State} {f : Flow} (hf : f = commandBody i u ∨ f = begin i u) : f.Kept u := by
  rcases hf with rfl | rfl
  · exact commandBody_kept i u
  · exact begin_kept i u

/-! ### What the host sees of a running command (R72, R73) -/

/-- The host sees nothing of what a running command's pseudocode does. -/
theorem Kept.hostStatus {s t : State} (h : Kept s t) (hs : s.seq ≠ .idle) (hb : s.status.busy = true) :
    Machine.hostStatus t = Machine.hostStatus s := by
  have hq := h.before
  unfold Machine.hostStatus
  cases hs' : s.seq with
  | idle => exact absurd hs' hs
  | run cmd p n b =>
    cases ht : t.seq with
    | idle => simp [hs', ht, Seq.before] at hq
    | run cmd' p' n' b' =>
      simp only [hs', ht, Seq.before, Option.some.injEq] at hq
      simp only [hb, h.busy, h.done, h.fatal, h.collide, h.result, if_true, hq]

/-- A stretch of a running command's pseudocode, closed: the host sees no change, or the command has completed. -/
theorem close_hostStatus {s : State} {f : Flow} (h : f.Kept s) (hs : s.seq ≠ .idle) (hb : s.status.busy = true) :
    f.close.status.busy = true ∧ hostStatus f.close = hostStatus s ∨
    f.close.status.busy = false ∧ f.close.status.done = true := by
  obtain ⟨t, ht, ⟨-, h'⟩ | ⟨code, h', -⟩⟩ := close_cases h
  · rw [h']
    exact .inl ⟨ht.busy.trans hb, ht.hostStatus hs hb⟩
  · rw [h']
    exact .inr ⟨rfl, rfl⟩

/-- What a step does to the `STATUS` that the host sees: between acceptance and completion, nothing but to the W1C bits. -/
theorem step_hostStatus {s t : State} (h : step s = .next t) :
    (t.status.busy = true → s.status.busy = true →
      hostStatus t = { hostStatus s with done := t.status.done, collide := t.status.collide }) ∧
    (t.status.busy = true → s.status.busy = false → hostStatus t = { s.status with busy := true, done := false }) ∧
    (t.status.busy = false → s.status.busy = true →
      (∃ level rest, s.host.bus = .rst level :: rest) ∨ t.status.done = true) := by
  have hw1c : ∀ (h : HostSide) (st : Status) (d : Nat), st.flags = s.status.flags → st.fatal = s.status.fatal →
      st.result = s.status.result → st.busy = s.status.busy →
      hostStatus { s with host := h, draws := d, status := st } =
        { hostStatus s with done := st.done, collide := st.collide } := by
    intro h st d h1 h2 h3 h4
    simp only [Status.flags, Flags.mk.injEq] at h1
    obtain ⟨h5, h6, h7, h8⟩ := h1
    cases st
    simp only at h2 h3 h4 h5 h6 h7 h8
    subst h2 h3 h4 h5 h6 h7 h8
    unfold hostStatus
    simp only
    split
    · rfl
    · split <;> rfl
  have he := step_effect h
  clear h
  cases he with
  | quiet h =>
    exact ⟨fun _ _ => hw1c h s.status s.draws rfl rfl rfl rfl, fun h1 h2 => by simp_all, fun h1 h2 => by simp_all⟩
  | read h d => exact ⟨fun _ _ => hw1c h s.status d rfl rfl rfl rfl, fun h1 h2 => by simp_all, fun h1 h2 => by simp_all⟩
  | store a v rest h hb ha =>
    obtain ⟨i, st, c, n, l, r, m, e, -, hst, -, -, -, -, -⟩ := hostStore_cases a v { s with host := h }
    rw [e]
    have hbusy : st.busy = s.status.busy := by rcases hst with rfl | ⟨-, rfl⟩ <;> rfl
    have hsee : hostStatus { s with host := h, status := st } =
        { hostStatus s with done := st.done, collide := st.collide } := by
      rcases hst with rfl | ⟨-, rfl⟩
      · exact hw1c h s.status s.draws rfl rfl rfl rfl
      · exact hw1c h _ s.draws rfl rfl rfl rfl
    have hne : ∀ {x : Bool}, st.busy = x → s.status.busy = !x → False := fun h1 h2 => by
      rw [hbusy, h2] at h1; simp at h1
    exact ⟨fun _ _ => hsee, fun h1 h2 => (hne h1 h2).elim, fun h1 h2 => (hne h1 h2).elim⟩
  | collided a v rest h hr hs hb ha =>
    exact ⟨fun _ _ => hw1c h { s.status with collide := true } s.draws rfl rfl rfl rfl,
      fun h1 h2 => by simp_all, fun h1 h2 => by simp_all [collide]⟩
  | atOnce code h hs hc =>
    have := hs.2
    exact ⟨fun h1 h2 => by simp_all, fun h1 h2 => by simp_all [completeAtOnce], fun h1 h2 => by simp_all⟩
  | taken cmd i h f hs hw hd hl hf =>
    have hk := taken_kept hf
    refine ⟨fun _ h2 => by simp_all, fun h1 _ => ?_, fun _ h2 => by simp_all⟩
    rcases close_hostStatus hk (by simp) rfl with ⟨-, h'⟩ | ⟨h', -⟩
    · rw [h']; rfl
    · simp_all
  | moved cmd p n b i h hs hd =>
    have hk := wrapEnd_kept (i := i) (moveFrom_kept i p n { s with host := h })
    have hse : hostStatus { s with host := h } = hostStatus s := rfl
    have hdc : (wrapEnd i (moveFrom i p n { s with host := h })).close.status.busy = true →
        (wrapEnd i (moveFrom i p n { s with host := h })).close.status.done = s.status.done ∧
        (wrapEnd i (moveFrom i p n { s with host := h })).close.status.collide = s.status.collide ∧
        s.status.busy = true := by
      intro h1
      rcases close_effect hk with hk | ⟨c, t, -, h'⟩
      · exact ⟨hk.done, hk.collide, hk.busy.symm.trans h1⟩
      · rw [h'] at h1; cases h1
    refine ⟨fun h1 h2 => ?_, fun h1 h2 => ?_, fun h1 h2 => ?_⟩
    · rcases close_hostStatus hk (by simp [hs]) h2 with ⟨-, h'⟩ | ⟨h', -⟩
      · rw [h', (hdc h1).1, (hdc h1).2.1]
        have := hw1c s.host s.status s.draws rfl rfl rfl rfl
        exact hse.trans this
      · rw [h'] at h1; cases h1
    · have := (hdc h1).2.2
      rw [h2] at this; cases this
    · rcases close_hostStatus hk (by simp [hs]) h2 with ⟨h', -⟩ | ⟨-, h'⟩
      · rw [h'] at h1; cases h1
      · exact .inr h'
  | reset level rest h hb => exact ⟨fun h1 _ => (by cases h1), fun h1 _ => (by cases h1), fun _ _ => .inl ⟨level, rest, hb⟩⟩

end Sys2Proof.Machine
end

