-- ==== Sys2Proof/Laws/Outcomes.lean ====
section
/-! SUPPORT. How each stretch of pseudocode can end and what it leaves, on any line: the cases that frames and invariants
are read off from. -/

namespace Sys2Proof.Machine

/-- The frame check changes `CRC`, its two flags and the count of draws. -/
theorem checkFrame_cases (n : Nat) (s : State) : ∃ c e d, checkFrame n s = { s with
    crc := c, status := { s.status with crcChk := true, crcErr := e }, draws := d } := by
  obtain ⟨bs, d₀, h₀, -⟩ := fbufRange_cases (n - 2) 0 s
  obtain ⟨lo, d₁, h₁, -⟩ := fbufRead_cases (n - 2) { s with draws := d₀ }
  obtain ⟨hi, d₂, h₂, -⟩ := fbufRead_cases (n - 1) { s with draws := d₁ }
  exact ⟨crc16 bs, crcMismatch (crc16 bs) lo hi, d₂, by simp only [checkFrame, h₀, h₁, h₂]; rfl⟩

/-- The response value changes nothing but the count of draws. -/
theorem respValue_cases (n : Nat) (s : State) : ∃ v d, respValue n s = (v, { s with draws := d }) := by
  unfold respValue
  split
  · obtain ⟨hi, d₁, h₁, -⟩ := fbufRead_cases (n - 4) s
    obtain ⟨lo, d₂, h₂, -⟩ := fbufRead_cases (n - 3) { s with draws := d₁ }
    exact ⟨halfOfBytes hi lo, d₂, by simp only [h₁, h₂]⟩
  · split
    · obtain ⟨b, d, h, -⟩ := fbufRead_cases 3 s
      exact ⟨b.setWidth 16, d, by simp only [h]⟩
    · exact ⟨0, s.draws, rfl⟩

/-- What delivering a frame changes. -/
theorem deliver_cases (n : Nat) (s : State) : ∃ c e v d, deliver n s = { s with
    crc := c, status := { s.status with crcChk := true, crcErr := e }
    payLen := BitVec.ofNat 16 (n - 5), respVal := v, draws := d } := by
  obtain ⟨c, e, d, h⟩ := checkFrame_cases n s
  obtain ⟨v, d', h'⟩ := respValue_cases n (checkFrame n s)
  refine ⟨c, e, v, d', ?_⟩
  unfold deliver
  rw [h', h]

/-- What `FOUND` changes. -/
theorem syncFound_eq (n : Nat) (s : State) : syncFound n s = { s with
    fbuf := (fbufWrite 1 s.win1 (fbufWrite 0 s.win0 s)).fbuf
    status := { s.status with hdrClass := classify s.win0 s.win1 }
    rxCnt := 2, dropCnt := saturate16 (n - 2) } := by
  unfold syncFound
  simp only
  rw [fbufWrite_eq 1, fbufWrite_eq 0]
  rfl

/-- How a resynchronization can end. -/
theorem resync_cases (s : State) :
    (∃ n t, 2 ≤ n ∧ RxOnly s t ∧ classify t.win0 t.win1 ≠ .unknown ∧ resync s = .next (syncFound n t)) ∨
    (∃ n t, RxOnly s t ∧ resync s = .raise (if n = 0 then .timeout else .badHeader) { t with dropCnt := saturate16 n }) ∨
    (∃ n t, 2 ≤ n ∧ RxOnly s t ∧ classify t.win0 t.win1 = .unknown ∧ s.line.tail ≠ .silent ∧
      resync s = .hold (setPoint .syncSlide n t)) := by
  unfold resync
  rcases synchronize_cases s with ⟨n, t, h, hn, ht, hk⟩ | ⟨n, t, h, ht⟩ | ⟨n, t, h, hn, ht, hk, hs⟩
  · exact .inl ⟨n, t, hn, ht, hk, by rw [h]⟩
  · exact .inr (.inl ⟨n, t, ht, by rw [h]; rfl⟩)
  · exact .inr (.inr ⟨n, t, hn, ht, hk, hs, by rw [h]⟩)

/-- How the rest of a frame read can end. -/
theorem readRest_cases (n : Nat) (hn : 3 ≤ n) (hl : n ≤ 512) (s : State) :
    (∃ t, RxOnly s t ∧ readRest n s = .raise .timeout t) ∨
    (∃ t k m b, RxOnly s t ∧ 3 + k ≤ n ∧ (Memory.wf s.fbuf → Memory.wf m) ∧
      (∀ a, a < 2 ∨ 3 + k ≤ a → Memory.get? m a = Memory.get? s.fbuf a) ∧
      readRest n s =
        if 3 + k < n then .raise .timeout { t with fbuf := m, rxCnt := BitVec.ofNat 16 (3 + k), lenByte := b }
        else .next (deliver n { t with fbuf := m, rxCnt := BitVec.ofNat 16 (3 + k), lenByte := b })) := by
  have hp := rxPop_rxOnly s
  unfold readRest
  rcases hr : rxPop s with ⟨e, t⟩
  rw [hr] at hp
  cases e with
  | gap => exact .inl ⟨t, hp, rfl⟩
  | byte b =>
    right
    obtain ⟨bs, q, x, es, h, hk, hq, ht⟩ := rxRead_cases (n - Config.hdrConsumed) (storeLenByte b t)
    have hc : Config.hdrConsumed = 3 := rfl
    obtain ⟨w0, w1, q', x', es', rfl, hq', ht'⟩ := hp
    refine ⟨{ s with win0 := w0, win1 := w1, line := { s.line with rxq := q, tail := x } }, bs.length,
      (fbufStore 3 bs (fbufWrite 2 b s)).fbuf, b, ⟨w0, w1, q, x, es' ++ es, rfl, ?_, fun hs => ?_⟩, by omega,
      fun hw => fbufStore_wf _ _ _ (fbufWrite_wf _ _ _ hw), fun a ha => ?_, ?_⟩
    · have : q' = es ++ q := by simpa [storeLenByte, fbufWrite, Config.maxFrame] using hq
      rw [hq', this, List.append_assoc]
    · exact ht (by simpa [storeLenByte, fbufWrite, Config.maxFrame] using ht' hs)
    · rw [fbufStore_get? _ _ _ _ (by unfold Config.maxFrame; omega), if_neg (by omega),
        fbufWrite_get? _ _ _ _ (by decide), if_neg (by omega)]
    · have hb : storeBody bs { storeLenByte b { s with
            win0 := w0, win1 := w1, line := { s.line with rxq := q', tail := x' } } with
          line := { (storeLenByte b { s with
            win0 := w0, win1 := w1, line := { s.line with rxq := q', tail := x' } }).line with rxq := q, tail := x } } =
          { s with
            fbuf := (fbufStore 3 bs (fbufWrite 2 b s)).fbuf, rxCnt := BitVec.ofNat 16 (3 + bs.length), lenByte := b
            win0 := w0, win1 := w1, line := { s.line with rxq := q, tail := x } } := by
        unfold storeBody
        rw [fbufStore_eq]
        have : (fbufStore 3 bs { storeLenByte b { s with
            win0 := w0, win1 := w1, line := { s.line with rxq := q', tail := x' } } with
          line := { (storeLenByte b { s with
            win0 := w0, win1 := w1, line := { s.line with rxq := q', tail := x' } }).line with
              rxq := q, tail := x } }).fbuf = (fbufStore 3 bs (fbufWrite 2 b s)).fbuf := fbufStore_fbuf_congr bs 3 rfl
        rw [this]
        rfl
      simp only [h, hb]
      by_cases hs : bs.length < n - Config.hdrConsumed
      · rw [if_pos hs, if_pos (by omega)]
      · rw [if_neg hs, if_neg (by omega)]

/-- How a whole frame read can end: at the end of the stream; with the search still on; or behind a header with `r` bytes of
the frame in `FBUF`, cut short where `r < n`. -/
theorem readFrame_cases (n : Nat) (hn : 3 ≤ n) (hl : n ≤ 512) (s : State) :
    (∃ k t, RxOnly s t ∧
      readFrame n s = .raise (if k = 0 then .timeout else .badHeader) { t with dropCnt := saturate16 k }) ∨
    (∃ k t, 2 ≤ k ∧ RxOnly s t ∧ classify t.win0 t.win1 = .unknown ∧ s.line.tail ≠ .silent ∧
      readFrame n s = .hold (setPoint .syncSlide k t)) ∨
    (∃ r t m b d c, RxOnly s t ∧ 2 ≤ r ∧ r ≤ n ∧ (Memory.wf s.fbuf → Memory.wf m) ∧
      (∀ a, r ≤ a → Memory.get? m a = Memory.get? s.fbuf a) ∧
      readFrame n s =
        if r < n then .raise .timeout { t with
          status := { s.status with hdrClass := c }, fbuf := m, rxCnt := BitVec.ofNat 16 r, lenByte := b, dropCnt := d }
        else .next (deliver n { t with
          status := { s.status with hdrClass := c }, fbuf := m, rxCnt := BitVec.ofNat 16 r, lenByte := b
          dropCnt := d })) := by
  unfold readFrame
  rcases resync_cases s with ⟨k, t, hk, ht, hc, h⟩ | ⟨k, t, ht, h⟩ | ⟨k, t, hk, ht, hc, hs, h⟩
  · right; right
    rw [h, andThen_next, syncFound_eq]
    have hg : ∀ a, 2 ≤ a → Memory.get? (fbufWrite 1 t.win1 (fbufWrite 0 t.win0 t)).fbuf a = Memory.get? s.fbuf a := by
      intro a ha
      rw [fbufWrite_get? _ _ _ _ (by decide), if_neg (by omega), fbufWrite_get? _ _ _ _ (by decide), if_neg (by omega)]
      obtain ⟨_, _, _, _, _, rfl, -⟩ := ht
      rfl
    have hw : Memory.wf s.fbuf → Memory.wf (fbufWrite 1 t.win1 (fbufWrite 0 t.win0 t)).fbuf := by
      intro hw
      refine fbufWrite_wf _ _ _ (fbufWrite_wf _ _ _ ?_)
      obtain ⟨_, _, _, _, _, rfl, -⟩ := ht
      exact hw
    generalize (fbufWrite 1 t.win1 (fbufWrite 0 t.win0 t)).fbuf = m₀ at hg hw ⊢
    generalize classify t.win0 t.win1 = c at hc
    obtain ⟨w0, w1, q, x, es, rfl, hq, hx⟩ := ht
    rcases readRest_cases n hn hl { s with
        win0 := w0, win1 := w1, line := { s.line with rxq := q, tail := x }, fbuf := m₀
        status := { s.status with hdrClass := c }, rxCnt := 2, dropCnt := saturate16 (k - 2) } with
      ⟨u, ⟨w0', w1', q', x', es', rfl, hq', hx'⟩, hr⟩ |
      ⟨u, j, m, b, ⟨w0', w1', q', x', es', rfl, hq', hx'⟩, hj, hw', hm, hr⟩
    · refine ⟨2, { s with win0 := w0', win1 := w1', line := { s.line with rxq := q', tail := x' } }, m₀, s.lenByte,
        saturate16 (k - 2), c, ⟨w0', w1', q', x', es ++ es', rfl, ?_, fun h => hx' (hx h)⟩, le_refl _, by omega, hw, hg, ?_⟩
      · rw [hq, show q = es' ++ q' from hq', List.append_assoc]
      · rw [hr, if_pos (by omega)]
        rfl
    · refine ⟨3 + j, { s with win0 := w0', win1 := w1', line := { s.line with rxq := q', tail := x' } }, m, b,
        saturate16 (k - 2), c, ⟨w0', w1', q', x', es ++ es', rfl, ?_, fun h => hx' (hx h)⟩, by omega, hj,
        fun h => hw' (hw h), fun a ha => ?_, ?_⟩
      · rw [hq, show q = es' ++ q' from hq', List.append_assoc]
      · rw [hm a (.inr ha)]
        exact hg a (by omega)
      · rw [hr]
  · exact .inl ⟨k, t, ht, by rw [h]; rfl⟩
  · exact .inr (.inl ⟨k, t, hk, ht, hc, hs, by rw [h]; rfl⟩)

/-- How the width check can end. -/
theorem widthCheck_cases (lovr : Bool) (s : State) :
    (∃ d, widthCheck lovr s = .next { s with draws := d }) ∨
    (∃ d, widthCheck lovr s = .raise .lenMismatch { s with payLen := 0, respVal := 0, draws := d }) := by
  unfold widthCheck
  split
  · exact .inl ⟨s.draws, rfl⟩
  · obtain ⟨b, d, h, -⟩ := fbufRead_cases 1 s
    rw [h]
    simp only
    split
    · exact .inr ⟨d, rfl⟩
    · exact .inl ⟨d, rfl⟩

/-- How `HSK` can end after its inner `EXEC` went on to the end. -/
theorem hskEnd_next (s : State) : ∃ d,
    hskEnd (.next s) = .next { s with status := { s.status with hsOk := true }, draws := d } ∧
      s.status.hdrClass = .read ∨
    hskEnd (.next s) = .raise .hsFail { s with status := { s.status with hsOk := false }, draws := d } := by
  obtain ⟨b, d, h, -⟩ := fbufRead_cases 4 s
  refine ⟨d, ?_⟩
  simp only [hskEnd, h]
  split
  · rename_i hc
    exact .inl ⟨rfl, hc.1⟩
  · exact .inr rfl

/-- The length that `EXP_LEN` or a default gives is legal (R171). -/
theorem expLenOperand_bounds {s : State} {n : Nat} (h : expLenOperand s = some n) :
    n = s.expLen.toNat ∧ 5 ≤ n ∧ n ≤ 512 := by
  have h1 : Config.minFrame = 5 := rfl
  have h2 : Config.maxFrame = 512 := rfl
  unfold expLenOperand at h
  split at h <;> cases h
  omega

theorem expectedLen_bounds {lovr : Bool} {s : State} {n : Nat} (h : expectedLen lovr s = some n) :
    5 ≤ n ∧ n ≤ 512 := by
  have h3 : Config.lenRead = 7 := rfl
  have h4 : Config.lenWrite = 8 := rfl
  unfold expectedLen at h
  split at h
  · exact (expLenOperand_bounds h).2
  · split at h
    · cases h; omega
    · split at h <;> cases h
      omega

end Sys2Proof.Machine
end

