-- ==== Sys2Proof/Laws/Transaction.lean ====
section
/-! SUPPORT. Two facts of the CRC (R100), and a transaction of `EXEC` by how it ends, each in one lemma (R171 to
R173, R219). -/

namespace Sys2Proof.Machine

/-- Eight shifts bring a byte in the upper half down to the lower half: no low bit is ever set (R100). -/
theorem iterate_crcShift_shl : ∀ n : Fin 256, Nat.iterate crcShift 8 (BitVec.ofNat 16 n.val <<< 8) = BitVec.ofNat 16 n.val := by
  decide +kernel

/-- Folding in the low byte of a CRC leaves its high byte (R100). -/
theorem crcStep_loByte (c : Half) : crcStep c (loByte c) = (hiByte c).setWidth 16 := by
  have h := iterate_crcShift_shl ⟨(hiByte c).toNat, (hiByte c).isLt⟩
  have e : BitVec.ofNat 16 (hiByte c).toNat = (hiByte c).setWidth 16 := by
    apply BitVec.eq_of_toNat_eq
    have := (hiByte c).isLt
    simp
  rw [show BitVec.ofNat 16 (⟨(hiByte c).toNat, (hiByte c).isLt⟩ : Fin 256).val = (hiByte c).setWidth 16 from e] at h
  unfold crcStep
  rw [← h]
  congr 1
  unfold loByte hiByte
  ext i hi
  interval_cases i <;> simp

/-- A whole transaction of `EXEC` on a line that accepts the request and delivers garbage and a frame (R173). -/
theorem execBody_delivered {s : State} {lo : Bool} {q : List Bool} {g f : List Byte} {rest : List RxEvent}
    (ha : s.line.txAnswers = List.replicate 8 true ++ q) (hL : expectedLen lo s = some f.length)
    (hg : noHeader (g ++ [f.getD 0 0]) = true)
    (hk : classify (f.getD 0 0) (f.getD 1 0) ≠ .unknown) (hq : s.line.rxq = delivered (g ++ f) ++ rest) :
    ∃ m, HoldsFrame f s.fbuf m ∧ execBody false lo s =
      if lo = true ∨ f.length - 5 = expectedWidth (f.getD 1 0) then
        .next (frameReceived g f rest m (requestSent q s))
      else .raise .lenMismatch { frameReceived g f rest m (requestSent q s) with payLen := 0, respVal := 0 } := by
  obtain ⟨h5, hl⟩ := expectedLen_bounds hL
  have ht := transmit_answers (prepareRequest s) 8 q (le_refl _) ha
  rw [if_neg (by omega)] at ht
  obtain ⟨m, hm, hr⟩ := readFrame_delivered (s := transmitted 8 q (prepareRequest s).draws (prepareRequest s)) h5 hl hg hk hq
  refine ⟨m, hm, ?_⟩
  simp only [execBody, hL, ht, andThen_next, Bool.false_eq_true, if_false, hr]
  cases lo with
  | true => simp only [widthCheck, if_true, true_or]; rfl
  | false =>
    simp only [widthCheck, Bool.false_eq_true, if_false, false_or]
    have hf : fbufRead 1 (frameReceived g f rest m (transmitted 8 q (prepareRequest s).draws (prepareRequest s))) =
      (f.getD 1 0, frameReceived g f rest m (transmitted 8 q (prepareRequest s).draws (prepareRequest s))) := by
      refine fbufRead_listed ((hm 1).trans ?_)
      rw [if_pos (by omega), List.getElem?_eq_getElem (by omega), List.getD_eq_getElem _ _ (by omega)]
    rw [hf]
    have hp : (frameReceived g f rest m (transmitted 8 q (prepareRequest s).draws (prepareRequest s))).payLen.toNat = f.length - 5 := by
      show (BitVec.ofNat 16 (f.length - 5)).toNat = _
      rw [BitVec.toNat_ofNat, Nat.mod_eq_of_lt (by omega)]
    simp only [hp, ne_eq, ite_not]
    split <;> rfl

/-- A transaction of `EXEC` whose response falls silent after the header and before its end (R136, R173). -/
theorem execBody_short {s : State} {lo : Bool} {q : List Bool} {g f : List Byte} {n : Nat} {rest : List RxEvent}
    (ha : s.line.txAnswers = List.replicate 8 true ++ q) (hL : expectedLen lo s = some n) (h2 : 2 ≤ f.length)
    (hn : f.length < n) (hg : noHeader (g ++ [f.getD 0 0]) = true)
    (hk : classify (f.getD 0 0) (f.getD 1 0) ≠ .unknown) (hq : FallsSilent (g ++ f) rest s.line) :
    ∃ m, HoldsFrame f s.fbuf m ∧
      execBody false lo s = .raise .timeout (frameCut g f rest m (requestSent q s)) := by
  have ht := transmit_answers (prepareRequest s) 8 q (le_refl _) ha
  rw [if_neg (by omega)] at ht
  obtain ⟨m, hm, hr⟩ := readFrame_short (s := transmitted 8 q (prepareRequest s).draws (prepareRequest s)) h2 hn
    (expectedLen_bounds hL).2 hg hk hq
  refine ⟨m, hm, ?_⟩
  simp only [execBody, hL, ht, andThen_next, Bool.false_eq_true, if_false, hr]
  rfl

/-- A transaction of `EXEC` on a line that falls silent before a known header (R135, R173). -/
theorem execBody_eos {s : State} {lo : Bool} {q : List Bool} {g : List Byte} {rest : List RxEvent}
    (ha : s.line.txAnswers = List.replicate 8 true ++ q) (hL : expectedLen lo s ≠ none) (hg : noHeader g = true)
    (hq : FallsSilent g rest s.line) : ∃ a b, execBody false lo s =
      .raise (if g = [] then .timeout else .badHeader) { requestSent q (rxPrologue s) with
        win0 := a, win1 := b, line := { (requestSent q s).line with rxq := rest }, dropCnt := saturate16 g.length } := by
  obtain ⟨n, hL⟩ := Option.ne_none_iff_exists'.1 hL
  have ht := transmit_answers (prepareRequest s) 8 q (le_refl _) ha
  rw [if_neg (by omega)] at ht
  obtain ⟨a, b, hr⟩ := resync_eos (s := transmitted 8 q (prepareRequest s).draws (prepareRequest s)) hg hq
  refine ⟨a, b, ?_⟩
  simp only [execBody, hL, ht, andThen_next, readFrame, hr, andThen_raise, Bool.false_eq_true, if_false]
  rfl

/-- A transaction of `EXEC` on a line that refuses a byte of the request (R173, R219). -/
theorem execBody_refused {s : State} {nr lo : Bool} {k : Nat} {q : List Bool} (hk : k < 8)
    (ha : s.line.txAnswers = List.replicate k true ++ false :: q) (hL : nr = true ∨ expectedLen lo s ≠ none) :
    execBody nr lo s = .raise .incompleteWrite (transmitted k q s.draws (prepareRequest s)) := by
  have ht := transmit_answers (prepareRequest s) k q (by omega) (by rw [if_pos hk]; exact ha)
  rw [if_pos hk] at ht
  unfold execBody
  cases nr with
  | true => exact ht
  | false =>
    obtain ⟨n, hL⟩ := Option.ne_none_iff_exists'.1 (hL.resolve_left (by simp))
    simp only [hL, ht, andThen_raise, Bool.false_eq_true, if_false]
    rfl

end Sys2Proof.Machine
end

