-- ==== Sys2Proof/Laws/Invariant.lean ====
section
/-! SUPPORT. What each part of the machine does to the invariant `Inv`: one lemma per stretch of pseudocode, per move of
the sequencer and per host access. -/

namespace Sys2Proof.Machine

/-- A length that fits in a frame survives the 16 bits of a register. -/
theorem half_toNat {n : Nat} (h : n ≤ 512) : (BitVec.ofNat 16 n).toNat = n := by
  rw [BitVec.toNat_ofNat, Nat.mod_eq_of_lt (by omega)]

/-- The part of the invariant that is about registers and buffers. -/
structure RegsFit (s : State) : Prop where
  wf : Memory.wf s.fbuf
  tx : s.txCnt.toNat ≤ 8
  rx : s.rxCnt.toNat ≤ Config.maxFrame
  pay : s.payLen = 0 ∨ s.payLen.toNat + 5 = s.rxCnt.toNat

/-- The state runs the command `i`, whose word is `cmd`, from a point that belongs to it. -/
def RunFits (cmd : Word) (i : Instr) (t : State) : Prop :=
  ∃ p n b, t.seq = .run cmd p n b ∧ LegalLen i t ∧ PointFits i p n t

/-- A stretch of pseudocode ends in a state that keeps the invariant, once `Flow.close` has closed it. -/
def FlowFits (cmd : Word) (i : Instr) : Flow → Prop
  | .next t | .raise _ t => RegsFit t
  | .hold t => RegsFit t ∧ RunFits cmd i t

/-- Taking events off the line keeps the registers in range. -/
theorem RegsFit.rxOnly {s t : State} (h : RegsFit s) (ht : RxOnly s t) : RegsFit t := by
  obtain ⟨_, _, _, _, _, rfl, -⟩ := ht
  exact ⟨h.wf, h.tx, h.rx, h.pay⟩

/-- The receive prologue keeps the registers in range. -/
theorem RegsFit.prologue {s : State} (h : RegsFit s) : RegsFit (rxPrologue s) := ⟨h.wf, h.tx, (Nat.le_of_ble_eq_true rfl), .inl rfl⟩

/-- Sequencing keeps the invariant. -/
theorem flowFits_andThen {cmd : Word} {i : Instr} {f : Flow} {k : State → Flow} (hf : FlowFits cmd i f) (hk : ∀ t, f = .next t → FlowFits cmd i (k t)) : FlowFits cmd i (f.andThen k) := by
  cases f with
  | next t => exact hk t rfl
  | raise => exact hf
  | hold => exact hf

/-- Delivering a whole frame of `n` bytes keeps the registers in range. -/
theorem RegsFit.deliver {s : State} {n : Nat} (h : RegsFit s) (h5 : 5 ≤ n) (hl : n ≤ 512) (hn : s.rxCnt.toNat = n) : RegsFit (deliver n s) := by
  obtain ⟨c, e, v, d, hd⟩ := deliver_cases n s
  rw [hd]
  refine ⟨h.wf, h.tx, h.rx, .inr ?_⟩
  show (BitVec.ofNat 16 (n - 5)).toNat + 5 = s.rxCnt.toNat
  rw [half_toNat (by omega), hn]; omega

/-- `width_check` keeps the invariant (R172). -/
theorem flowFits_widthCheck {cmd : Word} {i : Instr} (lo : Bool) {s : State} (h : RegsFit s) : FlowFits cmd i (widthCheck lo s) := by
  rcases widthCheck_cases lo s with ⟨d, e⟩ | ⟨d, e⟩ <;> rw [e]
  · exact ⟨h.wf, h.tx, h.rx, h.pay⟩
  · exact ⟨h.wf, h.tx, h.rx, .inl rfl⟩

/-- The end of `HSK` keeps the invariant (R174). -/
theorem flowFits_hskEnd {cmd : Word} {i : Instr} {f : Flow} (h : FlowFits cmd i f) : FlowFits cmd i (hskEnd f) := by
  cases f with
  | next t =>
    obtain ⟨d, ⟨e, -⟩ | e⟩ := hskEnd_next t <;> rw [e] <;> exact ⟨h.wf, h.tx, h.rx, h.pay⟩
  | raise c t => exact ⟨h.wf, h.tx, h.rx, h.pay⟩
  | hold t => exact h

variable {fl : Flags}

/-- The search for a header keeps the invariant (R133). -/
theorem flowFits_resync {cmd : Word} {i : Instr} {s : State} {p : SeqPoint} {n : Nat} (h : RegsFit s) (hs : s.seq = .run cmd p n fl) (hr : readsLine i = true) (h0 : s.rxCnt = 0) (hp : s.payLen = 0)
    (hL : LegalLen i s) : FlowFits cmd i (resync s) := by
  rcases resync_cases s with ⟨k, t, hk, ht, hc, e⟩ | ⟨k, t, ht, e⟩ | ⟨k, t, hk, ht, hc, hs', e⟩
  · rw [e, syncFound_eq]
    have := h.rxOnly ht
    obtain ⟨_, _, _, _, _, rfl, -⟩ := ht
    exact ⟨fbufWrite_wf _ _ _ (fbufWrite_wf _ _ _ this.wf), this.tx, (Nat.le_of_ble_eq_true rfl), .inl hp⟩
  · rw [e]
    have := h.rxOnly ht
    exact ⟨this.wf, this.tx, this.rx, this.pay⟩
  · rw [e]
    have := h.rxOnly ht
    obtain ⟨_, _, _, _, _, rfl, -⟩ := ht
    simp only [setPoint, hs]
    exact ⟨⟨this.wf, this.tx, this.rx, this.pay⟩, _, _, _, rfl, fun hh => by have := hL hh; cases i <;> exact this, hr, hk, hc, h0, hp⟩

/-- The frame read keeps the invariant (R136). -/
theorem flowFits_readFrame {cmd : Word} {i : Instr} {s : State} {p : SeqPoint} {q n : Nat} (h : RegsFit s) (hs : s.seq = .run cmd p q fl) (hr : readsLine i = true) (h0 : s.rxCnt = 0) (hp : s.payLen = 0)
    (hL : LegalLen i s) (h5 : 5 ≤ n) (hl : n ≤ 512) : FlowFits cmd i (readFrame n s) := by
  rcases readFrame_cases n (by omega) hl s with ⟨k, t, ht, e⟩ | ⟨k, t, hk, ht, hc, -, e⟩ | ⟨r, t, m, b, d, c, ht, h2, hrn, hw, -, e⟩
  · rw [e]
    have := h.rxOnly ht
    exact ⟨this.wf, this.tx, this.rx, this.pay⟩
  · rw [e]
    have := h.rxOnly ht
    obtain ⟨_, _, _, _, _, rfl, -⟩ := ht
    simp only [setPoint, hs]
    exact ⟨⟨this.wf, this.tx, this.rx, this.pay⟩, _, _, _, rfl, fun hh => by have := hL hh; cases i <;> exact this, hr, hk, hc, h0, hp⟩
  · rw [e]
    have := h.rxOnly ht
    obtain ⟨_, _, _, _, _, rfl, -⟩ := ht
    have hR : ∀ u : State, u.fbuf = m → u.txCnt = s.txCnt → u.rxCnt = BitVec.ofNat 16 r → u.payLen = 0 → RegsFit u := by
      intro u h1 h2 h3 h4
      exact ⟨h1 ▸ hw h.wf, h2 ▸ h.tx, by rw [h3, half_toNat (by omega)]; unfold Config.maxFrame; omega, .inl h4⟩
    split
    · exact hR _ rfl rfl rfl hp
    · refine RegsFit.deliver (hR _ rfl rfl rfl hp) h5 hl ?_
      show (BitVec.ofNat 16 r).toNat = n
      rw [half_toNat (by omega)]; omega

/-- A transaction keeps the invariant (R173). -/
theorem flowFits_execBody {cmd : Word} {i : Instr} {s : State} {p : SeqPoint} {q : Nat} {nr lo : Bool} (h : RegsFit s) (hs : s.seq = .run cmd p q fl)
    (hr : nr = false → readsLine i = true) (hL : nr = false → ∀ n, expectedLen lo s = some n → LegalLen i s) : FlowFits cmd i (execBody nr lo s) := by
  have ht : ∃ f, transmit (prepareRequest s) = f ∧ FlowFits cmd i f ∧ ∀ t, f = .next t → RegsFit t ∧ t.seq = s.seq ∧ t.rxCnt = 0 ∧ t.payLen = 0 ∧ t.req = s.req ∧ t.expLen = s.expLen := by
    obtain ⟨k, x, d, hk, e⟩ := transmit_cases (prepareRequest s)
    have hR : RegsFit (transmitted k x d (prepareRequest s)) := ⟨h.wf, by
      show (BitVec.ofNat 4 k).toNat ≤ 8
      rw [BitVec.toNat_ofNat, Nat.mod_eq_of_lt (by omega)]; exact hk, (Nat.le_of_ble_eq_true rfl), .inl rfl⟩
    refine ⟨_, e, ?_, fun t ht => ?_⟩
    · split <;> exact hR
    · split at ht <;> cases ht
      exact ⟨hR, rfl, rfl, rfl, rfl, rfl⟩
  obtain ⟨f, hf, hg, hn⟩ := ht
  unfold execBody
  cases nr with
  | true => rw [if_pos rfl, hf]; exact hg
  | false =>
    rw [if_neg (by simp), hf]
    cases hl : expectedLen lo s with
    | none => exact h
    | some n =>
      obtain ⟨h5, h512⟩ := expectedLen_bounds hl
      refine flowFits_andThen (flowFits_andThen hg fun t ht => ?_) fun t ht => ?_
      · obtain ⟨a, b, c, d, e, g⟩ := hn t ht
        refine flowFits_readFrame a (b.trans hs) (hr rfl) c d (fun hh => ?_) h5 h512
        have := hL rfl n hl hh
        have key : runningLen i t = runningLen i s := by
          cases i <;> simp only [runningLen, expectedLen, expLenOperand, e, g]
        rw [key]; exact this
      · have : ∀ t, (f.andThen (readFrame n)) = .next t → RegsFit t := by
          intro t ht'
          have : FlowFits cmd i (f.andThen (readFrame n)) := flowFits_andThen hg fun t ht => by
            obtain ⟨a, b, c, d, e, g⟩ := hn t ht
            refine flowFits_readFrame a (b.trans hs) (hr rfl) c d (fun hh => ?_) h5 h512
            have := hL rfl n hl hh
            have key : runningLen i t = runningLen i s := by
              cases i <;> simp only [runningLen, expectedLen, expLenOperand, e, g]
            rw [key]; exact this
          rw [ht'] at this
          exact this
        exact flowFits_widthCheck lo (this t ht)

/-- The whole run of a command keeps the invariant. -/
theorem flowFits_commandBody {cmd : Word} {i : Instr} {s : State} {p : SeqPoint} {q : Nat} (h : RegsFit s) (hs : s.seq = .run cmd p q fl) : FlowFits cmd i (commandBody i s) := by
  cases i with
  | nop => exact h
  | crci => exact ⟨h.wf, h.tx, h.rx, h.pay⟩
  | crcb b => exact ⟨h.wf, h.tx, h.rx, h.pay⟩
  | crcg =>
    simp only [commandBody, crcgBody]
    split
    · exact h
    · rename_i n _
      obtain ⟨bs, d, e, -⟩ := fbufRange_cases n 0 s
      simp only [e]
      exact ⟨h.wf, h.tx, h.rx, h.pay⟩
  | crcv =>
    simp only [commandBody, crcvBody]
    split
    · exact h
    · rename_i n _
      split
      · exact ⟨h.wf, h.tx, h.rx, h.pay⟩
      · obtain ⟨c, e, d, hh⟩ := checkFrame_cases n s
        rw [hh]
        exact ⟨h.wf, h.tx, h.rx, h.pay⟩
  | hdrc =>
    obtain ⟨b, d, e, -⟩ := fbufRead_cases 0 s
    obtain ⟨b', d', e', -⟩ := fbufRead_cases 1 { s with draws := d }
    simp only [commandBody, hdrcBody, e, e']
    exact ⟨h.wf, h.tx, h.rx, h.pay⟩
  | enc => exact ⟨h.wf, h.tx, h.rx, h.pay⟩
  | send =>
    obtain ⟨k, x, d, hk, e⟩ := transmit_cases s
    have hR : RegsFit (transmitted k x d s) := ⟨h.wf, by
      show (BitVec.ofNat 4 k).toNat ≤ 8
      rw [BitVec.toNat_ofNat, Nat.mod_eq_of_lt (by omega)]; exact hk, h.rx, h.pay⟩
    simp only [commandBody, sendBody, e]
    split <;> exact hR
  | sync => exact flowFits_resync h.prologue hs rfl rfl rfl (fun hh => by simp [readsFrame] at hh)
  | rdf =>
    simp only [commandBody, rdfBody]
    cases hL : expLenOperand s with
    | none => exact h
    | some n =>
      obtain ⟨e, h5, hl⟩ := expLenOperand_bounds hL
      exact flowFits_readFrame h.prologue hs rfl rfl rfl (fun _ => by subst e; exact ⟨h5, hl⟩) h5 hl
  | exec nr lo =>
    refine flowFits_execBody h hs (fun hh => by simp [readsLine, hh]) (fun hh n hn _ => ?_)
    obtain ⟨h5, hl⟩ := expectedLen_bounds hn
    simp only [runningLen, hn]
    exact ⟨h5, hl⟩
  | hsk =>
    refine flowFits_hskEnd (flowFits_execBody (s := hskBegin s) ⟨h.wf, h.tx, h.rx, h.pay⟩ hs (fun _ => rfl) (fun hh n hn _ => ?_))
    exact ⟨show 5 ≤ 7 by omega, show 7 ≤ 512 by omega⟩
  | pace => exact ⟨h.wf, h.tx, h.rx, h.pay⟩

/-- The start of a command keeps the invariant. -/
theorem flowFits_begin {cmd : Word} {i : Instr} {s : State} {q : Nat} (h : RegsFit s) (hs : s.seq = .run cmd (entryPoint i) q fl) (hq : q = 0) : FlowFits cmd i (begin i s) := by
  subst hq
  have hloc : ∀ k, entryPoint i = .crcLoop k → readsFrame i = false → RegsFit s ∧ RunFits cmd i s := by
    intro k hk hrf
    refine ⟨h, _, _, _, hs, fun hh => by (rw [hrf] at hh; cases hh), ?_⟩
    rw [hk]
    cases i <;> first | rfl | simp [entryPoint] at hk
  cases i with
  | send => exact ⟨h, _, _, _, hs, fun hh => by simp [readsFrame] at hh, (Nat.le_of_ble_eq_true rfl), rfl, fun hh => by simp [awaitsResponse] at hh⟩
  | sync => exact ⟨h.prologue, _, _, _, hs, fun hh => by simp [readsFrame] at hh, rfl, (Nat.le_of_ble_eq_true rfl), rfl, rfl⟩
  | rdf =>
    simp only [begin]
    cases hL : expLenOperand s with
    | none => exact h
    | some n =>
      obtain ⟨e, h5, hl⟩ := expLenOperand_bounds hL
      exact ⟨h.prologue, _, _, _, hs, fun hh => by subst e; exact ⟨h5, hl⟩, rfl, (Nat.le_of_ble_eq_true rfl), rfl, rfl⟩
  | exec nr lo =>
    have hR : RegsFit (prepareRequest s) := ⟨h.wf, (Nat.le_of_ble_eq_true rfl), (Nat.le_of_ble_eq_true rfl), .inl rfl⟩
    simp only [begin]
    cases nr with
    | true => exact ⟨hR, _, _, _, hs, fun hh => by simp [readsFrame] at hh, (Nat.le_of_ble_eq_true rfl), rfl, fun hh => by simp [awaitsResponse] at hh⟩
    | false =>
      rw [if_neg (by simp)]
      cases hL : expectedLen lo s with
      | none => exact h
      | some n =>
        obtain ⟨h5, hl⟩ := expectedLen_bounds hL
        refine ⟨hR, _, _, _, hs, fun hh => ?_, (Nat.le_of_ble_eq_true rfl), rfl, fun _ => ⟨rfl, rfl⟩⟩
        have : runningLen (.exec false lo) (prepareRequest s) = n := by
          show (expectedLen lo s).getD 0 = n
          rw [hL]; rfl
        rw [this]; exact ⟨h5, hl⟩
  | hsk =>
    refine ⟨⟨h.wf, (Nat.le_of_ble_eq_true rfl), (Nat.le_of_ble_eq_true rfl), .inl rfl⟩, _, _, _, hs, fun hh => ?_, (Nat.le_of_ble_eq_true rfl), rfl, fun _ => ⟨rfl, rfl⟩⟩
    exact ⟨show 5 ≤ 7 by omega, show 7 ≤ 512 by omega⟩
  | pace => exact ⟨h, _, _, _, hs, fun hh => by simp [readsFrame] at hh, rfl⟩
  | _ => exact hloc 0 rfl rfl

/-- `LegalLen` depends on `EXP_LEN` and `REQ` only. -/
theorem legalLen_of_eq {i : Instr} {s t : State} (h1 : t.expLen = s.expLen) (h2 : t.req = s.req) (h : LegalLen i s) : LegalLen i t := by
  intro hh
  have key : runningLen i t = runningLen i s := by
    cases i <;> simp only [runningLen, expectedLen, expLenOperand, h1, h2]
  rw [key]; exact h hh

/-- `legalLen_of_eq`, from the state that is known to be legal. -/
theorem LegalLen.congr {i : Instr} {s t : State} (h : LegalLen i s) (h1 : t.expLen = s.expLen) (h2 : t.req = s.req) : LegalLen i t := legalLen_of_eq h1 h2 h

/-- Taking one event changes the line only. -/
theorem rxPop_line_only {s t : State} {e : RxEvent} (h : rxPop s = (e, t)) : ∃ q x, t = { s with line := { s.line with rxq := q, tail := x } } := by
  obtain ⟨e', q, x, h', -⟩ := rxPop_cases s
  rw [h] at h'; cases h'
  exact ⟨q, x, rfl⟩

/-- The end of the stream keeps the invariant (R135). -/
theorem flowFits_eos {cmd : Word} {i : Instr} {t : State} (n : Nat) (h : RegsFit t) : FlowFits cmd i (syncEos n t) := ⟨h.wf, h.tx, h.rx, h.pay⟩

/-- Judging a full window keeps the invariant (R133). -/
theorem flowFits_windowFull {cmd : Word} {i : Instr} {t : State} {p : SeqPoint} {k : Nat} (n : Nat) (h : RegsFit t) (hs : t.seq = .run cmd p k fl) (hr : readsLine i = true) (hn : 2 ≤ n) (h0 : t.rxCnt = 0) (hp : t.payLen = 0)
   (hL : LegalLen i t) : FlowFits cmd i (windowFull i n t) := by
  unfold windowFull
  split
  · simp only
    rw [syncFound_eq]
    have hR : RegsFit { t with
        fbuf := (fbufWrite 1 t.win1 (fbufWrite 0 t.win0 t)).fbuf
        status := { t.status with hdrClass := classify t.win0 t.win1 }
        rxCnt := 2, dropCnt := saturate16 (n - 2) } := ⟨fbufWrite_wf _ _ _ (fbufWrite_wf _ _ _ h.wf), h.tx, (Nat.le_of_ble_eq_true rfl), .inl hp⟩
    split
    · exact hR
    · rename_i hi
      simp only [setPoint, hs]
      refine ⟨⟨hR.wf, hR.tx, hR.rx, hR.pay⟩, _, _, _, rfl, LegalLen.congr hL rfl rfl, ?_, rfl, hp⟩
      cases i <;> first | exact hr | simp at hi
  · rename_i hc
    simp only [setPoint, hs]
    refine ⟨⟨h.wf, h.tx, h.rx, h.pay⟩, _, _, _, rfl, LegalLen.congr hL rfl rfl, hr, hn, by simpa using hc, h0, hp⟩

/-- One move of the sequencer keeps the invariant. -/
theorem flowFits_moveFrom {cmd : Word} {i : Instr} {s : State} {p : SeqPoint} {n : Nat} (h : RegsFit s) (hs : s.seq = .run cmd p n fl) (hL : LegalLen i s) (hp : PointFits i p n s) : FlowFits cmd i (moveFrom i p n s) := by
  cases p with
  | crcLoop k =>
    have : localBody i s = commandBody i s := by
      have : entryPoint i = .crcLoop 0 := hp
      cases i <;> first | rfl | simp [entryPoint] at this
    simp only [moveFrom, this]
    exact flowFits_commandBody h hs
  | tx k =>
    obtain ⟨hk, he, ha⟩ := hp
    simp only [moveFrom, moveTx]
    obtain ⟨ok, q, d, e⟩ := txOffer_cases (txByte s.txbuf k) s
    rw [e]
    cases ok with
    | false =>
      refine ⟨h.wf, ?_, h.rx, h.pay⟩
      show (BitVec.ofNat 4 k).toNat ≤ 8
      rw [BitVec.toNat_ofNat, Nat.mod_eq_of_lt (by omega)]; omega
    | true =>
      simp only
      split
      · simp only [setPoint, hs]
        exact ⟨⟨h.wf, h.tx, h.rx, h.pay⟩, _, _, _, rfl, LegalLen.congr hL rfl rfl, by assumption, he, ha⟩
      · split
        · rename_i hw
          simp only [setPoint, hs]
          refine ⟨⟨h.wf, (Nat.le_of_ble_eq_true rfl), h.rx, h.pay⟩, _, _, _, rfl, LegalLen.congr hL rfl rfl, ?_, (Nat.le_of_ble_eq_true rfl), ha hw⟩
          cases i <;> first | exact hw | simp [awaitsResponse] at hw
        · exact ⟨h.wf, (Nat.le_of_ble_eq_true rfl), h.rx, h.pay⟩
  | syncFill =>
    obtain ⟨hr, hn, h0, hpay⟩ := hp
    simp only [moveFrom, moveSyncFill]
    rcases hpop : rxPop s with ⟨e, t⟩
    obtain ⟨q, x, rfl⟩ := rxPop_line_only hpop
    cases e with
    | gap => exact flowFits_eos n ⟨h.wf, h.tx, h.rx, h.pay⟩
    | byte b =>
      simp only
      split
      · simp only [setPoint, hs]
        exact ⟨⟨h.wf, h.tx, h.rx, h.pay⟩, _, _, _, rfl, LegalLen.congr hL rfl rfl, hr, (Nat.le_of_ble_eq_true rfl), h0, hpay⟩
      · exact flowFits_windowFull (n + 1) (t := { s with line := { s.line with rxq := q, tail := x }, win1 := b }) ⟨h.wf, h.tx, h.rx, h.pay⟩ hs hr (by omega) h0 hpay (LegalLen.congr hL rfl rfl)
  | syncSlide =>
    obtain ⟨hr, hn, hc, h0, hpay⟩ := hp
    simp only [moveFrom, moveSyncSlide]
    rcases hpop : rxPop { s with win0 := s.win1 } with ⟨e, t⟩
    obtain ⟨q, x, rfl⟩ := rxPop_line_only hpop
    cases e with
    | gap => exact flowFits_eos n ⟨h.wf, h.tx, h.rx, h.pay⟩
    | byte b => exact flowFits_windowFull (n + 1) (t := { s with win0 := s.win1, line := { s.line with rxq := q, tail := x }, win1 := b }) ⟨h.wf, h.tx, h.rx, h.pay⟩ hs hr (by omega) h0 hpay (LegalLen.congr hL rfl rfl)
  | lenByte =>
    obtain ⟨hr, h2, hpay⟩ := hp
    simp only [moveFrom, moveLenByte]
    rcases hpop : rxPop s with ⟨e, t⟩
    obtain ⟨q, x, rfl⟩ := rxPop_line_only hpop
    cases e with
    | gap => exact ⟨h.wf, h.tx, h.rx, h.pay⟩
    | byte b =>
      have hlen := (hL hr).1
      have e : storeLenByte b { s with line := { s.line with rxq := q, tail := x } } = { s with line := { s.line with rxq := q, tail := x }, fbuf := (fbufWrite 2 b s).fbuf, lenByte := b, rxCnt := 3 } := rfl
      simp only [setPoint, hs]
      refine ⟨⟨fbufWrite_wf 2 b s h.wf, h.tx, (Nat.le_of_ble_eq_true rfl), .inl hpay⟩, _, _, _, rfl, LegalLen.congr hL rfl rfl, hr, ?_, rfl, hpay⟩
      have hrl : ∀ u : State, u.expLen = s.expLen → u.req = s.req → runningLen i s = runningLen i u := by
        intro u h1 h2
        cases i <;> simp only [runningLen, expectedLen, expLenOperand, h1, h2]
      refine lt_of_lt_of_eq ?_ (hrl _ rfl rfl); unfold Config.minFrame at hlen; omega
  | body m =>
    obtain ⟨hr, hm, hx, hpay⟩ := hp
    simp only [moveFrom, moveBody]
    rcases hpop : rxPop s with ⟨e, t⟩
    obtain ⟨q, x, rfl⟩ := rxPop_line_only hpop
    cases e with
    | gap => exact ⟨h.wf, h.tx, h.rx, h.pay⟩
    | byte b =>
      have hlen := hL hr
      have hc : Config.hdrConsumed = 3 := rfl
      have hmf : Config.maxFrame = 512 := rfl
      have e : fbufWrite (3 + m) b { s with line := { s.line with rxq := q, tail := x } } = { s with line := { s.line with rxq := q, tail := x }, fbuf := (fbufWrite (3 + m) b s).fbuf } := by
        rw [fbufWrite_eq, fbufWrite_fbuf_congr (3 + m) b (s := { s with line := { s.line with rxq := q, tail := x } }) (t := s) rfl]
      have hrl : ∀ u : State, u.expLen = s.expLen → u.req = s.req → runningLen i u = runningLen i s := by
        intro u h1 h2
        cases i <;> simp only [runningLen, expectedLen, expLenOperand, h1, h2]
      have hrl' : ∀ u : State, u.expLen = s.expLen → u.req = s.req → runningLen i s = runningLen i u := fun u h1 h2 => (hrl u h1 h2).symm
      have hbound : (BitVec.ofNat 16 (3 + (m + 1))).toNat = 3 + (m + 1) := half_toNat (by omega)
      have hR : ∀ u : State, u.fbuf = (fbufWrite (3 + m) b s).fbuf → u.txCnt = s.txCnt → u.rxCnt = BitVec.ofNat 16 (3 + (m + 1)) → u.payLen = 0 → RegsFit u := by
        intro u h1 h2 h3 h4
        exact ⟨h1 ▸ fbufWrite_wf _ _ _ h.wf, h2 ▸ h.tx, by rw [h3, hbound]; omega, .inl h4⟩
      simp only [e]
      split
      · simp only [setPoint, hs]
        refine ⟨hR _ rfl rfl rfl hpay, _, _, _, rfl, LegalLen.congr hL rfl rfl, hr, ?_, hbound, hpay⟩
        refine lt_of_lt_of_eq ?_ (hrl' _ rfl rfl); omega
      · simp only [setPoint, hs]
        refine ⟨hR _ rfl rfl rfl hpay, _, _, _, rfl, LegalLen.congr hL rfl rfl, hr, ?_, hpay⟩
        refine hbound.trans (Eq.trans ?_ (hrl' _ rfl rfl))
        omega
  | check =>
    obtain ⟨hr, hx, hpay⟩ := hp
    have hlen := hL hr
    have hR := h.deliver (n := runningLen i s) hlen.1 hlen.2 hx
    simp only [moveFrom, moveCheck]
    cases i <;> first | exact flowFits_widthCheck _ hR | exact hR
  | pace => exact ⟨h.wf, h.tx, h.rx, h.pay⟩

/-- A stretch that keeps the invariant, closed, meets it. -/
theorem Inv.ofClose {s : State} {cmd : Word} {i : Instr} {f : Flow} (hk : f.Kept s) (hb : s.status.busy = true) (hd : s.status.done = false) (hr : s.rst = false)
    (hc : decode cmd = .ok i) (ht : touchesLine i = true → s.status.fatal = false) (hg : FlowFits cmd i f) : Inv f.close := by
  cases f with
  | next t => exact ⟨hg.wf, by simp [complete], fun h => (by cases h), hg.tx, hg.rx, hg.pay, fun h => by (have := hk.rst.trans hr; rw [show (Flow.next t).close.rst = t.rst from rfl, this] at h; cases h), trivial⟩
  | raise c t => exact ⟨hg.wf, by simp [complete], fun h => (by cases h), hg.tx, hg.rx, hg.pay, fun h => by (have := hk.rst.trans hr; rw [show (Flow.raise c t).close.rst = t.rst from rfl, this] at h; cases h), trivial⟩
  | hold t =>
    obtain ⟨hR, p, n, b, hs, hL, hp⟩ := hg
    refine ⟨hR.wf, ?_, fun _ => hk.done.trans hd, hR.tx, hR.rx, hR.pay, fun h => by (have := hk.rst.trans hr; rw [show (Flow.hold t).close.rst = t.rst from rfl, this] at h; cases h), ?_⟩
    · rw [show (Flow.hold t).close = t from rfl, hs]
      simp [hk.busy.trans hb]
    · unfold SeqFits
      rw [show (Flow.hold t).close = t from rfl, hs]
      exact ⟨i, hc, fun h => hk.fatal.trans (ht h), hL, hp⟩

/-- The host's side of the bus and the draw counter do not matter to the invariant. -/
theorem Inv.withHost {s : State} (h : Inv s) (hh : HostSide) (d : Nat) : Inv { s with host := hh, draws := d } := by
  refine ⟨h.fbufWf, h.busyIff, h.notDone, h.txCount, h.rxCount, h.payload, fun hr => ?_, ?_⟩
  · have := h.inReset hr
    conv_lhs => rw [this]
    rfl
  · have := h.seqFits
    unfold SeqFits at this ⊢
    simp only
    split
    · trivial
    · rename_i cmd p n fl hs
      rw [hs] at this
      obtain ⟨i, h1, h2, h3, h4⟩ := this
      refine ⟨i, h1, h2, LegalLen.congr h3 rfl rfl, ?_⟩
      cases p <;> first | exact h4 | (obtain ⟨a, b, c⟩ := h4; exact ⟨a, by cases i <;> exact b, c⟩)

/-- A change of `STATUS` that leaves `BUSY` and `FATAL`, and `DONE` at 0 while busy, keeps the invariant. -/
theorem Inv.withStatus {s : State} (h : Inv s) (hr : s.rst = false) {st : Status} (hb : st.busy = s.status.busy) (hd : st.busy = true → st.done = false) (hf : st.fatal = s.status.fatal) : Inv { s with status := st } := by
  refine ⟨h.fbufWf, by simpa [hb] using h.busyIff, hd, h.txCount, h.rxCount, h.payload, fun h => by (simp only [hr] at h; cases h), ?_⟩
  have := h.seqFits
  unfold SeqFits at this ⊢
  simp only
  split
  · trivial
  · rename_i cmd p n fl hs
    rw [hs] at this
    obtain ⟨i, h1, h2, h3, h4⟩ := this
    refine ⟨i, h1, fun h => hf.trans (h2 h), LegalLen.congr h3 rfl rfl, ?_⟩
    cases p <;> first | exact h4 | (obtain ⟨a, b, c⟩ := h4; exact ⟨a, by cases i <;> exact b, c⟩)

/-- The register part of the invariant. -/
theorem Inv.regsFit {s : State} (h : Inv s) : RegsFit s := ⟨h.fbufWf, h.txCount, h.rxCount, h.payload⟩

/-- A machine whose sequencer runs is busy, not done, and out of reset. -/
theorem Inv.running {s : State} (h : Inv s) {cmd p n fl} (hs : s.seq = .run cmd p n fl) : s.status.busy = true ∧ s.status.done = false ∧ s.rst = false := by
  have hb : s.status.busy = true := h.busyIff.2 (by rw [hs]; simp)
  refine ⟨hb, h.notDone hb, ?_⟩
  cases hr : s.rst with
  | false => rfl
  | true =>
    have := h.inReset hr
    rw [this] at hb; cases hb

/-- What the invariant says of a running command. -/
theorem Inv.fits {s : State} (h : Inv s) {cmd p n fl i} (hs : s.seq = .run cmd p n fl) (hd : decode cmd = .ok i) :
    (touchesLine i = true → s.status.fatal = false) ∧ LegalLen i s ∧ PointFits i p n s := by
  have hq := h.seqFits
  unfold SeqFits at hq
  rw [hs] at hq
  obtain ⟨j, hj, hfat, hL, hp⟩ := hq
  rw [hd] at hj; cases hj
  exact ⟨hfat, hL, hp⟩

/-- A host write to a register keeps the invariant (R65, R71). -/
theorem Inv.store (a : Offset) (v : Word) {s : State} (hi : Inv s) : Inv (hostStore a v s) := by
  cases hr : s.rst with
  | true => rw [show hostStore a v s = s by simp only [hostStore, hr, if_true]]; exact hi
  | false =>
    cases hbusy : s.status.busy with
    | true =>
      obtain ⟨i, t, c, n, l, r, m, e, -, ht, -, -, -, -, hkeep⟩ := hostStore_cases a v s
      obtain ⟨rfl, rfl, rfl, rfl, rfl⟩ := hkeep hbusy
      rw [e]
      have : Inv { s with status := t } := by
        rcases ht with rfl | ⟨-, rfl⟩
        · exact hi
        · refine Inv.withStatus hi hr rfl (fun _ => ?_) rfl
          simp [Status.writeOneToClear, hi.notDone hbusy]
      refine ⟨this.fbufWf, this.busyIff, this.notDone, this.txCount, this.rxCount, this.payload, fun h => by (simp only [hr] at h; cases h), ?_⟩
      have := this.seqFits
      unfold SeqFits at this ⊢
      simp only at this ⊢
      split
      · trivial
      · rename_i cmd p n fl hs
        rw [hs] at this
        obtain ⟨i, h1, h2, h3, h4⟩ := this
        refine ⟨i, h1, h2, LegalLen.congr h3 rfl rfl, ?_⟩
        cases p <;> first | exact h4 | (obtain ⟨a, b, c⟩ := h4; exact ⟨a, by cases i <;> exact b, c⟩)
    | false =>
      obtain ⟨i, t, c, n, l, r, m, e, -, ht, -, -, hw, -⟩ := hostStore_cases a v s
      have hseq : s.seq = .idle := by
        by_contra hne
        rw [hi.busyIff.2 hne] at hbusy; cases hbusy
      have htb : t.busy = false := by
        rcases ht with rfl | ⟨-, rfl⟩
        · exact hbusy
        · exact hbusy
      rw [e]
      refine ⟨hw hi.fbufWf, by simp [htb, hseq], fun h => by (rw [htb] at h; cases h), hi.txCount, hi.rxCount, hi.payload, fun h => by (simp only [hr] at h; cases h), ?_⟩
      unfold SeqFits; simp only [hseq]

end Sys2Proof.Machine
end

