-- ==== Sys2Proof/Laws/Moves.lean ====
section
/-! SUPPORT. The sequencer's moves, one at a time, come to what the atomic transition gives (R36, R72): each stretch of
pseudocode, and the whole of a command. -/

namespace Sys2Proof.Machine

/-- `rxPop`, as a function of the line alone. -/
def popLine (l : Line) : RxEvent × Line :=
  match l.rxq with
  | e :: q => (e, { l with rxq := q })
  | [] => match l.tail with
    | .silent => (.gap, l)
    | .endless n => (Config.lineEvent n, { l with tail := .endless (n + 1) })

/-- `rxPop` touches the line only. -/
theorem rxPop_eq (s : State) : rxPop s = ((popLine s.line).1, { s with line := (popLine s.line).2 }) := by
  cases s with | mk ie st crc bl el rq tb tc rc pl rv lb dc fb sq w0 w1 rs line hh dr wt =>
  cases line with | mk rxq tail an lg =>
  cases rxq with
  | cons e q => rfl
  | nil => cases tail <;> rfl

/-- `rxRead`, as a function of the line alone. -/
def readLine : Nat → Line → List Byte × Line
  | 0, l => ([], l)
  | n + 1, l =>
    match popLine l with
    | (.gap, l₁) => ([], l₁)
    | (.byte b, l₁) => (b :: (readLine n l₁).1, (readLine n l₁).2)

/-- `rxRead` touches the line only. -/
theorem rxRead_eq (n : Nat) : ∀ s : State, rxRead n s = ((readLine n s.line).1, { s with line := (readLine n s.line).2 }) := by
  induction n with
  | zero => intro s; rfl
  | succ n ih =>
    intro s
    rw [rxRead, rxPop_eq, readLine]
    rcases popLine s.line with ⟨e, l⟩
    cases e with
    | gap => rfl
    | byte b => simp only [ih]

/-- A read gives at most the bytes asked for (R40). -/
theorem readLine_length (n : Nat) : ∀ l, (readLine n l).1.length ≤ n := by
  induction n with
  | zero => intro l; exact le_refl _
  | succ n ih =>
    intro l
    rw [readLine]
    rcases popLine l with ⟨e, l⟩
    cases e with
    | gap => simp
    | byte b => simp [ih]

variable {cmd : Word} {i : Instr} {fl : Flags}

/-- The state a move ends in, `HSK` wrapping the end of its inner transaction. -/
def ending (i : Instr) (f : Flow) : State := (wrapEnd i f).close

/-- A command that still runs is left as it is. -/
theorem ending_hold (s : State) : ending i (.hold s) = s := by
  unfold ending wrapEnd; split <;> rfl

/-- From the ending of `f`, some number of moves comes to the ending of `g`. -/
def Goes (i : Instr) (f g : Flow) : Prop := ∃ n, seqMoves n (ending i f) = ending i g

/-- Moves add up. -/
theorem seqMoves_add (m n : Nat) (s : State) : seqMoves (m + n) s = seqMoves n (seqMoves m s) := by
  induction m generalizing s with
  | zero => simp [seqMoves]
  | succ m ih => rw [show m + 1 + n = (m + n) + 1 by omega, seqMoves, ih, seqMoves]

/-- No move. -/
theorem Goes.refl (f : Flow) : Goes i f f := ⟨0, rfl⟩
/-- Equal endings. -/
theorem Goes.of_eq {f g : Flow} (h : ending i f = ending i g) : Goes i f g := ⟨0, h⟩
/-- Moves one after the other. -/
theorem Goes.trans {f g h : Flow} (a : Goes i f g) (b : Goes i g h) : Goes i f h := by
  obtain ⟨m, hm⟩ := a
  obtain ⟨n, hn⟩ := b
  exact ⟨m + n, by rw [seqMoves_add, hm, hn]⟩

/-- One move of a running command. -/
theorem Goes.move {s : State} {p : SeqPoint} {n : Nat} (hd : decode cmd = .ok i) (hs : s.seq = .run cmd p n fl) : Goes i (.hold s) (moveFrom i p n s) := by
  refine ⟨1, ?_⟩
  rw [ending_hold, seqMoves, seqMoves, seqMove, hs]
  simp only [hd]
  rfl

/-- Equal but for `SEQ`, which a completed command does not keep. -/
def SameBut (s t : State) : Prop := t = { s with seq := t.seq }

/-- A normal end forgets `SEQ`. -/
theorem ending_next {s t : State} (h : SameBut s t) : ending i (.next s) = ending i (.next t) := by
  obtain ⟨q, rfl⟩ : ∃ q, t = { s with seq := q } := ⟨_, h⟩
  unfold ending wrapEnd
  split
  · have : ∀ q, fbufRead 4 { s with seq := q } = ((fbufRead 4 s).1, { (fbufRead 4 s).2 with seq := q }) := by
      intro q
      unfold fbufRead
      simp only
      split <;> rfl
    have h2 := this q
    rcases hf : fbufRead 4 s with ⟨b, u⟩
    rw [hf] at h2
    simp only [hskEnd, h2, hf]
    split <;> rfl
  · rfl

/-- A raised end forgets `SEQ`. -/
theorem ending_raise {s t : State} {c : Result} (h : SameBut s t) : ending i (.raise c s) = ending i (.raise c t) := by
  rw [h]
  unfold ending wrapEnd
  split <;> rfl

/-- Ends that are equal once closed: normal and raised ones up to `SEQ`, running ones wholly. -/
inductive FSame : Flow → Flow → Prop
  | next {s t} (h : SameBut s t) : FSame (.next s) (.next t)
  | raise {c s t} (h : SameBut s t) : FSame (.raise c s) (.raise c t)
  | hold {s} : FSame (.hold s) (.hold s)

/-- Such ends close to the same state. -/
theorem FSame.ending {f g : Flow} (h : FSame f g) : ending i f = ending i g := by
  cases h with
  | next h => exact ending_next h
  | raise h => exact ending_raise h
  | hold => rfl

/-- Sequencing respects it. -/
theorem FSame.andThen {f g : Flow} {k l : State → Flow} (h : FSame f g) (hk : ∀ s t, SameBut s t → FSame (k s) (l t)) : FSame (f.andThen k) (g.andThen l) := by
  cases h with
  | next h => exact hk _ _ h
  | raise h => exact .raise h
  | hold => exact .hold

/-- `SEQ` does not matter to a read of `FBUF`. -/
theorem fbufRead_sameBut (k : Nat) {s t : State} (h : SameBut s t) : (fbufRead k s).1 = (fbufRead k t).1 ∧ SameBut (fbufRead k s).2 (fbufRead k t).2 := by
  rw [h]
  generalize t.seq = q
  unfold fbufRead
  simp only
  split <;> exact ⟨rfl, rfl⟩

/-- `SEQ` does not matter to a read of several bytes. -/
theorem fbufRange_sameBut (n : Nat) : ∀ (k : Nat) {s t : State}, SameBut s t → (fbufRange k n s).1 = (fbufRange k n t).1 ∧ SameBut (fbufRange k n s).2 (fbufRange k n t).2 := by
  induction n with
  | zero => intro k s t h; exact ⟨rfl, h⟩
  | succ n ih =>
    intro k s t h
    obtain ⟨h1, h2⟩ := fbufRead_sameBut k h
    obtain ⟨h3, h4⟩ := ih (k + 1) h2
    simp only [fbufRange]
    exact ⟨by rw [h1, h3], h4⟩

/-- `SEQ` does not matter to the CRC check. -/
theorem checkFrame_sameBut (n : Nat) {s t : State} (h : SameBut s t) : SameBut (checkFrame n s) (checkFrame n t) := by
  obtain ⟨a1, a2⟩ := fbufRange_sameBut (n - 2) 0 h
  obtain ⟨b1, b2⟩ := fbufRead_sameBut (n - 2) a2
  obtain ⟨c1, c2⟩ := fbufRead_sameBut (n - 1) b2
  simp only [checkFrame]
  rw [← a1, ← b1, ← c1, c2]
  rfl

/-- `SEQ` does not matter to the response value. -/
theorem respValue_sameBut (n : Nat) {s t : State} (h : SameBut s t) : (respValue n s).1 = (respValue n t).1 ∧ SameBut (respValue n s).2 (respValue n t).2 := by
  unfold respValue
  split
  · obtain ⟨b1, b2⟩ := fbufRead_sameBut (n - 4) h
    obtain ⟨c1, c2⟩ := fbufRead_sameBut (n - 3) b2
    simp only
    exact ⟨by rw [b1, c1], c2⟩
  · split
    · obtain ⟨b1, b2⟩ := fbufRead_sameBut 3 h
      simp only
      exact ⟨by rw [b1], b2⟩
    · exact ⟨rfl, h⟩

/-- `SEQ` does not matter to the delivery of a frame. -/
theorem deliver_sameBut (n : Nat) {s t : State} (h : SameBut s t) : SameBut (deliver n s) (deliver n t) := by
  obtain ⟨a1, a2⟩ := respValue_sameBut n (checkFrame_sameBut n h)
  simp only [deliver]
  rw [← a1, a2]
  rfl

/-- `SEQ` does not matter to `width_check`. -/
theorem widthCheck_sameBut (lo : Bool) {s t : State} (h : SameBut s t) : FSame (widthCheck lo s) (widthCheck lo t) := by
  obtain ⟨a1, a2⟩ := fbufRead_sameBut 1 h
  unfold widthCheck
  split
  · exact .next h
  · simp only
    rw [← a1]
    have hp : (fbufRead 1 s).2.payLen = (fbufRead 1 t).2.payLen := by rw [a2]
    rw [← hp]
    split
    · refine .raise ?_
      rw [a2]; rfl
    · exact .next a2

/-- What follows a whole frame: `width_check` for a transaction, nothing for `RDF`. -/
def afterFrame : Instr → State → Flow
  | .exec _ lo => widthCheck lo
  | .hsk => widthCheck false
  | _ => .next

/-- `SEQ` does not matter to what follows a frame. -/
theorem afterFrame_sameBut {s t : State} (h : SameBut s t) : FSame (afterFrame i s) (afterFrame i t) := by
  cases i <;> first | exact widthCheck_sameBut _ h | exact .next h

/-- The move at `CHECK` delivers the frame and goes on to what follows it. -/
theorem moveCheck_eq (s : State) : moveCheck i s = afterFrame i (deliver (runningLen i s) s) := by
  cases i <;> rfl

/-- The rest of a frame after its header, and what follows. -/
def readAndFinish (i : Instr) (L : Nat) (s : State) : Flow := (readRest L s).andThen (afterFrame i)

/-- The end of a body read of which `m` bytes are in. -/
def bodyEnd (i : Instr) (L m : Nat) (s : State) : Flow :=
  let bs := (readLine (L - 3 - m) s.line).1
  let t : State := { fbufStore (3 + m) bs s with line := (readLine (L - 3 - m) s.line).2, rxCnt := BitVec.ofNat 16 (3 + m + bs.length) }
  if bs.length < L - 3 - m then .raise .timeout t else afterFrame i (deliver L t)

/-- The line does not matter to a store into `FBUF`. -/
theorem fbufStore_line (bs : List Byte) (k : Nat) (s : State) (l : Line) : fbufStore k bs { s with line := l } = { fbufStore k bs s with line := l } := by
  rw [fbufStore_eq bs k s, fbufStore_eq bs k { s with line := l }, fbufStore_fbuf_congr bs k (s := { s with line := l }) (t := s) rfl]

/-- The moves at `BODY(m)` come to the end of the body read. -/
theorem body_goes (hd : decode cmd = .ok i) (L : Nat) : ∀ (j m : Nat) (s : State), j = L - 3 - m → 3 + m < L → s.seq = .run cmd (.body m) 0 fl → s.rxCnt = BitVec.ofNat 16 (3 + m) →
    runningLen i s = L → Goes i (.hold s) (bodyEnd i L m s) := by
  intro j
  induction j with
  | zero => intro m s hj hm; omega
  | succ j ih =>
    intro m s hj hm hs hx hr
    refine (Goes.move hd hs).trans ?_
    unfold bodyEnd
    rw [← hj]
    simp only [moveFrom, moveBody]
    rw [rxPop_eq, readLine]
    rcases popLine s.line with ⟨e, l⟩
    cases e with
    | gap =>
      simp only [List.length_nil, fbufStore, Nat.add_zero]
      rw [if_pos (by omega)]
      refine Goes.of_eq (ending_raise ?_)
      rw [← hx]; rfl
    | byte b =>
      have hw : fbufWrite (3 + m) b { s with line := l } = { fbufWrite (3 + m) b s with line := l } := fbufStore_line [b] (3 + m) s l
      have hwe := fbufWrite_eq (3 + m) b s
      simp only [List.length_cons, fbufStore]
      have hc : Config.hdrConsumed = 3 := rfl
      rw [hr, hc]
      rw [hw]
      by_cases h2 : m + 1 < L - 3
      · rw [if_pos h2]
        have hst : setPoint (.body (m + 1)) 0 { { fbufWrite (3 + m) b s with line := l } with rxCnt := BitVec.ofNat 16 (3 + (m + 1)) } =
           { fbufWrite (3 + m) b s with line := l, rxCnt := BitVec.ofNat 16 (3 + (m + 1)), seq := .run cmd (.body (m + 1)) 0 fl } := by
          unfold setPoint
          rw [hwe]
          simp only [hs]
        rw [hst]
        refine (ih (m + 1) _ (by omega) (by omega) rfl rfl ?_).trans ?_
        · rw [← hr, hwe]
          cases i <;> rfl
        · unfold bodyEnd
          rw [show L - 3 - (m + 1) = j by omega]
          simp only
          have hlen : (3 + m + ((readLine j l).1.length + 1)) = 3 + (m + 1) + (readLine j l).1.length := by omega
          rw [hlen]
          have hfs : ∀ (c : Half) (q : Seq), fbufStore (3 + (m + 1)) (readLine j l).1 { fbufWrite (3 + m) b s with line := l, rxCnt := c, seq := q } =
             { fbufStore (3 + (m + 1)) (readLine j l).1 (fbufWrite (3 + m) b s) with line := l, rxCnt := c, seq := q } := by
            intro c q
            rw [fbufStore_eq, fbufStore_eq _ _ (fbufWrite (3 + m) b s), fbufStore_fbuf_congr _ _ (s := { fbufWrite (3 + m) b s with line := l, rxCnt := c, seq := q }) (t := fbufWrite (3 + m) b s) rfl]
          rw [hfs]
          rw [show 3 + m + 1 = 3 + (m + 1) by omega]
          by_cases hlt : (readLine j l).1.length < j
          · rw [if_pos hlt, if_pos (by omega)]
            exact Goes.of_eq (ending_raise rfl)
          · rw [if_neg hlt, if_neg (by omega)]
            refine Goes.of_eq (FSame.ending (afterFrame_sameBut (deliver_sameBut L ?_)))
            rfl
      · rw [if_neg h2]
        obtain rfl : j = 0 := by omega
        have hst : setPoint .check 0 { { fbufWrite (3 + m) b s with line := l } with rxCnt := BitVec.ofNat 16 (3 + (m + 1)) } =
           { fbufWrite (3 + m) b s with line := l, rxCnt := BitVec.ofNat 16 (3 + (m + 1)), seq := .run cmd .check 0 fl } := by
          unfold setPoint
          rw [hwe]
          simp only [hs]
        rw [hst]
        refine (Goes.move hd rfl).trans ?_
        simp only [moveFrom, moveCheck_eq, readLine, List.length_nil, fbufStore]
        rw [if_neg (by omega)]
        have : runningLen i { fbufWrite (3 + m) b s with line := l, rxCnt := BitVec.ofNat 16 (3 + (m + 1)), seq := .run cmd .check 0 fl } = L := by
          rw [← hr, hwe]
          cases i <;> rfl
        rw [this]
        refine Goes.of_eq (FSame.ending (afterFrame_sameBut (deliver_sameBut L ?_)))
        rfl

/-- The moves from `LEN_BYTE` on read the rest of the frame and finish. -/
theorem readAndFinish_goes (hd : decode cmd = .ok i) (L : Nat) (h5 : 5 ≤ L) (v : State) (p : SeqPoint) (n : Nat) (hs : v.seq = .run cmd p n fl) (hr : runningLen i v = L) :
    Goes i (.hold (setPoint .lenByte 0 v)) (readAndFinish i L v) := by
  have e : setPoint .lenByte 0 v = { v with seq := .run cmd .lenByte 0 fl } := by simp only [setPoint, hs]
  rw [e]
  refine (Goes.move hd rfl).trans ?_
  simp only [moveFrom, moveLenByte, readAndFinish, readRest]
  rw [rxPop_eq, rxPop_eq]
  simp only
  rcases popLine v.line with ⟨ev, l⟩
  cases ev with
  | gap => exact Goes.of_eq (ending_raise rfl)
  | byte b =>
    simp only
    have hst : setPoint (.body 0) 0 (storeLenByte b { v with line := l, seq := .run cmd .lenByte 0 fl }) = { storeLenByte b { v with line := l } with seq := .run cmd (.body 0) 0 fl } := rfl
    rw [hst]
    have h1 : (storeLenByte b { v with line := l }).rxCnt = 3 := rfl
    have h2 : (storeLenByte b { v with line := l }).line = l := rfl
    have h3 : runningLen i { storeLenByte b { v with line := l } with seq := .run cmd (.body 0) 0 fl } = L := by
      rw [← hr]; cases i <;> rfl
    generalize storeLenByte b { v with line := l } = w at h1 h2 h3 ⊢
    subst h2
    refine (body_goes hd L (L - 3 - 0) 0 { w with seq := .run cmd (.body 0) 0 fl } rfl (by omega) rfl h1 h3).trans ?_
    have hc : Config.hdrConsumed = 3 := rfl
    unfold bodyEnd
    rw [rxRead_eq, hc]
    simp only [Nat.sub_zero, Nat.add_zero]
    generalize (readLine (L - 3) w.line).1 = bs
    generalize (readLine (L - 3) w.line).2 = l'
    have hfs : fbufStore 3 bs { w with seq := .run cmd (.body 0) 0 fl } = { fbufStore 3 bs w with seq := .run cmd (.body 0) 0 fl } := by
      rw [fbufStore_eq, fbufStore_eq _ _ w, fbufStore_fbuf_congr _ _ (s := { w with seq := .run cmd (.body 0) 0 fl }) (t := w) rfl]
    rw [hfs]
    unfold storeBody
    rw [fbufStore_line bs 3 w l']
    by_cases hlt : bs.length < L - 3
    · rw [if_pos hlt, if_pos hlt]
      exact Goes.of_eq (ending_raise rfl)
    · rw [if_neg hlt, if_neg hlt]
      refine Goes.of_eq (FSame.ending (afterFrame_sameBut (deliver_sameBut L ?_)))
      rfl

/-- What follows a known header. -/
def afterHeader (i : Instr) (v : State) : Flow := if i = .sync then .next v else readAndFinish i (runningLen i v) v

/-- What a search's end leads to. -/
def afterSearch (i : Instr) : Sync → Flow
  | .found k t => afterHeader i (syncFound k t)
  | .eos k t => syncEos k t
  | .searching k t => .hold (setPoint .syncSlide k t)

/-- Equal but for the point the same command has reached. -/
def SameCmd (s t : State) : Prop := SameBut s t ∧ ∃ cmd p n p' n' fl, s.seq = .run cmd p n fl ∧ t.seq = .run cmd p' n' fl

/-- Equal but for `SEQ`. -/
theorem SameCmd.sameBut {s t : State} (h : SameCmd s t) : SameBut s t := h.1

/-- Setting the point makes them equal. -/
theorem setPoint_sameCmd {s t : State} (h : SameCmd s t) (p : SeqPoint) (n : Nat) : setPoint p n s = setPoint p n t := by
  obtain ⟨h, cmd, p1, n1, p2, n2, fl1, hs, ht⟩ := h
  unfold setPoint
  rw [hs, ht, h]

/-- `SEQ` does not matter to an event of the line. -/
theorem rxPop_sameBut {s t : State} (h : SameBut s t) : ∃ e l, rxPop s = (e, { s with line := l }) ∧ rxPop t = (e, { t with line := l }) := by
  rw [rxPop_eq, rxPop_eq]
  have : s.line = t.line := by rw [h]
  rw [this]
  exact ⟨_, _, rfl, rfl⟩

/-- `SEQ` does not matter to the rest of a frame. -/
theorem readRest_sameBut (L : Nat) {s t : State} (h : SameBut s t) : FSame (readRest L s) (readRest L t) := by
  obtain ⟨e, l, h1, h2⟩ := rxPop_sameBut h
  unfold readRest
  rw [h1, h2]
  cases e with
  | gap => exact .raise (by rw [h]; rfl)
  | byte b =>
    simp only
    rw [rxRead_eq, rxRead_eq]
    have e1 : (storeLenByte b { s with line := l }).line = l := rfl
    have e2 : (storeLenByte b { t with line := l }).line = l := rfl
    have e3 : SameBut (storeLenByte b { s with line := l }) (storeLenByte b { t with line := l }) := by rw [h]; rfl
    rw [e1, e2]
    generalize storeLenByte b { s with line := l } = x at e3 ⊢
    generalize storeLenByte b { t with line := l } = y at e3 ⊢
    obtain ⟨q, rfl⟩ : ∃ q, y = { x with seq := q } := ⟨_, e3⟩
    simp only
    have e4 : SameBut (storeBody (readLine (L - Config.hdrConsumed) l).1 { x with line := (readLine (L - Config.hdrConsumed) l).2 })
        (storeBody (readLine (L - Config.hdrConsumed) l).1 { x with seq := q, line := (readLine (L - Config.hdrConsumed) l).2 }) := by
      unfold storeBody SameBut
      rw [fbufStore_eq, fbufStore_eq _ _ { x with line := (readLine (L - Config.hdrConsumed) l).2 }, fbufStore_fbuf_congr _ _ (s := { x with seq := q, line := (readLine (L - Config.hdrConsumed) l).2 }) (t := { x with line := (readLine (L - Config.hdrConsumed) l).2 }) rfl]
    split
    · exact .raise e4
    · exact .next (deliver_sameBut L e4)

/-- `SEQ` does not matter to the rest of a frame and what follows. -/
theorem readAndFinish_sameBut (L : Nat) {s t : State} (h : SameBut s t) : FSame (readAndFinish i L s) (readAndFinish i L t) :=
  (readRest_sameBut L h).andThen fun _ _ h => afterFrame_sameBut h

/-- `SEQ` does not matter to a found header. -/
theorem syncFound_sameBut (k : Nat) {s t : State} (h : SameBut s t) : SameBut (syncFound k s) (syncFound k t) := by
  unfold SameBut
  rw [syncFound_eq, syncFound_eq, h]
  rfl

/-- `SEQ` does not matter to what follows a header. -/
theorem afterHeader_sameBut {s t : State} (h : SameBut s t) : FSame (afterHeader i s) (afterHeader i t) := by
  unfold afterHeader
  split
  · exact .next h
  · have : runningLen i s = runningLen i t := by rw [h]; cases i <;> rfl
    rw [this]
    exact readAndFinish_sameBut _ h

/-- `SEQ` does not matter to what follows a found header. -/
theorem afterSearch_found {k : Nat} {s t : State} (h : SameBut s t) : FSame (afterSearch i (.found k s)) (afterSearch i (.found k t)) := afterHeader_sameBut (syncFound_sameBut k h)

/-- The point does not matter to a slide. -/
theorem slide_sameCmd (fuel : Nat) : ∀ (n : Nat) {s t : State}, SameCmd s t → FSame (afterSearch i (slide fuel n s)) (afterSearch i (slide fuel n t)) := by
  induction fuel with
  | zero =>
    intro n s t h
    have hw : s.win0 = t.win0 ∧ s.win1 = t.win1 := by rw [h.sameBut]; exact ⟨rfl, rfl⟩
    unfold slide
    rw [hw.1, hw.2]
    split
    · exact afterSearch_found h.sameBut
    · simp only [afterSearch, setPoint_sameCmd h]
      exact .hold
  | succ fuel ih =>
    intro n s t h
    obtain ⟨hs, cmd, p1, n1, p2, n2, fl1, hs1, ht1⟩ := h
    obtain ⟨q, rfl⟩ : ∃ q, t = { s with seq := q } := ⟨_, hs⟩
    unfold slide
    simp only
    split
    · exact afterSearch_found rfl
    · obtain ⟨e, l, h1, h2⟩ := rxPop_sameBut (s := { s with win0 := s.win1 }) (t := { s with seq := q, win0 := s.win1 }) rfl
      rw [h1, h2]
      cases e with
      | gap => exact .raise rfl
      | byte b => exact ih (n + 1) ⟨rfl, cmd, p1, n1, p2, n2, fl1, hs1, ht1⟩

/-- The moves at `SYNC_SLIDE` come to the end of the search. -/
theorem slide_goes (hd : decode cmd = .ok i) (fuel : Nat) : ∀ (n : Nat) (s : State) (p : SeqPoint) (k : Nat), s.seq = .run cmd p k fl → (i = .sync ∨ 5 ≤ runningLen i s) →
    Goes i (windowFull i n s) (afterSearch i (slide fuel n s)) := by
  induction fuel with
  | zero =>
    intro n s p k hs hl
    unfold windowFull slide
    split
    · simp only [afterSearch, afterHeader]
      split
      · exact .refl _
      · have : runningLen i (syncFound n s) = runningLen i s := by rw [syncFound_eq]; cases i <;> rfl
        exact readAndFinish_goes hd _ (by rw [this]; exact hl.resolve_left (by assumption)) _ p k (by rw [syncFound_eq]; exact hs) rfl
    · exact .refl _
  | succ fuel ih =>
    intro n s p k hs hl
    unfold windowFull slide
    split
    · simp only [afterSearch, afterHeader]
      split
      · exact .refl _
      · have : runningLen i (syncFound n s) = runningLen i s := by rw [syncFound_eq]; cases i <;> rfl
        exact readAndFinish_goes hd _ (by rw [this]; exact hl.resolve_left (by assumption)) _ p k (by rw [syncFound_eq]; exact hs) rfl
    · have e : setPoint .syncSlide n s = { s with seq := .run cmd .syncSlide n fl } := by simp only [setPoint, hs]
      rw [e]
      refine (Goes.move hd rfl).trans ?_
      simp only [moveFrom, moveSyncSlide]
      rw [rxPop_eq, rxPop_eq]
      simp only
      rcases popLine s.line with ⟨ev, l⟩
      cases ev with
      | gap => exact Goes.of_eq (ending_raise rfl)
      | byte b =>
        simp only
        refine (ih (n + 1) _ .syncSlide n rfl (hl.imp id fun h => ?_)).trans ?_
        · have : runningLen i { s with win0 := s.win1, win1 := b, line := l, seq := .run cmd .syncSlide n fl } = runningLen i s := by cases i <;> rfl
          exact this.symm ▸ h
        · refine Goes.of_eq (FSame.ending (slide_sameCmd fuel (n + 1) ⟨?_, cmd, _, _, _, _, _, rfl, hs⟩))
          rfl

/-- The moves from `SYNC_FILL` on come to the end of the search. -/
theorem sync_goes (hd : decode cmd = .ok i) (s : State) (hs : s.seq = .run cmd .syncFill 0 fl) (hl : i = .sync ∨ 5 ≤ runningLen i s) : Goes i (.hold s) (afterSearch i (synchronize s)) := by
  refine (Goes.move hd hs).trans ?_
  simp only [moveFrom, moveSyncFill, synchronize]
  rw [rxPop_eq]
  rcases popLine s.line with ⟨ev, l⟩
  cases ev with
  | gap => exact .refl _
  | byte b =>
    simp only [if_true]
    have e : setPoint .syncFill 1 { s with line := l, win0 := b } = { s with line := l, win0 := b, seq := .run cmd .syncFill 1 fl } := by simp only [setPoint, hs]
    rw [e]
    refine (Goes.move hd rfl).trans ?_
    simp only [moveFrom, moveSyncFill]
    rw [rxPop_eq, rxPop_eq]
    simp only
    rcases popLine l with ⟨ev, l'⟩
    cases ev with
    | gap => exact Goes.of_eq (ending_raise rfl)
    | byte b' =>
      simp only
      rw [if_neg (by omega)]
      refine (slide_goes hd (l'.rxq.length + 1) 2 _ .syncFill 1 rfl (hl.imp id fun h => ?_)).trans ?_
      · have : runningLen i { s with line := l', win0 := b, win1 := b', seq := .run cmd .syncFill 1 fl } = runningLen i s := by cases i <;> rfl
        exact this.symm ▸ h
      · refine Goes.of_eq (FSame.ending (slide_sameCmd _ 2 ⟨?_, cmd, _, _, _, _, _, rfl, hs⟩))
        rfl

/-- `SEQ` does not matter to an offered byte. -/
theorem txOffer_sameBut (b : Byte) {s t : State} (h : SameBut s t) : (txOffer b s).1 = (txOffer b t).1 ∧ SameBut (txOffer b s).2 (txOffer b t).2 := by
  obtain ⟨q, rfl⟩ : ∃ q, t = { s with seq := q } := ⟨_, h⟩
  cases s with | mk ie st crc bl el rq tb tc rc pl rv lb dc fb sq w0 w1 rs line hh dr wt =>
  cases line with | mk rxq tail an lg =>
  cases an with
  | cons e an => cases e <;> exact ⟨rfl, rfl⟩
  | nil =>
    simp only [txOffer]
    cases Config.lineAccepts dr <;> exact ⟨rfl, rfl⟩

/-- `SEQ` does not matter to offered bytes. -/
theorem txWrite_sameBut (bs : List Byte) : ∀ {s t : State}, SameBut s t → (txWrite bs s).1 = (txWrite bs t).1 ∧ SameBut (txWrite bs s).2 (txWrite bs t).2 := by
  induction bs with
  | nil => intro s t h; exact ⟨rfl, h⟩
  | cons b bs ih =>
    intro s t h
    obtain ⟨h1, h2⟩ := txOffer_sameBut b h
    simp only [txWrite]
    rcases ho : txOffer b s with ⟨ok, u⟩
    rcases ho' : txOffer b t with ⟨ok', u'⟩
    rw [ho, ho'] at h1 h2
    simp only at h1 h2
    subst h1
    cases ok with
    | false => exact ⟨rfl, h2⟩
    | true =>
      obtain ⟨h3, h4⟩ := ih h2
      simp only
      exact ⟨by rw [h3], h4⟩

/-- The point does not matter to the search. -/
theorem synchronize_sameCmd {s t : State} (h : SameCmd s t) : FSame (afterSearch i (synchronize s)) (afterSearch i (synchronize t)) := by
  obtain ⟨hs, cmd, p1, n1, p2, n2, fl1, hs1, ht1⟩ := h
  obtain ⟨q, rfl⟩ : ∃ q, t = { s with seq := q } := ⟨_, hs⟩
  simp only [synchronize]
  rw [rxPop_eq, rxPop_eq]
  simp only
  rcases popLine s.line with ⟨e, l⟩
  cases e with
  | gap => exact .raise rfl
  | byte b =>
    simp only
    rw [rxPop_eq, rxPop_eq]
    simp only
    rcases popLine l with ⟨e, l⟩
    cases e with
    | gap => exact .raise rfl
    | byte b' => exact slide_sameCmd _ 2 ⟨rfl, cmd, p1, n1, p2, n2, fl1, hs1, ht1⟩

/-- What follows a request that has gone out whole. -/
def afterTx (i : Instr) (v : State) : Flow := if awaitsResponse i then afterSearch i (synchronize v) else .next v

/-- The point does not matter to what follows a request. -/
theorem afterTx_sameCmd {s t : State} (h : SameCmd s t) : FSame (afterTx i s) (afterTx i t) := by
  unfold afterTx
  split
  · exact synchronize_sameCmd h
  · exact .next h.sameBut

/-- The end of a transmission of which `k` bytes are out. -/
def txEnd (i : Instr) (k : Nat) (s : State) : Flow :=
  let r := txWrite ((txList s.txbuf).drop k) s
  let t : State := { r.2 with txCnt := BitVec.ofNat 4 (k + r.1) }
  if k + r.1 < 8 then .raise .incompleteWrite t else afterTx i t

/-- `txEnd`, from the bytes the line accepts. -/
theorem txEnd_eq {k j : Nat} {s t : State} (h : txWrite ((txList s.txbuf).drop k) s = (j, t)) :
    txEnd i k s = if k + j < 8 then .raise .incompleteWrite { t with txCnt := BitVec.ofNat 4 (k + j) } else afterTx i { t with txCnt := BitVec.ofNat 4 (k + j) } := by
  unfold txEnd
  rw [h]

/-- The moves from `TX(k)` on come to the end of the transmission and what follows. -/
theorem tx_goes (hd : decode cmd = .ok i) : ∀ (j k n : Nat) (s : State), k + j = 8 → 0 < j → s.seq = .run cmd (.tx k) n fl → (awaitsResponse i = true → 5 ≤ runningLen i s) → Goes i (.hold s) (txEnd i k s) := by
  intro j
  induction j with
  | zero => intro k n s _ h; omega
  | succ j ih =>
    intro k n s hj _ hs hl
    refine (Goes.move hd hs).trans ?_
    have hdrop : (txList s.txbuf).drop k = txByte s.txbuf k :: (txList s.txbuf).drop (k + 1) := by
      have : k < (txList s.txbuf).length := by simp; omega
      rw [List.drop_eq_getElem_cons this]
      congr 1
      unfold txByte
      rw [List.getD_eq_getElem _ _ this]
    obtain ⟨ok, q, d, ho⟩ := txOffer_cases (txByte s.txbuf k) s
    simp only [moveFrom, moveTx]
    rcases hoo : txOffer (txByte s.txbuf k) s with ⟨ok', u⟩
    have hu : u = (txOffer (txByte s.txbuf k) s).2 := by rw [hoo]
    rw [ho] at hu
    simp only at hu
    have hu1 : u.txbuf = s.txbuf := by rw [hu]
    have hu2 : u.seq = s.seq := by rw [hu]
    have hu3 : runningLen i u = runningLen i s := by rw [hu]; cases i <;> rfl
    clear hu ho
    cases ok' with
    | false =>
      rw [txEnd_eq (j := 0) (t := u) (by rw [hdrop, txWrite, hoo])]
      rw [if_pos (by omega)]
      exact .refl _
    | true =>
      simp only
      rcases hx : txWrite (List.drop (k + 1) (txList s.txbuf)) u with ⟨a, x⟩
      rw [txEnd_eq (j := a + 1) (t := x) (by rw [hdrop, txWrite, hoo]; simp only [hx])]
      have hxs : x.seq = u.seq := by
        obtain ⟨_, _, _, _, h⟩ := txWrite_cases (List.drop (k + 1) (txList s.txbuf)) u
        rw [hx] at h
        simp only [Prod.mk.injEq] at h
        rw [h.2]
      by_cases hk : k + 1 < 8
      · rw [if_pos hk]
        have e : setPoint (.tx (k + 1)) 0 u = { u with seq := .run cmd (.tx (k + 1)) 0 fl } := by simp only [setPoint, hu2, hs]
        rw [e]
        generalize hw : ({ u with seq := .run cmd (.tx (k + 1)) 0 fl } : State) = w
        have hsb : SameBut u w := by rw [← hw]; rfl
        have hws : w.seq = .run cmd (.tx (k + 1)) 0 fl := by rw [← hw]
        have hwt : w.txbuf = s.txbuf := by rw [← hw]; exact hu1
        have hl' : awaitsResponse i = true → 5 ≤ runningLen i w := by
          intro h
          have : runningLen i w = runningLen i u := by rw [← hw]; cases i <;> rfl
          rw [this, hu3]; exact hl h
        clear hw
        refine (ih (k + 1) 0 w (by omega) (by omega) hws hl').trans ?_
        obtain ⟨h1, h2⟩ := txWrite_sameBut (List.drop (k + 1) (txList s.txbuf)) hsb
        rcases hy : txWrite (List.drop (k + 1) (txList s.txbuf)) w with ⟨b, y⟩
        have hys : y.seq = w.seq := by
          obtain ⟨_, _, _, _, h⟩ := txWrite_cases (List.drop (k + 1) (txList s.txbuf)) w
          rw [hy] at h
          simp only [Prod.mk.injEq] at h
          rw [h.2]
        rw [hx, hy] at h1 h2
        simp only at h1 h2
        subst h1
        rw [txEnd_eq (j := a) (t := y) (by rw [hwt]; exact hy)]
        rw [show k + (a + 1) = k + 1 + a by omega]
        obtain ⟨q', rfl⟩ : ∃ q, y = { x with seq := q } := ⟨_, h2⟩
        by_cases hlt : k + 1 + a < 8
        · rw [if_pos hlt, if_pos hlt]
          refine Goes.of_eq (ending_raise ?_)
          rfl
        · rw [if_neg hlt, if_neg hlt]
          refine Goes.of_eq (FSame.ending (afterTx_sameCmd ⟨?_, cmd, _, _, _, _, _, hys.trans hws, hxs.trans (hu2.trans hs)⟩))
          rfl
      · rw [if_neg hk]
        obtain rfl : k = 7 := by omega
        have : List.drop (7 + 1) (txList s.txbuf) = [] := by simp
        rw [this] at hx
        simp only [txWrite, Prod.mk.injEq] at hx
        obtain ⟨rfl, rfl⟩ := hx
        rw [if_neg (show ¬ 7 + (0 + 1) < 8 by omega)]
        unfold afterTx
        by_cases ha : awaitsResponse i = true
        · rw [if_pos ha, if_pos ha]
          have e : setPoint .syncFill 0 { u with txCnt := 8 } = { u with txCnt := 8, seq := .run cmd .syncFill 0 fl } := by simp only [setPoint, hu2, hs]
          rw [e]
          refine (sync_goes hd { u with txCnt := 8, seq := .run cmd .syncFill 0 fl } rfl (.inr ?_)).trans ?_
          · have : runningLen i { u with txCnt := 8, seq := .run cmd .syncFill 0 fl } = runningLen i u := by cases i <;> rfl
            rw [this, hu3]; exact hl ha
          · refine Goes.of_eq (FSame.ending (synchronize_sameCmd ⟨?_, cmd, _, _, _, _, _, rfl, hu2.trans hs⟩))
            rfl
        · rw [if_neg ha, if_neg ha]
          exact .refl _

/-- From the first byte on, it is the transmit step. -/
theorem txEnd_zero (s : State) : txEnd i 0 s = (transmit s).andThen (afterTx i) := by
  unfold txEnd transmit
  simp only [List.drop_zero, Nat.zero_add]
  split <;> rfl

/-- Sequencing is associative. -/
theorem andThen_assoc (f : Flow) (k l : State → Flow) : (f.andThen k).andThen l = f.andThen fun s => (k s).andThen l := by
  cases f <;> rfl

/-- Search, frame and what follows, as `readFrame` says it. -/
theorem afterSearch_eq {L : Nat} (hi : i ≠ .sync) (s : State) (hL : runningLen i s = L) : afterSearch i (synchronize s) = (readFrame L s).andThen (afterFrame i) := by
  unfold readFrame
  rw [andThen_assoc]
  unfold resync
  rcases synchronize_cases s with ⟨n, t, h, hn, ht, hk⟩ | ⟨n, t, h, ht⟩ | ⟨n, t, h, hn, ht, hk, hs⟩ <;> rw [h] <;> simp only [afterSearch]
  · have : runningLen i (syncFound n t) = L := by
      rw [← hL, syncFound_eq]
      obtain ⟨_, _, _, _, _, rfl, -⟩ := ht
      cases i <;> rfl
    rw [andThen_next, afterHeader, if_neg hi, this]
    rfl
  · rfl
  · rfl

/-- A started command, moved on, comes to what its whole run gives. -/
theorem begin_goes (hd : decode cmd = .ok i) (a : State) (ha : a.seq = .run cmd (entryPoint i) 0 fl) : ∃ n, seqMoves n (begin i a).close = (commandBody i a).close := by
  have hW : i ≠ .hsk → ∀ f, ending i f = f.close := by
    intro h f
    unfold ending wrapEnd
    rw [if_neg h]
  have hloc : entryPoint i = .crcLoop 0 → begin i a = .hold a → localBody i a = commandBody i a → i ≠ .hsk → ∃ n, seqMoves n (begin i a).close = (commandBody i a).close := by
    intro h1 h2 h3 h4
    have := Goes.move (p := entryPoint i) (n := 0) hd ha
    rw [h1] at this
    obtain ⟨n, h⟩ := this
    refine ⟨n, ?_⟩
    rw [h2, ← hW h4, h, hW h4]
    simp only [moveFrom, h3]
  have key : ∀ (s : State) (g : Flow), begin i a = .hold s → Goes i (.hold s) g → ending i g = (commandBody i a).close → ∃ n, seqMoves n (begin i a).close = (commandBody i a).close := by
    rintro s g h1 ⟨n, h2⟩ h3
    refine ⟨n, ?_⟩
    rw [h1, ← h3, ← h2, ending_hold]
    rfl
  cases i with
  | send =>
    refine key a _ rfl (tx_goes hd 8 0 0 a rfl (by omega) ha (fun h => by simp [awaitsResponse] at h)) ?_
    rw [txEnd_zero, hW (by simp)]
    have : (transmit a).andThen (afterTx .send) = transmit a := by
      have : afterTx .send = Flow.next := rfl
      rw [this]; cases transmit a <;> rfl
    rw [this]; rfl
  | sync =>
    refine key _ _ rfl (sync_goes hd (rxPrologue a) ha (.inl rfl)) ?_
    rw [hW (by simp)]
    simp only [commandBody, syncBody, resync]
    cases synchronize (rxPrologue a) <;> rfl
  | rdf =>
    cases hL : expLenOperand a with
    | none => 
      refine ⟨0, ?_⟩
      simp only [begin, commandBody, rdfBody, hL]; rfl
    | some L =>
      obtain ⟨rfl, h5, hl⟩ := expLenOperand_bounds hL
      have hb : begin .rdf a = .hold (rxPrologue a) := by simp only [begin, hL]
      refine key _ _ hb (sync_goes hd (rxPrologue a) ha (.inr h5)) ?_
      rw [afterSearch_eq (L := a.expLen.toNat) (by simp) _ rfl, hW (by simp)]
      simp only [commandBody, rdfBody, hL]
      cases readFrame a.expLen.toNat (rxPrologue a) <;> rfl
  | exec nr lo =>
    cases nr with
    | true =>
      refine key (prepareRequest a) _ rfl (tx_goes hd 8 0 0 (prepareRequest a) rfl (by omega) ha (fun h => by simp [awaitsResponse] at h)) ?_
      rw [txEnd_zero, hW (by simp)]
      have : (transmit (prepareRequest a)).andThen (afterTx (.exec true lo)) = transmit (prepareRequest a) := by
        have : afterTx (.exec true lo) = Flow.next := rfl
        rw [this]; cases transmit (prepareRequest a) <;> rfl
      rw [this]; rfl
    | false =>
      cases hL : expectedLen lo a with
      | none =>
        refine ⟨0, ?_⟩
        simp only [begin, commandBody, execBody, hL]; rfl
      | some L =>
        obtain ⟨h5, hl⟩ := expectedLen_bounds hL
        have hb : begin (.exec false lo) a = .hold (prepareRequest a) := by simp only [begin, hL]; rfl
        have hrl : runningLen (.exec false lo) (prepareRequest a) = L := by
          show (expectedLen lo a).getD 0 = L
          rw [hL]; rfl
        refine key _ _ hb (tx_goes hd 8 0 0 (prepareRequest a) rfl (by omega) ha (fun _ => by rw [hrl]; exact h5)) ?_
        rw [txEnd_zero, hW (by simp)]
        simp only [commandBody, execBody, hL, Bool.false_eq_true, if_false]
        rw [andThen_assoc]
        obtain ⟨k, q, d, hk, ht⟩ := transmit_cases (prepareRequest a)
        rw [ht]
        split
        · rfl
        · rw [andThen_next, andThen_next]
          have : afterTx (.exec false lo) (transmitted k q d (prepareRequest a)) = (readFrame L (transmitted k q d (prepareRequest a))).andThen (widthCheck lo) :=
            afterSearch_eq (by simp) _ hrl
          rw [this]
  | hsk =>
    have hrl : runningLen .hsk (prepareRequest (hskBegin a)) = 7 := rfl
    refine key _ _ rfl (tx_goes hd 8 0 0 (prepareRequest (hskBegin a)) rfl (by omega) ha (fun _ => by rw [hrl]; omega)) ?_
    rw [txEnd_zero]
    unfold ending wrapEnd
    rw [if_pos rfl]
    have : (transmit (prepareRequest (hskBegin a))).andThen (afterTx .hsk) = execBody false false (hskBegin a) := by
      have hL : expectedLen false (hskBegin a) = some 7 := rfl
      simp only [execBody, hL, Bool.false_eq_true, if_false]
      rw [andThen_assoc]
      obtain ⟨k, q, d, hk, ht⟩ := transmit_cases (prepareRequest (hskBegin a))
      rw [ht]
      split
      · rfl
      · rw [andThen_next, andThen_next]
        exact afterSearch_eq (by simp) _ hrl
    rw [this]; rfl
  | pace =>
    refine key a _ rfl (Goes.move hd ha) ?_
    rw [hW (by simp)]; rfl
  | _ => exact hloc rfl rfl rfl (by simp)

/-- A run of one step more. -/
theorem run_succ {n : Nat} {s t : State} (h : step s = .next t) : Host.Core.run Sys2Proof.core (n + 1) s = Host.Core.run Sys2Proof.core n t := by
  have h' : core.step s = .next t := h
  simp only [Host.Core.run, h']

/-- With nothing on the host's list, a run is the sequencer's moves. -/
theorem run_moves (n : Nat) : ∀ s : State, s.host.bus = [] → Host.Core.run Sys2Proof.core n s = .next (seqMoves n s) := by
  induction n with
  | zero => intro s _; rfl
  | succ n ih =>
    intro s h
    have hb : (seqMove s).host.bus = [] := by
      rcases seqMove_cases s with h' | ⟨cmd, p, n, b, i, hs, hd, h', hk⟩
      · rw [h']; exact h
      · rw [h']
        rcases close_effect hk with hk | ⟨c, t, hk, h'⟩
        · rw [hk.host]; exact h
        · rw [h']
          show t.host.bus = []
          rw [hk.host]; exact h
    rw [run_succ (step_nil h)]
    exact ih _ hb

end Sys2Proof.Machine
end

