-- ==== Sys2Proof/Laws/PerInstr.lean ====
section
/-! SUPPORT. Per command: the word it encodes to matches its row of the opcode table, and keeps `RSVD = 0` (R86, R95). -/

namespace Sys2Proof.Laws.MatchesRow

/-- Under the mask that every row of the opcode table has, the encoded command is its row's match value. -/
def Statement (i : Instr) : Prop := i.wf = true → encode i &&& 0xFFFC00FF = i.opcode.setWidth 32

theorem nop : Statement .nop := fun _ => by decide

theorem crci : Statement .crci := fun _ => by decide

/-- The row's fixed bits of a `CRCB` word, for each of the 256 operands. -/
theorem crcb_fixed_bits : ∀ b : Fin 256, encode (.crcb b.val) &&& 0xFFFC00FF = 0x00000002 := by decide +kernel

theorem crcb (imm8 : Nat) : Statement (.crcb imm8) := fun h =>
  crcb_fixed_bits ⟨imm8, Nat.lt_succ_of_le (of_decide_eq_true h)⟩

theorem crcg : Statement .crcg := fun _ => by decide

theorem crcv : Statement .crcv := fun _ => by decide

theorem hdrc : Statement .hdrc := fun _ => by decide

theorem enc : Statement .enc := fun _ => by decide

theorem send : Statement .send := fun _ => by decide

theorem sync : Statement .sync := fun _ => by decide

theorem rdf : Statement .rdf := fun _ => by decide

theorem exec (noresp lovr : Bool) : Statement (.exec noresp lovr) := fun _ => by
  cases noresp <;> cases lovr <;> decide

theorem hsk : Statement .hsk := fun _ => by decide

theorem pace : Statement .pace := fun _ => by decide

end Sys2Proof.Laws.MatchesRow
end

