-- ==== Sys2Proof/Tests/Slice0.lean ====
section
/-! SUPPORT. The model's own tests. Every expected value is written out from spec/: the encodings of R80 and R86, and the
vectors of 95_test_vectors.md. After them, for each statement of Certificates/Slice0/Obligations.lean that has hypotheses, a
state and operands that meet all of them together; where a statement has clauses, at the boundary of each. A statement
without a witness of its own has no hypothesis but `Ready s` or `LineReady s` (`witness_ready`). -/

namespace Sys2Proof.Machine

/-! ### Small machines -/

/-- What a field reads after an outcome; `none` where the machine stops. -/
def seen {α : Type} (o : Host.Outcome State Fault Refusal) (f : State → α) : Option α :=
  match o with
  | .next t => some (f t)
  | .fault _ => none
  | .refused _ => none

/-- A reset machine whose line delivers `bs`, then falls silent, and accepts the next 8 bytes offered. -/
def hears (bs : List Byte) : State :=
  { State.reset with line := { rxq := bs.map .byte, tail := .silent, txAnswers := List.replicate 8 true, txlog := [] } }

/-- A reset machine with `bs` in `FBUF[0 ..]`, `BUF_LEN` their number. -/
def holds (bs : List Byte) : State :=
  { fbufStore 0 bs State.reset with bufLen := BitVec.ofNat 16 bs.length }

/-- The six request bytes. -/
def request (address function regHi regLo valHi valLo : Byte) : ReqBytes :=
  { address := address, function := function, regHi := regHi, regLo := regLo, valHi := valHi, valLo := valLo }

/-- The machine about to take one host action. -/
def doing (act : BusAction) (s : State) : State := { s with host := { s.host with bus := [act] } }

/-- The machine with `EXP_LEN = n`. -/
def expecting (n : Nat) (s : State) : State := { s with expLen := BitVec.ofNat 16 n }

/-- The machine with `FATAL = 1`. -/
def locked (s : State) : State := { s with status := { s.status with fatal := true } }

/-- The machine as it is while `PACE` runs. -/
def pacing : State :=
  { State.reset with
    seq := .run 0x0000000C .pace 0 Status.reset.flags
    status := { Status.reset with busy := true } }

/-! ### Well-formedness (R95: `imm8` is `0..255`) -/

theorem test_wf_accepts_the_largest_operand : (Instr.crcb 255).wf = true := by decide

theorem test_wf_refuses_an_operand_that_does_not_fit : (Instr.crcb 256).wf = false := by decide

theorem test_assembler_refuses_an_operand_that_does_not_fit : assemble ⟨.crcb, [], some 256⟩ = none := by decide

theorem test_assembler_refuses_a_missing_operand : assemble ⟨.crcb, [], none⟩ = none := by decide

theorem test_assembler_refuses_an_extra_operand : assemble ⟨.nop, [], some 1⟩ = none := by decide

theorem test_assembler_refuses_a_misplaced_suffix : assemble ⟨.send, [.nr], none⟩ = none := by decide

theorem test_assembler_refuses_a_repeated_suffix : assemble ⟨.exec, [.nr, .nr], none⟩ = none := by decide

theorem test_assembler_reads_a_hexadecimal_operand :
    (assembleText "CRCB  0x31".toList).map encode = some 0x00003102 := by decide

theorem test_assembler_reads_letter_digits :
    assembleText "CRCB 0xAf".toList = some (.crcb 0xAF) ∧ assembleText "CRCB 0x0G".toList = none ∧
    assembleText "CRCB 1A".toList = none := by decide

theorem test_assembler_reads_a_decimal_operand : assembleText "CRCB 255 ; all ones".toList = some (.crcb 255) := by
  decide

theorem test_assembler_refuses_256 : assembleText "CRCB 256".toList = none := by decide

theorem test_assembler_reads_suffixes :
    (assembleText "EXEC.LO.NR".toList).map encode = some 0x0003000A ∧
    (assembleText "EXEC.NR".toList).map encode = some 0x0001000A := by decide

theorem test_assembler_refuses_a_suffix_elsewhere : assembleText "SEND.NR".toList = none := by decide

/-! ### Decoding: words written out bit by bit, `RSVD LOVR NORESP IMM8 OPC` (R80, R86) -/

theorem test_decode_nop : decode 0b00000000000000_0_0_00000000_00000000 = .ok .nop := by decide

theorem test_decode_crci : decode 0b00000000000000_0_0_00000000_00000001 = .ok .crci := by decide

theorem test_decode_crcb : decode 0b00000000000000_0_0_10110001_00000010 = .ok (.crcb 0xB1) := by decide

theorem test_decode_crcg : decode 0b00000000000000_0_0_00000000_00000011 = .ok .crcg := by decide

theorem test_decode_crcv : decode 0b00000000000000_0_0_00000000_00000100 = .ok .crcv := by decide

theorem test_decode_hdrc : decode 0b00000000000000_0_0_00000000_00000101 = .ok .hdrc := by decide

theorem test_decode_enc : decode 0b00000000000000_0_0_00000000_00000110 = .ok .enc := by decide

theorem test_decode_send : decode 0b00000000000000_0_0_00000000_00000111 = .ok .send := by decide

theorem test_decode_sync : decode 0b00000000000000_0_0_00000000_00001000 = .ok .sync := by decide

theorem test_decode_rdf : decode 0b00000000000000_0_0_00000000_00001001 = .ok .rdf := by decide

theorem test_decode_exec_nr : decode 0b00000000000000_0_1_00000000_00001010 = .ok (.exec true false) := by decide

theorem test_decode_exec_lo : decode 0b00000000000000_1_0_00000000_00001010 = .ok (.exec false true) := by decide

theorem test_decode_hsk : decode 0b00000000000000_0_0_00000000_00001011 = .ok .hsk := by decide

theorem test_decode_pace : decode 0b00000000000000_0_0_00000000_00001100 = .ok .pace := by decide

theorem test_decode_ignores_unused_fields :
    decode 0b00000000000000_1_1_11111111_00000111 = .ok .send := by decide

theorem test_decode_refuses_the_first_free_opcode :
    decode 0b00000000000000_0_0_00000000_00001101 = .error .noSuchOpcode := by decide

theorem test_decode_refuses_the_lowest_reserved_bit :
    decode 0b00000000000001_0_0_00000000_00000000 = .error .reservedBits := by decide

theorem test_table_word_decodes : decodeTableWord 32 0x0003000A = some (.exec true true) := by decide

/-! ### One step on a small machine (95_test_vectors.md §2) -/

theorem test_nop_ignores_imm8 :
    seen (step (State.reset.withFetchWord 32 0x00005500)) (·.status.word) = some 0x102 := by decide

theorem test_crci : seen (exec .crci { State.reset with crc := 0x1234 }) (·.crc) = some 0xFFFF := by decide

theorem test_crcb_first_byte : seen (exec (.crcb 0x01) State.reset) (·.crc) = some 0x807E := by decide

theorem test_crcb_second_byte :
    seen (exec (.crcb 0x03) { State.reset with crc := 0x807E }) (·.crc) = some 0x2140 := by decide

theorem test_crcg_check_value :
    seen (exec .crcg (holds [0x31, 0x32, 0x33, 0x34, 0x35, 0x36, 0x37, 0x38, 0x39])) (fun t => (t.crc, t.status.word)) =
      some (0x4B37, 0x102) := by decide +kernel

theorem test_crcg_too_long :
    seen (exec .crcg { State.reset with crc := 0x1234, bufLen := 513 }) (fun t => (t.crc, t.status.word)) =
      some (0x1234, 0x802) := by decide

theorem test_crcv_good :
    seen (exec .crcv (holds [0x01, 0x03, 0x00, 0xFD, 0x00, 0x01, 0x15, 0xFA])) (fun t => (t.crc, t.status.word)) =
      some (0xFA15, 0x112) := by decide +kernel

theorem test_crcv_swapped :
    seen (exec .crcv (holds [0x01, 0x03, 0x00, 0xFD, 0x00, 0x01, 0xFA, 0x15])) (·.status.word) = some 0x132 := by decide +kernel

theorem test_hdrc_write : seen (exec .hdrc (holds [0x01, 0x06])) (·.status.word) = some 0x182 := by decide

theorem test_hdrc_swapped : seen (exec .hdrc (holds [0x03, 0x01])) (·.status.word) = some 0x102 := by decide

theorem test_enc :
    seen (exec .enc { State.reset with req := request 0x01 0x06 0x00 0xD0 0x00 0x0A })
        (fun t => ((regRead .txLo t).1, (regRead .txHi t).1, t.crc)) =
      some (0xD0000601, 0x34080A00, 0x3408) := by decide +kernel

theorem test_send_all_accepted :
    seen (exec .send (hears [])) (fun t => (t.txCnt, t.line.txlog, t.status.word)) =
      some (8, [0, 0, 0, 0, 0, 0, 0, 0], 0x102) := by decide

theorem test_send_five_accepted :
    seen (exec .send { hears [] with
        txbuf := { req := request 0x01 0x03 0x00 0xFD 0x00 0x01, crcLo := 0x15, crcHi := 0xFA }
        line := { (hears []).line with txAnswers := [true, true, true, true, true, false] } })
        (fun t => (t.txCnt, t.line.txlog, t.status.word)) =
      some (5, [0x01, 0x03, 0x00, 0xFD, 0x00], 0x506) := by decide

theorem test_sync_drops_garbage :
    seen (exec .sync (hears [0xFF, 0x00, 0x01, 0x01, 0x06])) (fun t => (t.dropCnt, t.fbuf, t.status.word)) =
      some (3, [(0, 0x01), (1, 0x06)], 0x182) := by decide +kernel

theorem test_sync_header_split_by_silence :
    seen (exec .sync { hears [] with line := { (hears []).line with rxq := [.byte 0x01, .gap, .byte 0x03] } })
        (fun t => (t.dropCnt, t.line.rxq, t.status.word)) =
      some (1, [.byte 0x03], 0x306) := by decide

theorem test_rdf_whole_frame :
    seen (exec .rdf (expecting 7 (hears [0xAA, 0x55, 0x01, 0x03, 0x02, 0x00, 0x82, 0x38, 0x25, 0x01, 0x06])))
        (fun t => (t.dropCnt, t.respVal, t.crc, t.line.rxq, t.status.word)) =
      some (2, 0x0082, 0x2538, [.byte 0x01, .byte 0x06], 0x152) := by decide +kernel

theorem test_rdf_one_payload_byte :
    seen (exec .rdf (expecting 6 (hears [0x01, 0x03, 0x01, 0x7F, 0xB1, 0xA8])))
        (fun t => (t.rxCnt, t.payLen, t.respVal, t.lenByte, t.crc, t.status.word)) =
      some (6, 1, 0x007F, 0x01, 0xA8B1, 0x152) := by decide +kernel

theorem test_exec_write_after_noise :
    seen (exec (.exec false false) { hears [0xFF, 0x00, 0x01, 0x01, 0x06, 0x00, 0xD0, 0x00, 0x0A, 0x08, 0x34] with
        req := request 0x01 0x06 0x00 0xD0 0x00 0x0A })
        (fun t => (t.line.txlog, t.dropCnt, t.payLen, t.respVal, t.status.word)) =
      some ([0x01, 0x06, 0x00, 0xD0, 0x00, 0x0A, 0x08, 0x34], 3, 3, 0x000A, 0x192) := by decide +kernel

theorem test_exec_wrong_width :
    seen (exec (.exec false false) { hears [0x01, 0x06, 0x00, 0xD0, 0x00, 0x0A, 0x08, 0x34] with
        req := request 0x01 0x03 0x00 0xDA 0x00 0x01 })
        (fun t => (t.payLen, t.respVal, t.crc, t.line.rxq, t.status.word)) =
      some (0, 0, 0x8844, [.byte 0x34], 0x4B2) := by decide +kernel

theorem test_hsk_success :
    seen (exec .hsk (hears [0x01, 0x03, 0x02, 0x00, 0x82, 0x38, 0x25]))
        (fun t => (t.line.txlog, t.respVal, t.status.word)) =
      some ([0x01, 0x03, 0x00, 0xFD, 0x00, 0x01, 0x15, 0xFA], 0x0082, 0x1152) := by decide +kernel

theorem test_hsk_write_echo :
    seen (exec .hsk (hears [0x01, 0x06, 0x00, 0xFD, 0x00, 0x82, 0x98, 0x5B]))
        (fun t => (t.rxCnt, t.line.rxq, t.status.word)) =
      some (7, [.byte 0x5B], 0x6B6) := by decide +kernel

theorem test_pace_runs_when_locked : seen (exec .pace (locked State.reset)) (·.status.word) = some 0x106 := by decide

theorem test_locked_exec : seen (exec (.exec false false) (locked (hears []))) (·.status.word) = some 0x906 := by decide

theorem test_illegal_before_lock :
    seen (step (doing (.write 0x008 0x0000000D) (locked State.reset))) (·.status.word) = some 0x706 := by decide

theorem test_collision_is_dropped :
    seen (step (doing (.write 0x008 0x00000000) pacing)) (fun t => (t.status.collide, t.status.busy, t.seq)) =
      some (true, true, .run 0x0000000C .pace 0 Status.reset.flags) := by decide +kernel

theorem test_pace_completes_by_itself : seen (step pacing) (·.status.word) = some 0x102 := by decide

/-- R72: while a command runs, a read of `STATUS` shows what stood there at its acceptance, and `BUSY`. -/
theorem test_status_read_while_hsk_runs :
    let s := { State.reset with status := { Status.reset with crcChk := true, hsOk := true } }
    seen (step (doing (.writeRacing 0x008 0x0000000B) s)) (fun t => (hostRead 0x00C t).host.reads) = some [0x1011] := by
  decide

/-- 95_test_vectors.md §2.11: of `STATUS = 0x306` only `DONE` and `COLLIDE` are W1C. -/
theorem test_status_clears_only_w1c :
    seen (step (doing (.write 0x00C 0xFFFFFFFF) { State.reset with
        status := { Status.reset with done := true, fatal := true, result := .badHeader } })) (·.status.word) =
      some 0x304 := by decide

/-- P3 of 95_test_vectors.md §4: the padded words of an `FB` line. -/
theorem test_fb_line_words :
    fbWords [0x31, 0x32, 0x33, 0x34, 0x35, 0x36, 0x37, 0x38, 0x39] = [0x34333231, 0x38373635, 0x00000039] := by decide

/-- P1 of 95_test_vectors.md §4: `READREG 0xDA, 1`. -/
theorem test_readReg_expansion :
    readReg 0xDA 1 = [.write 0x01C 0xDA000301, .write 0x020 0x00000100, .write 0x008 0x0000000A, .wait] := by decide

/-! ### Witnesses -/

/-- The machine about to take the host actions `acts`. -/
def about (acts : List BusAction) (s : State) : State := { s with host := { s.host with bus := acts } }

/-- A command is running and `rst` is released. -/
abbrev Busy (s : State) : Prop := s.rst = false ∧ s.status.busy = true

theorem witness_ready : Ready State.reset ∧ LineReady State.reset := by decide

/-! ### Encoding -/

theorem witness_DecodeOfEncode : (Instr.crcb 255).wf = true ∧ (Instr.exec true true).wf = true := by decide

theorem witness_IllegalWordsAreRejected :
    decode 0x0000000C = .ok .pace ∧ decode 0x0000000D = .error .noSuchOpcode ∧
    decode 0x0003FF00 = .ok .nop ∧ decode 0x00040000 = .error .reservedBits ∧
    decode 0xFFFC0000 = .error .reservedBits := by decide

theorem witness_IgnoredFieldsDoNotMatter :
    (0x0003FF07 : Word) ≠ 0x00000007 ∧ (0x0003FF07 : Word) &&& 0xFFFC00FF = 0x00000007 &&& 0xFFFC00FF ∧
    (0x0003FF02 : Word) &&& 0xFFFC00FF = 0x0000FF02 &&& 0xFFFC00FF ∧ (0x0003FF02 : Word) &&& 0xFF00 = 0x0000FF02 &&& 0xFF00 ∧
    (0x0003FF0A : Word) &&& 0xFFFC00FF = 0x0003000A &&& 0xFFFC00FF ∧ (0x0003FF0A : Word) &&& 0x30000 = 0x0003000A &&& 0x30000 := by
  decide

theorem witness_LegalWordsMatchOneRow :
    decode 0x0003FF0C = .ok .pace ∧ (0x0003FF0C : Word) &&& 0xFFFC00FF = Instr.pace.opcode.setWidth 32 := by decide

theorem witness_AssembledLinesEncode :
    assemble ⟨.crcb, [], some 255⟩ = some (.crcb 255) ∧ (Mnemonic.nop ≠ .exec) ∧ (256 > 255) := by decide

/-- Words with their ignored fields set, for the clauses on what an opcode decodes to, and an illegal one. -/
theorem witness_opcode_clauses :
    (0x0003FF00 : Word) >>> 18 = 0 ∧ (0x0003FF00 : Word) &&& 0xFF = 0x00 ∧ (0x00040000 : Word) >>> 18 ≠ 0 ∧
    (0x0003FF0C : Word) >>> 18 = 0 ∧ (0x0003FF0C : Word) &&& 0xFF = 0x0C := by decide

/-! ### Reset and the register window -/

theorem witness_ResetTable :
    (about [.rst true] pacing).host.bus = .rst true :: [] ∧
    (about [.rst false] { State.reset with rst := true }).host.bus = .rst false :: [] := by
  decide

theorem witness_ResetLeavesTheLine :
    (about [.rst true, .wait] (hears [0x01])).host.bus = .rst true :: [.wait] ∧
    (hears [0x01]).line.rxq = [.byte 0x01] := by decide

theorem witness_AccessesDuringResetAreIgnored :
    let s := { State.reset with rst := true }
    s.rst = true ∧ (about [.write 0x008 0x0000000A] s).host.bus = [.write 0x008 0x0000000A] ∧
    (about [.writeRacing 0xFFF 1] s).host.bus = [.writeRacing 0xFFF 1] ∧
    (about [.read 0x000] s).host.bus = [.read 0x000] := by decide

/-- The three kinds of access at an offset whose low bits are not 0. -/
theorem witness_OffsetLowBitsAreIgnored :
    (0x00F : Offset) &&& 0xFFC = 0x00C ∧ (BusAction.read 0x00F ≠ .read 0x00C) := by decide

theorem witness_UnmappedOffsets :
    ([0x044, 0x1FF, 0x400, 0xFFF] : List Offset).all
      (fun a => decide ((0x044 ≤ a.toNat ∧ a.toNat ≤ 0x1FF) ∨ 0x400 ≤ a.toNat)) = true ∧
    ∀ a, (about [.read a] State.reset).rst = false ∧ (about [.read a] State.reset).host.bus = [.read a] ∧
      (about [.write a 1] State.reset).host.bus = [.write a 1] := ⟨by decide, fun _ => ⟨rfl, rfl, rfl⟩⟩

/-- At every offset the statement lists; they differ, so no offset has two words. -/
theorem witness_RegistersReadTheirValue :
    ([0x000, 0x004, 0x008, 0x00C, 0x010, 0x014, 0x018, 0x01C, 0x020, 0x024, 0x028, 0x02C, 0x030, 0x034, 0x038, 0x03C,
      0x040] : List Offset).Nodup ∧
    ∀ a, Ready (about [.read a] State.reset) ∧ (about [.read a] State.reset).host.bus = [.read a] :=
  ⟨by decide, fun _ => ⟨⟨rfl, rfl⟩, rfl⟩⟩

/-- At every offset the statement lists; they differ, so no offset falls under two clauses. -/
theorem witness_RegisterWrites :
    ([0x004, 0x00C, 0x010, 0x014, 0x018, 0x01C, 0x020, 0x000, 0x024, 0x028, 0x02C, 0x030, 0x034, 0x038, 0x03C,
      0x040] : List Offset).Nodup ∧
    ∀ a v, Ready (about [.write a v] State.reset) ∧ (about [.write a v] State.reset).host.bus = [.write a v] ∧
      (about [.writeRacing a v] State.reset).host.bus = [.writeRacing a v] :=
  ⟨by decide, fun _ _ => ⟨⟨rfl, rfl⟩, rfl, rfl⟩⟩

/-- The first and the last word of the window. -/
theorem witness_FbufWindowHoldsTheWord :
    (∀ j ∈ [0, 127], j < 128 ∧ regAt (BitVec.ofNat 12 (0x200 + 4 * j)) = some (.fbuf j)) ∧
    ∀ a v, Ready (about [.writeRacing a v] State.reset) ∧ Ready (about [.read a] (holds [0x01])) ∧
      Memory.get? (holds [0x01]).fbuf 0 = some 0x01 ∧ Memory.get? (holds [0x01]).fbuf 1 = none :=
  ⟨by decide, fun _ _ => ⟨⟨rfl, rfl⟩, ⟨rfl, rfl⟩, rfl, rfl⟩⟩

theorem witness_UnwrittenBytesAreFreshDraws :
    Memory.get? State.reset.fbuf 511 = none ∧ Memory.get? (holds [0x55]).fbuf 0 = some 0x55 := by decide

theorem witness_AccessesWhileBusy :
    ([0x010, 0x043, 0x200, 0x3FF] : List Offset).all (fun a =>
      decide ((0x010 ≤ a.toNat ∧ a.toNat ≤ 0x043) ∨ (0x200 ≤ a.toNat ∧ a.toNat ≤ 0x3FF))) = true ∧
    ∀ a v, Busy (about [.write a v] pacing) ∧ (about [.write a v] pacing).host.bus = [.write a v] ∧
      Busy (about [.read a] pacing) ∧ (about [.read a] pacing).host.bus = [.read a] :=
  ⟨by decide, fun _ _ => ⟨⟨rfl, rfl⟩, rfl, ⟨rfl, rfl⟩, rfl⟩⟩

/-! ### Issue, completion, the fatal latch and the interrupt -/

theorem witness_StepRunsTheDecodedCommand :
    Ready (about [.write 0x00B 0x0003000A] State.reset) ∧ (0x00B : Offset) &&& 0xFFC = 0x008 ∧
    decode 0x0003000A = .ok (.exec true true) ∧ State.reset.seq = .idle ∧
    decodeTableWord 32 0x0003000A = some (.exec true true) := by decide

/-- One word for each of the rule's cases. -/
theorem witness_IssueRules :
    Busy (about [.write 0x008 0] pacing) ∧ Ready (locked State.reset) ∧ (locked State.reset).status.fatal = true ∧
    (0x0000000D &&& 0xFF : Word).toNat = 0x0D ∧ (0x00040000 : Word) >>> 18 ≠ 0 ∧
    (0x0000000B &&& 0xFF : Word) ∈ ([0x07, 0x08, 0x09, 0x0A, 0x0B] : List Word) ∧
    ¬ ((0x0000000C &&& 0xFF : Word) ∈ ([0x07, 0x08, 0x09, 0x0A, 0x0B] : List Word)) ∧
    ¬ ((0x0000000C : Word) >>> 18 ≠ 0 ∨ 0x0D ≤ (0x0000000C &&& 0xFF : Word).toNat) := by decide

theorem witness_CollideStaysUntilCleared :
    Busy (about [.write 0x008 0] pacing) ∧ (about [.write 0x008 0] pacing).host.bus = [.write 0x008 0] ∧
    let s := { State.reset with status := { Status.reset with collide := true } }
    s.status.collide = true ∧ seen (step (about [.write 0x00C 0x8] s)) (·.status.collide) = some false ∧
    seen (step (about [.rst true] s)) (·.status.collide) = some false := by decide

theorem witness_IllegalCommandCompletes :
    Ready (about [.write 0x008 0x0000000D] (locked State.reset)) ∧ 0x0D ≤ (0x0000000D &&& 0xFF : Word).toNat ∧
    (0x00040000 : Word) >>> 18 ≠ 0 := by decide

theorem witness_FatalIsSticky :
    seen (step (about [.rst true] (locked State.reset))) (·.status.fatal) = some false ∧
    seen (step (about [.write 0x008 0x00000008] (hears [0xFF]))) (·.status.fatal) = some true ∧
    (hears [0xFF]).status.fatal = false := by decide

/-- The invariant holds of a locked machine, of a running one, and of one in reset. -/
theorem witness_inv : Inv (locked (hears [0x01])) ∧ Inv pacing ∧ Inv { State.reset with rst := true } := by
  refine ⟨⟨by decide, by decide, by decide, by decide, by decide, .inl rfl, fun h => ?_, trivial⟩,
    ⟨by decide, by decide, by decide, by decide, by decide, .inl rfl, fun h => ?_, ?_⟩,
    ⟨by decide, by decide, by decide, by decide, by decide, .inl rfl, fun _ => rfl, trivial⟩⟩
  · cases h
  · cases h
  exact ⟨.pace, by decide, ⟨nofun, nofun, rfl⟩⟩

theorem witness_FatalLineStaysQuiet :
    Inv (locked (hears [0x01])) ∧ (locked (hears [0x01])).status.fatal = true ∧
    seen (step (locked (hears [0x01]))) (·.line.rxq) = some [.byte 0x01] := ⟨witness_inv.1, rfl, by decide⟩

/-- A step that takes a byte off the line, and one that sends some. -/
theorem witness_LineOnlyMovesForward :
    seen (step (about [.write 0x008 0x00000008] (hears [0xFF]))) (·.line.rxq) = some [] ∧
    seen (step (about [.write 0x008 0x00000007] (hears []))) (·.line.txlog.length) = some 8 := by decide

theorem witness_InterruptFollowsDone :
    let s := about [.write 0x00C 0x2] { State.reset with ie := true, status := { Status.reset with done := true } }
    s.rst = false ∧ s.host.bus = [.write 0x00C 0x2] ∧ (0x2 : Word).getLsbD 1 = true ∧ irq s = true := by decide

theorem witness_OperandRegistersAreTheHosts :
    seen (step (about [.write 0x018 7] State.reset)) (·.expLen) = some 7 ∧
    seen (step (about [.write 0x014 7] State.reset)) (·.bufLen) = some 7 ∧
    seen (step (about [.write 0x004 1] State.reset)) (·.ie) = some true ∧
    seen (step (about [.rst true] (expecting 7 State.reset))) (·.expLen) = some 0 := by decide

theorem witness_DutifulHostNeverCollides :
    hostObeys (about [.write 0x00C 2] pacing) = true ∧ hostObeys (about [.write 0x008 0] pacing) = false ∧
    pacing.status.collide = false ∧ seen (step (about [.write 0x00C 2] pacing)) (·.status.collide) = some false := by
  decide

theorem witness_StepKeepsTheInvariant : Inv pacing ∧ seen (step pacing) (·.status.done) = some true :=
  ⟨witness_inv.2.1, by decide⟩

/-- A command in the non-atomic view is still running one step after it is issued. -/
theorem witness_MovesReachTheAtomicResult :
    State.reset.status.busy = false ∧ seen (step (about [.writeRacing 0x008 0xC] State.reset)) (·.status.busy) = some true := by
  decide

theorem witness_GarbageKeepsTheSearchRunning :
    let s := { hears [0x00, 0x01, 0x01, 0x03] with
      seq := .run 0x00000008 .syncSlide 2 Status.reset.flags, win0 := 0x01, win1 := 0xFF }
    s.host.bus = [] ∧ decode 0x00000008 = .ok .sync ∧ noHeader (s.win1 :: [0x00, 0x01]) = true ∧
    s.line.rxq = delivered [0x00, 0x01] ++ [.byte 0x01, .byte 0x03] := by decide

/-! ### The CRC -/

/-- The empty sequence and its CRC, `FF FF`. -/
theorem witness_CrcRoundTrip :
    Ready (holds [0xFF, 0xFF]) ∧ (holds [0xFF, 0xFF]).bufLen.toNat = ([] : List Byte).length + 2 ∧
    (∀ k, k < ([] : List Byte).length + 2 → Memory.get? (holds [0xFF, 0xFF]).fbuf k = ([] ++ crcWire (crc16 []))[k]?) := by
  decide

theorem witness_CrcbResult : Ready State.reset ∧ (Instr.crcb 0).wf = true ∧ (Instr.crcb 255).wf = true := by decide

theorem witness_CrcgResult :
    Ready State.reset ∧ ({ State.reset with bufLen := 512 }).bufLen.toNat ≤ 512 ∧
    512 < ({ State.reset with bufLen := 513 }).bufLen.toNat ∧ Memory.get? (holds [0x55]).fbuf 0 = some 0x55 := by decide

theorem witness_CrcvResult :
    ({ State.reset with bufLen := 1 }).bufLen.toNat < 2 ∧ 2 ≤ ({ State.reset with bufLen := 2 }).bufLen.toNat ∧
    ({ State.reset with bufLen := 512 }).bufLen.toNat ≤ 512 ∧ 512 < ({ State.reset with bufLen := 513 }).bufLen.toNat := by
  decide

/-! ### The frame codec -/

theorem witness_SyncFindsTheHeader :
    LineReady (hears [0xFF, 0x00, 0x01, 0x01, 0x06, 0x07]) ∧ noHeader ([0xFF, 0x00, 0x01] ++ [0x01]) = true ∧
    classify 0x01 0x06 ≠ .unknown ∧
    (hears [0xFF, 0x00, 0x01, 0x01, 0x06, 0x07]).line.rxq =
      delivered ([0xFF, 0x00, 0x01] ++ [0x01, 0x06]) ++ [.byte 0x07] := by decide

/-- Both ways the line falls silent, with no byte and with one; both ends of the legal lengths. -/
theorem witness_EndOfStreamIsClassified :
    let s := { expecting 5 (hears [0x01]) with req := request 0x01 0x03 0x00 0xDA 0x00 0x01 }
    LineReady s ∧ noHeader [0x01] = true ∧ s.line.rxq = delivered [0x01] ∧ s.line.tail = .silent ∧
    5 ≤ s.expLen.toNat ∧ (expecting 512 s).expLen.toNat ≤ 512 ∧
    s.line.txAnswers = List.replicate 8 true ++ [] ∧ expectedLen false s ≠ none ∧ expectedLen true s ≠ none ∧
    noHeader [] = true ∧
    ({ s with line := { s.line with rxq := [.gap, .byte 0x01] } }).line.rxq = delivered [] ++ .gap :: [.byte 0x01] := by
  decide

/-- A frame without payload, and frames with one payload byte and with two. -/
theorem witness_RdfDeliversTheFrame :
    let f₀ : List Byte := [0x01, 0x03, 0x02, 0xA1, 0x31]
    let f₁ : List Byte := [0x01, 0x06, 0x01, 0x7F, 0xB1, 0xA8]
    let f₂ : List Byte := [0x01, 0x03, 0x02, 0x00, 0x82, 0x38, 0x25]
    ∀ f ∈ [f₀, f₁, f₂],
      let s := expecting f.length (hears ([0xAA] ++ f ++ [0x07]))
      LineReady s ∧ s.expLen.toNat = f.length ∧ 5 ≤ f.length ∧ f.length ≤ 512 ∧
      noHeader ([0xAA] ++ [f.getD 0 0]) = true ∧ classify (f.getD 0 0) (f.getD 1 0) ≠ .unknown ∧
      s.line.rxq = delivered ([0xAA] ++ f) ++ [.byte 0x07] := by decide

theorem witness_RdfRefusesIllegalLengths :
    LineReady (expecting 4 State.reset) ∧ (expecting 4 State.reset).expLen.toNat < 5 ∧
    LineReady (expecting 513 State.reset) ∧ 512 < (expecting 513 State.reset).expLen.toNat := by decide

/-- Both ways the line falls silent. -/
theorem witness_RdfShortFrameTimesOut :
    let s := expecting 5 (hears [0x01, 0x03])
    let f : List Byte := [0x01, 0x03]
    LineReady s ∧ 2 ≤ f.length ∧ f.length < s.expLen.toNat ∧ 5 ≤ s.expLen.toNat ∧ s.expLen.toNat ≤ 512 ∧
    noHeader ([] ++ [f.getD 0 0]) = true ∧ classify (f.getD 0 0) (f.getD 1 0) ≠ .unknown ∧
    FallsSilent ([] ++ f) [] s.line ∧
    FallsSilent ([] ++ f) [.byte 0x02] { s.line with rxq := [.byte 0x01, .byte 0x03, .gap, .byte 0x02] } := by decide

/-! ### The transactor -/

/-- A line that refuses the first byte, and one that accepts all 8. -/
theorem witness_SendResult :
    let s := { State.reset with line := { State.reset.line with txAnswers := [false, true] } }
    Ready (locked (hears [])) ∧ (locked (hears [])).status.fatal = true ∧
    LineReady s ∧ s.line.txAnswers = List.replicate 0 true ++ (if 0 < 8 then false :: [true] else [true]) ∧
    LineReady (hears []) ∧
    (hears []).line.txAnswers = List.replicate 8 true ++ (if 8 < 8 then false :: [] else []) := by decide

theorem witness_ExecLengthSelection :
    let s := fun code n => { expecting n State.reset with req := request 0x01 code 0x00 0x00 0x00 0x01 }
    LineReady (s 0x03 5) ∧ (s 0x03 5).req.function = 0x03 ∧ (s 0x06 512).req.function = 0x06 ∧
    (s 0x10 4).req.function ≠ 0x03 ∧ (s 0x10 4).req.function ≠ 0x06 ∧
    5 ≤ (s 0x03 5).expLen.toNat ∧ (s 0x06 512).expLen.toNat ≤ 512 ∧ (s 0x10 4).expLen.toNat < 5 ∧
    512 < (s 0x10 513).expLen.toNat ∧ expectedLen false (s 0x10 5) = none ∧ expectedLen true (s 0x03 4) = none := by
  decide

/-- A response of the right payload width, and one of another width: a read response of length 8. -/
theorem witness_ExecTransaction :
    let right : List Byte := [0x01, 0x03, 0x02, 0x00, 0x02, 0x39, 0x85]
    let wrong : List Byte := [0x01, 0x03, 0x02, 0x00, 0x0A, 0x38, 0x43, 0xEE]
    let s := { hears ([0xFF] ++ right) with req := request 0x01 0x03 0x00 0xDA 0x00 0x01 }
    let t := { hears wrong with req := request 0x01 0x06 0x00 0xD0 0x00 0x0A }
    LineReady s ∧ s.line.txAnswers = List.replicate 8 true ++ [] ∧ expectedLen false s = some right.length ∧
    noHeader ([0xFF] ++ [right.getD 0 0]) = true ∧ classify (right.getD 0 0) (right.getD 1 0) ≠ .unknown ∧
    s.line.rxq = delivered ([0xFF] ++ right) ++ [] ∧ right.length - 5 = 2 ∧
    LineReady t ∧ expectedLen false t = some wrong.length ∧ noHeader ([] ++ [wrong.getD 0 0]) = true ∧
    t.line.rxq = delivered ([] ++ wrong) ++ [] ∧ wrong.length - 5 ≠ 2 ∧
    expectedLen true (expecting 7 s) = some right.length := by decide

theorem witness_ExecWithoutResponse :
    LineReady (hears []) ∧ (hears []).line.txAnswers = List.replicate 8 true ++ [] := by decide

/-- The first byte refused, and the last. -/
theorem witness_ExecIncompleteWrite :
    let s := { State.reset with
      req := request 0x01 0x03 0x00 0xDA 0x00 0x01
      line := { State.reset.line with txAnswers := [false] } }
    let t := { State.reset with
      line := { State.reset.line with txAnswers := [true, true, true, true, true, true, true, false] } }
    LineReady s ∧ s.line.txAnswers = List.replicate 0 true ++ false :: [] ∧ expectedLen false s ≠ none ∧
    LineReady t ∧ t.line.txAnswers = List.replicate 7 true ++ false :: [] := by decide

/-- A response with the magic byte, one with another, and one with the magic byte and a Write header. -/
theorem witness_HskResult :
    let good : List Byte := [0x01, 0x03, 0x02, 0x00, 0x82, 0x38, 0x25]
    let bad : List Byte := [0x01, 0x03, 0x02, 0x00, 0x83, 0xF9, 0xE5]
    let echo : List Byte := [0x01, 0x06, 0x00, 0xFD, 0x82, 0x00, 0x00]
    ∀ f ∈ [good, bad, echo], LineReady (hears f) ∧ (hears f).line.txAnswers = List.replicate 8 true ++ [] ∧
      f.length = 7 ∧ noHeader ([] ++ [f.getD 0 0]) = true ∧ classify (f.getD 0 0) (f.getD 1 0) ≠ .unknown ∧
      (hears f).line.rxq = delivered ([] ++ f) ++ [] := by decide

/-- No length byte, and a body that lacks its last byte. -/
theorem witness_ShortResponseEndsTheTransaction :
    let s := { expecting 5 (hears [0xAA, 0x01, 0x03]) with req := request 0x01 0x03 0x00 0xDA 0x00 0x01 }
    let f : List Byte := [0x01, 0x03]
    let f' : List Byte := [0x01, 0x03, 0x02, 0x00, 0x82, 0x38]
    LineReady s ∧ s.line.txAnswers = List.replicate 8 true ++ [] ∧ noHeader ([0xAA] ++ [f.getD 0 0]) = true ∧
    classify (f.getD 0 0) (f.getD 1 0) ≠ .unknown ∧ FallsSilent ([0xAA] ++ f) [] s.line ∧
    FallsSilent ([] ++ f') [.byte 0x25] { s.line with rxq := delivered f' ++ [.gap, .byte 0x25] } ∧
    expectedLen false s = some 7 ∧ f'.length < 7 ∧ expectedLen true s = some 5 ∧ 2 ≤ f.length := by decide

theorem witness_LineCommandsComplete :
    LineReady (hears []) ∧ touchesLine (.exec true false) = true ∧ (hears []).line.tail = .silent := by decide

theorem witness_LineCommandFrames :
    Ready (hears [0xFF]) ∧ touchesLine .sync = true ∧ seen (exec .sync (hears [0xFF])) (·.status.done) = some true ∧
    touchesLine .send = true ∧ seen (exec .send (hears [])) (·.status.done) = some true := by decide

end Sys2Proof.Machine
end

/-! The interrupt (R44, R220) over the updates that move `DONE`, and a host write to `STATUS` as a whole step. -/

namespace Sys2Proof.Machine

theorem irq_eq (s : State) : irq s = (s.ie && s.status.done) := rfl

theorem irq_eq_false_of_not_done {s : State} (h : s.status.done = false) : irq s = false := by
  rw [irq_eq, h, Bool.and_false]

theorem irq_accept (p : SeqPoint) (s : State) : irq (accept p s) = false :=
  irq_eq_false_of_not_done rfl

theorem irq_complete (code : Result) (s : State) : irq (complete code s) = s.ie := by
  rw [irq_eq, complete_ie, complete_status, Bool.and_true]

/-- R24: the W1C bit of `DONE` is bit 1. -/
theorem writeOneToClear_done {v : Word} (hv : v.getLsbD 1 = true) (t : Status) :
    (t.writeOneToClear v).done = false := by
  simp [Status.writeOneToClear, hv]

theorem irq_regWrite_status {v : Word} (hv : v.getLsbD 1 = true) (s : State) :
    irq (regWrite .status v s) = false :=
  irq_eq_false_of_not_done (writeOneToClear_done hv s.status)

/-- Out of reset the block acts on a host write to `STATUS`, while a command runs as well (R65, R71). -/
theorem step_write_status {s : State} {a : Offset} {v : Word} {rest : List BusAction} (hr : s.rst = false)
    (hb : s.host.bus = .write a v :: rest) (ha : regAt a = some .status) :
    step s = .next (regWrite .status v (driveData v (popAction rest s))) := by
  have hcmd : regAt a ≠ some .cmd := by simp [ha]
  have hr' : (driveData v (popAction rest s)).rst = false := hr
  rw [step_write_store hb hcmd, hostStore_mapped hr' ha (.inr rfl)]

/-- Settles O27: each clause is the value of `irq` after one update; the step of the last one is a write to `STATUS`,
which is not withheld from a running command. -/
theorem interruptFollowsDone : Obligations.InterruptFollowsDone := by
  intro s v rest hr
  refine ⟨irq_eq s, fun p => irq_accept p s, fun code => irq_complete code s, fun hb hv => ?_⟩
  have hstatus : regAt 0x00C = some .status := (regAt_eq_status _).mpr rfl
  exact ⟨_, step_write_status hr hb hstatus, irq_regWrite_status hv _⟩

end Sys2Proof.Machine

/-! The offset of a host access (R61): its low bits reach the block only through `regAt`, and no access, and no other
action at the block's inputs, ends in a fault or a refusal. -/

namespace Sys2Proof.Machine

/-! ### The low bits of an offset -/

theorem hostRead_masked (a : Offset) (s : State) : hostRead (a &&& 0xFFC) s = hostRead a s := by
  simp only [hostRead, regAt_masked]

theorem hostStore_masked (a : Offset) (v : Word) (s : State) :
    hostStore (a &&& 0xFFC) v s = hostStore a v s := by
  simp only [hostStore, regAt_masked]

theorem step_cons {s : State} {act : BusAction} {rest : List BusAction} (h : s.host.bus = act :: rest) :
    step s = takeAction act rest s := by
  simp only [step, machineStep, h]

/-- An access sees its state only with the access taken off the list, so the states before it may differ in the list. -/
theorem takeAction_masked {mk : Offset → BusAction} {v : Word}
    (hmk : mk = .read ∨ mk = (.write · v) ∨ mk = (.writeRacing · v)) (a : Offset) {rest : List BusAction}
    {s s' : State} (hpop : popAction rest s = popAction rest s') :
    takeAction (mk a) rest s = takeAction (mk (a &&& 0xFFC)) rest s' := by
  rcases hmk with rfl | rfl | rfl
  · simp only [takeAction, hostRead_masked, hpop]
  · simp only [takeAction, regAt_masked, hostStore_masked, hpop]
  · simp only [takeAction, regAt_masked, hostStore_masked, hpop]

/-! ### Every step goes on -/

theorem issueWord_goes_on (v : Word) (s : State) : ∃ t, issueWord v s = .next t := by
  rcases issueWord_cases v s with ⟨-, h⟩ | ⟨-, -, h⟩ | ⟨-, -, h⟩ | ⟨-, i, -, h⟩
  · exact ⟨_, h⟩
  · exact ⟨_, h⟩
  · exact ⟨_, h⟩
  · exact ⟨_, h.trans (exec_eq_issue i s)⟩

/-- Only a command word written to `CMD` has an outcome of its own, and it is always a next state. -/
theorem step_goes_on (s : State) : ∃ t, step s = .next t := by
  cases hb : s.host.bus with
  | nil => exact ⟨_, step_nil hb⟩
  | cons act rest =>
    cases act with
    | read a => exact ⟨_, step_read hb⟩
    | write a v =>
      by_cases ha : regAt a = some .cmd
      · rw [step_write_cmd hb ha]
        exact issueWord_goes_on v _
      · exact ⟨_, step_write_store hb ha⟩
    | writeRacing a v =>
      by_cases ha : regAt a = some .cmd
      · exact ⟨_, step_racing_cmd hb ha⟩
      · exact ⟨_, step_racing_store hb ha⟩
    | tick => exact ⟨_, step_tick hb⟩
    | wait =>
      cases hd : s.status.done with
      | true => exact ⟨_, step_wait_done hb hd⟩
      | false => exact ⟨_, step_wait_busy hb hd⟩
    | rst level => exact ⟨_, step_rst hb⟩

/-- Settles O10: the two accesses are the same action on the same state once they are taken off the host's list. -/
theorem offsetLowBitsAreIgnored : Obligations.OffsetLowBitsAreIgnored := by
  intro s a v rest mk hmk
  refine ⟨?_, step_goes_on _⟩
  rw [step_cons rfl, step_cons rfl]
  exact takeAction_masked hmk a rfl

end Sys2Proof.Machine

/-! Decoding (R80 to R88): which words the decoder rejects, and which fields of a word it reads. -/

namespace Sys2Proof

/-! ### The fields of a word as shifts and masks (R80) -/

theorem fieldOpc_toNat (v : Word) : (fieldOpc v).toNat = (v &&& 0xFF).toNat := by
  rw [fieldOpc, BitVec.extractLsb'_toNat, BitVec.toNat_and]
  exact (Nat.and_two_pow_sub_one_eq_mod v.toNat 8).symm

/-- Nothing stands above `RSVD`, so the shift leaves no bit that the field does not have. -/
theorem fieldRsvd_toNat (v : Word) : (fieldRsvd v).toNat = (v >>> 18).toNat := by
  rw [fieldRsvd, BitVec.extractLsb'_toNat]
  exact Nat.mod_eq_of_lt (v.toNat_ushiftRight_lt 18 (by decide))

theorem fieldRsvd_eq_zero_iff (v : Word) : fieldRsvd v = 0 ↔ v >>> 18 = 0 := by
  rw [← BitVec.toNat_inj, fieldRsvd_toNat, ← BitVec.toNat_inj]
  rfl

/-- A mask that covers a field fixes it. -/
theorem extractLsb'_eq_of_masked {m v w : Word} {start len : Nat} (hm : m.extractLsb' start len = BitVec.allOnes len)
    (h : v &&& m = w &&& m) : v.extractLsb' start len = w.extractLsb' start len := by
  have hfield := congrArg (BitVec.extractLsb' start len) h
  simpa only [BitVec.extractLsb'_and, hm, BitVec.and_allOnes] using hfield

theorem getLsbD_eq_of_masked {m v w : Word} {i : Nat} (hm : m.getLsbD i = true) (h : v &&& m = w &&& m) :
    v.getLsbD i = w.getLsbD i := by
  have hbit := congrArg (BitVec.getLsbD · i) h
  simpa only [BitVec.getLsbD_and, hm, Bool.and_true] using hbit

/-! ### Rejected words -/

theorem decode_of_rsvd {v : Word} (h : fieldRsvd v ≠ 0) : decode v = .error .reservedBits :=
  if_pos h

theorem decode_of_free_opcode {v : Word} (hr : fieldRsvd v = 0) (ho : 0x0D ≤ (fieldOpc v).toNat) :
    decode v = .error .noSuchOpcode := by
  rw [decode, if_neg (not_not_intro hr)]
  split
  case h_14 => rfl
  all_goals omega

theorem decode_of_opcode {v : Word} (hr : fieldRsvd v = 0) (ho : (fieldOpc v).toNat < 0x0D) :
    ∃ i, decode v = .ok i := by
  rw [decode, if_neg (not_not_intro hr)]
  interval_cases (fieldOpc v).toNat
  all_goals exact ⟨_, rfl⟩

theorem decode_rejects_iff (v : Word) :
    (∃ e, decode v = .error e) ↔ fieldRsvd v ≠ 0 ∨ 0x0D ≤ (fieldOpc v).toNat := by
  by_cases hr : fieldRsvd v = 0
  · by_cases ho : 0x0D ≤ (fieldOpc v).toNat
    · exact iff_of_true ⟨_, decode_of_free_opcode hr ho⟩ (.inr ho)
    · obtain ⟨i, hi⟩ := decode_of_opcode hr (not_le.mp ho)
      simp [hi, hr, ho]
  · exact iff_of_true ⟨_, decode_of_rsvd hr⟩ (.inl hr)

/-- Settles O2: the decoder's two refusals, with its fields written as shift and mask. -/
theorem illegalWordsAreRejected : Obligations.IllegalWordsAreRejected := by
  intro v
  rw [decode_rejects_iff, fieldOpc_toNat, ne_eq, fieldRsvd_eq_zero_iff]

/-! ### Ignored fields -/

/-- R82: all that `decode` reads of a word; only `CRCB` and `EXEC` read more than `RSVD` and `OPC`. -/
theorem decode_congr {v w : Word} (hr : fieldRsvd v = fieldRsvd w) (ho : fieldOpc v = fieldOpc w)
    (hcrcb : (fieldOpc v).toNat = 0x02 → fieldImm8 v = fieldImm8 w)
    (hexec : (fieldOpc v).toNat = 0x0A → fieldNoresp v = fieldNoresp w ∧ fieldLovr v = fieldLovr w) :
    decode v = decode w := by
  rw [ho] at hcrcb hexec
  simp only [decode, hr, ho]
  split
  · rfl
  · split
    case h_3 h => rw [hcrcb h]
    case h_11 h =>
      obtain ⟨hnoresp, hlovr⟩ := hexec h
      rw [hnoresp, hlovr]
    all_goals rfl

/-- Settles O3: each mask covers the fields it stands for, so the two words agree on all that the decoder reads. -/
theorem ignoredFieldsDoNotMatter : Obligations.IgnoredFieldsDoNotMatter := by
  intro v w hrow hcrcb hexec
  apply decode_congr
  · exact extractLsb'_eq_of_masked (by decide) hrow
  · exact extractLsb'_eq_of_masked (by decide) hrow
  · intro ho
    rw [fieldOpc_toNat] at ho
    exact extractLsb'_eq_of_masked (by decide) (hcrcb (BitVec.eq_of_toNat_eq ho))
  · intro ho
    rw [fieldOpc_toNat] at ho
    have hflags := hexec (BitVec.eq_of_toNat_eq ho)
    exact ⟨getLsbD_eq_of_masked (by decide) hflags, getLsbD_eq_of_masked (by decide) hflags⟩

end Sys2Proof

/-! The commands that do not touch the line, up to `CRCV` (40_crc.md): the words that mean them, the bytes of `FBUF` that
they read, and what each leaves. -/

namespace Sys2Proof.Machine

/-! ### The command words (R86, R103 to R107) -/

/-- R82: a legal word with the opcode of a command without operands decodes as the bare opcode does. -/
theorem decode_of_plain_opcode {v opc : Word} (hcrcb : opc ≠ 0x02) (hexec : opc ≠ 0x0A) (hr : v >>> 18 = 0)
    (ho : v &&& 0xFF = opc) : decode v = decode opc := by
  subst ho
  have hfield : fieldOpc v = fieldOpc (v &&& 0xFF) := extractLsb'_eq_of_masked (m := 0xFF) (by decide) (by
    rw [BitVec.and_assoc, BitVec.and_self])
  have hnot {n : Word} (hne : v &&& 0xFF ≠ n) : (fieldOpc v).toNat ≠ n.toNat := by
    rwa [fieldOpc_toNat, ne_eq, BitVec.toNat_inj]
  have hrsvd : fieldRsvd (v &&& 0xFF) = 0 := by
    rw [fieldRsvd, BitVec.extractLsb'_and]
    exact BitVec.and_zero
  exact decode_congr (((fieldRsvd_eq_zero_iff v).mpr hr).trans hrsvd.symm) hfield
    (fun h => absurd h (hnot hcrcb)) (fun h => absurd h (hnot hexec))

/-! ### The operands (R81, R106, R107) -/

theorem bufLenOperand_of_le {s : State} (h : s.bufLen.toNat ≤ 512) : bufLenOperand s = some s.bufLen.toNat :=
  if_neg (not_lt.mpr h)

theorem bufLenOperand_of_gt {s : State} (h : 512 < s.bufLen.toNat) : bufLenOperand s = none :=
  if_pos h

/-- R95: an operand that fits is its own byte. -/
theorem setWidth_immByte {imm8 : Nat} (h : (Instr.crcb imm8).wf = true) :
    (immByte imm8).setWidth 16 = BitVec.ofNat 16 imm8 := by
  have hle : imm8 ≤ 255 := of_decide_eq_true h
  apply BitVec.eq_of_toNat_eq
  simp only [immByte, BitVec.toNat_setWidth, BitVec.toNat_ofNat]
  omega

/-! ### The trailing CRC of a frame (R107, R138) -/

theorem frameCovered_append (bs : List Byte) (lo hi : Byte) : frameCovered (bs ++ [lo, hi]) = bs := by
  simp [frameCovered]

theorem frameBad_append (bs : List Byte) (lo hi : Byte) :
    frameBad (bs ++ [lo, hi]) = crcMismatch (crc16 bs) lo hi := by
  have hdrop : (bs ++ [lo, hi]).drop ((bs ++ [lo, hi]).length - 2) = [lo, hi] := by simp
  rw [frameBad, hdrop, frameCovered_append, Bool.eq_iff_iff]
  simp [crcWire, crcMismatch, eq_comm (a := lo), eq_comm (a := hi)]

/-- A range of `FBUF` is read one part after the other. -/
theorem fbufRange_add (m n : Nat) : ∀ (i : Nat) (s : State),
    fbufRange i (m + n) s =
      ((fbufRange i m s).1 ++ (fbufRange (i + m) n (fbufRange i m s).2).1,
        (fbufRange (i + m) n (fbufRange i m s).2).2) := by
  induction m with
  | zero =>
    intro i s
    rw [Nat.zero_add]
    rfl
  | succ m ih =>
    intro i s
    have hcount : m + 1 + n = m + n + 1 := by omega
    have haddr : i + (m + 1) = i + 1 + m := by omega
    simp only [hcount, haddr, fbufRange, ih, List.cons_append]

/-- The frame check, which reads the frame in three parts, by the bytes that one read of the whole gives. -/
theorem checkFrame_eq_of_fbufRange {m : Nat} {s t : State} {f : List Byte} (h : fbufRange 0 (m + 2) s = (f, t)) :
    checkFrame (m + 2) s = { t with
      crc := crc16 (frameCovered f)
      status := { t.status with crcChk := true, crcErr := frameBad f } } := by
  rw [fbufRange_add] at h
  obtain ⟨rfl, rfl⟩ := Prod.mk.inj h
  simp only [fbufRange, Nat.zero_add, frameCovered_append, frameBad_append]
  rfl

/-! ### What the pseudocode leaves -/

/-- `CRCG` at a legal `BUF_LEN` (R106). -/
theorem crcgBody_of_le {s : State} (h : s.bufLen.toNat ≤ 512) : ∃ bs d, bs.length = s.bufLen.toNat ∧
    (∀ k b, k < bs.length → Memory.get? s.fbuf k = some b → bs[k]? = some b) ∧
    crcgBody s = .next { s with crc := crc16 bs, draws := d } := by
  obtain ⟨bs, d, hread, hlen, hlisted⟩ := fbufRange_cases s.bufLen.toNat 0 s
  refine ⟨bs, d, hlen, fun k b hk hb => hlisted k b (hlen ▸ hk) (by rwa [Nat.zero_add]), ?_⟩
  simp only [crcgBody, bufLenOperand_of_le h, hread]

theorem crcgBody_of_gt {s : State} (h : 512 < s.bufLen.toNat) : crcgBody s = .raise .lenErr s := by
  simp only [crcgBody, bufLenOperand_of_gt h]

/-- `CRCV` of a frame that holds a CRC (R107). -/
theorem crcvBody_of_le {s : State} (h₂ : 2 ≤ s.bufLen.toNat) (h : s.bufLen.toNat ≤ 512) :
    ∃ bs d, bs.length = s.bufLen.toNat ∧
    (∀ k b, k < bs.length → Memory.get? s.fbuf k = some b → bs[k]? = some b) ∧
    crcvBody s = .next { s with
      crc := crc16 (frameCovered bs), draws := d
      status := { s.status with crcChk := true, crcErr := frameBad bs } } := by
  obtain ⟨bs, d, hread, hlen, hlisted⟩ := fbufRange_cases s.bufLen.toNat 0 s
  refine ⟨bs, d, hlen, fun k b hk hb => hlisted k b (hlen ▸ hk) (by rwa [Nat.zero_add]), ?_⟩
  obtain ⟨m, hm⟩ := Nat.exists_eq_add_of_le' h₂
  rw [hm] at hread
  simp only [crcvBody, bufLenOperand_of_le h, if_neg (not_lt.mpr h₂)]
  rw [hm, checkFrame_eq_of_fbufRange hread]

theorem crcvBody_of_lt {s : State} (h : s.bufLen.toNat < 2) : crcvBody s = .next (setCrcFlags true s) := by
  simp only [crcvBody, bufLenOperand_of_le (s := s) (by omega), if_pos h]

theorem crcvBody_of_gt {s : State} (h : 512 < s.bufLen.toNat) : crcvBody s = .raise .lenErr s := by
  simp only [crcvBody, bufLenOperand_of_gt h]

/-! ### The commands -/

/-- Settles O40: the bytes are those that the pseudocode reads from acceptance on, which leaves `FBUF` and `BUF_LEN`. -/
theorem crcgResult : Obligations.CrcgResult := by
  refine ⟨fun v hr ho => decode_of_plain_opcode (by decide) (by decide) hr ho, fun s hs => ⟨fun h => ?_, fun h => ?_⟩⟩
  · obtain ⟨bs, d, hlen, hlisted, hbody⟩ := crcgBody_of_le (s := accept (entryPoint .crcg) s) h
    refine ⟨bs, d, hlen, hlisted, ?_⟩
    rw [exec_taken hs (.inl rfl), commandBody, hbody, close_next]
    rfl
  · rw [exec_taken hs (.inl rfl), commandBody, crcgBody_of_gt (s := accept _ s) h]
    rfl

/-- Settles O41: the three ranges of `BUF_LEN` are the cases of the pseudocode. -/
theorem crcvResult : Obligations.CrcvResult := by
  refine ⟨fun v hr ho => decode_of_plain_opcode (by decide) (by decide) hr ho,
    fun s hs => ⟨fun h₂ h => ?_, fun h => ?_, fun h => ?_⟩⟩
  · obtain ⟨bs, d, hlen, hlisted, hbody⟩ := crcvBody_of_le (s := accept (entryPoint .crcv) s) h₂ h
    refine ⟨bs, d, hlen, hlisted, ?_⟩
    rw [exec_taken hs (.inl rfl), commandBody, hbody, close_next]
    rfl
  · rw [exec_taken hs (.inl rfl), commandBody, crcvBody_of_lt (s := accept _ s) h]
    rfl
  · rw [exec_taken hs (.inl rfl), commandBody, crcvBody_of_gt (s := accept _ s) h]
    rfl

/-- Settles O37: acceptance writes nothing that completion does not write again. -/
theorem nopResult : Obligations.NopResult := by
  refine ⟨fun v hr ho => decode_of_plain_opcode (by decide) (by decide) hr ho, fun v hr _ => ?_, fun s hs => ?_⟩
  · exact ⟨_, decode_of_rsvd (mt (fieldRsvd_eq_zero_iff v).mp hr)⟩
  · rw [exec_taken hs (.inl rfl), commandBody, nopBody, close_next, complete_accept]

/-- Settles O38: the pseudocode is the one assignment, and completion ends the acceptance before it. -/
theorem crciResult : Obligations.CrciResult := by
  refine ⟨fun v hr ho => decode_of_plain_opcode (by decide) (by decide) hr ho, fun s hs => ?_⟩
  rw [exec_taken hs (.inl rfl), commandBody, crciBody, close_next]
  rfl

/-- Settles O39: `crcStep` is the eight shifts of R100, once the operand's byte is widened. -/
theorem crcbResult : Obligations.CrcbResult := by
  intro s imm8 hs hwf shift
  rw [exec_taken hs (.inl rfl), commandBody, crcbBody, crcStep, setWidth_immByte hwf]
  rfl

end Sys2Proof.Machine

/-! The frame codec (41_frame.md): a whole frame behind garbage under `RDF` (R136 to R140), the classification of two
bytes of `FBUF` by `HDRC` (R131), and the encoding of the request by `ENC` (R132). -/

namespace Sys2Proof.Machine

/-! ### A whole frame (R136 to R140) -/

theorem expLenOperand_of_legal {s : State} (h₅ : 5 ≤ s.expLen.toNat) (h : s.expLen.toNat ≤ 512) :
    expLenOperand s = some s.expLen.toNat :=
  if_neg (not_or.mpr ⟨not_lt.mpr h₅, not_lt.mpr h⟩)

theorem rdfBody_of_legal {s : State} (h₅ : 5 ≤ s.expLen.toNat) (h : s.expLen.toNat ≤ 512) :
    rdfBody s = readFrame s.expLen.toNat (rxPrologue s) := by
  simp only [rdfBody, expLenOperand_of_legal h₅ h]

/-- A frame received writes all that the prologue clears (R141). -/
theorem frameReceived_rxPrologue (g f : List Byte) (rest : List RxEvent) (m : Memory) (s : State) :
    frameReceived g f rest m (rxPrologue s) = frameReceived g f rest m s := rfl

theorem complete_frameReceived_accept (code : Result) (p : SeqPoint) (g f : List Byte) (rest : List RxEvent)
    (m : Memory) (s : State) :
    complete code (frameReceived g f rest m (accept p s)) = complete code (frameReceived g f rest m s) := rfl

/-- Settles O46: a legal `EXP_LEN` has `read_frame` take the whole frame, and what it leaves does not depend on the
prologue or on the acceptance before it. -/
theorem rdfDeliversTheFrame : Obligations.RdfDeliversTheFrame := by
  intro s g f rest hs hlen h₅ h₅₁₂ hg hk hq
  obtain ⟨hready, hfatal⟩ := hs
  have hbody : rdfBody (accept (entryPoint .rdf) s) = readFrame f.length (rxPrologue (accept (entryPoint .rdf) s)) := by
    rw [← hlen]
    exact rdfBody_of_legal (s := accept _ s) (hlen ▸ h₅) (hlen ▸ h₅₁₂)
  obtain ⟨m, hm, hread⟩ :=
    readFrame_delivered (s := rxPrologue (accept (entryPoint .rdf) s)) h₅ h₅₁₂ hg hk hq
  refine ⟨m, complete .ok (frameReceived g f rest m s), hm, rfl, ?_, rfl⟩
  rw [exec_taken hready (.inr hfatal), commandBody, hbody, hread, close_next, frameReceived_rxPrologue,
    complete_frameReceived_accept]

/-! ### Classification (R130, R131) -/

/-- The pairs of R130, written out. -/
theorem classify_eq (h0 h1 : Byte) : classify h0 h1 =
    if h0 = 0x01 ∧ h1 = 0x03 then .read else if h0 = 0x01 ∧ h1 = 0x06 then .write else .unknown := rfl

theorem hdrcBody_cases (s : State) : ∃ h0 h1 d,
    (∀ b, Memory.get? s.fbuf 0 = some b → h0 = b) ∧ (∀ b, Memory.get? s.fbuf 1 = some b → h1 = b) ∧
    hdrcBody s = .next (setHdrClass (classify h0 h1) { s with draws := d }) := by
  obtain ⟨h0, d₀, hread0, hlisted0⟩ := fbufRead_cases 0 s
  obtain ⟨h1, d₁, hread1, hlisted1⟩ := fbufRead_cases 1 { s with draws := d₀ }
  refine ⟨h0, h1, d₁, hlisted0, hlisted1, ?_⟩
  simp only [hdrcBody, hread0, hread1]

/-- Settles O42: the two bytes are those that the pseudocode reads from acceptance on, which leaves `FBUF`. -/
theorem hdrcResult : Obligations.HdrcResult := by
  refine ⟨fun v hr ho => decode_of_plain_opcode (by decide) (by decide) hr ho, fun s hs => ?_⟩
  obtain ⟨h0, h1, d, hlisted0, hlisted1, hbody⟩ := hdrcBody_cases (accept (entryPoint .hdrc) s)
  refine ⟨h0, h1, d, hlisted0, hlisted1, ?_⟩
  rw [exec_taken hs (.inl rfl), commandBody, hbody, close_next, classify_eq]
  rfl

/-! ### The request frame (R90, R132) -/

theorem txList_encodeRequest (s : State) :
    txList (encodeRequest s).txbuf = reqList s.req ++ crcWire (crc16 (reqList s.req)) := rfl

/-- Settles O43: the pseudocode writes `TXBUF` and `CRC` alone, and completion ends the acceptance before it. -/
theorem encResult : Obligations.EncResult := by
  refine ⟨fun v hr ho => decode_of_plain_opcode (by decide) (by decide) hr ho, fun s hs => ?_⟩
  refine ⟨complete .ok (encodeRequest s), ?_, txList_encodeRequest s, rfl⟩
  rw [exec_taken hs (.inl rfl), commandBody, encBody, close_next]
  rfl

end Sys2Proof.Machine

/-! The transactor (42_transactor.md): the words that mean `SEND` and its one transmit step (R170), the length that `EXEC`
expects (R171), and a whole transaction of `EXEC` (R172, R173). -/

namespace Sys2Proof.Machine

/-! ### The transmit step alone (R170) -/

/-- A transmit step that ends the pseudocode completes with `INCOMPLETE_WRITE` where the line refused a byte. -/
theorem close_transmitted (k : Nat) (s : State) :
    (if k < 8 then Flow.raise .incompleteWrite s else .next s).close =
      complete (if k < 8 then .incompleteWrite else .ok) s := by
  split <;> rfl

/-- `SEND` is its transmit step, between acceptance and completion. -/
theorem exec_send_of_transmit {s : State} {k : Nat} {q : List Bool} {d : Nat} (hs : LineReady s)
    (h : transmit (accept (entryPoint .send) s) =
      if k < 8 then .raise .incompleteWrite (transmitted k q d (accept (entryPoint .send) s))
      else .next (transmitted k q d (accept (entryPoint .send) s))) :
    exec .send s = .next (complete (if k < 8 then .incompleteWrite else .ok) (transmitted k q d s)) := by
  obtain ⟨hready, hfatal⟩ := hs
  rw [exec_taken hready (.inr hfatal), commandBody, sendBody, h, close_transmitted]
  rfl

/-- R216 step 3: a command that touches the line is refused at once while `FATAL = 1`. -/
theorem exec_locked {i : Instr} {s : State} (hs : Ready s) (ht : touchesLine i = true) (hf : s.status.fatal = true) :
    exec i s = .next (completeAtOnce .locked s) := by
  rw [exec_eq_issue, issue_locked hs ht hf]

/-- Settles O49: acceptance leaves `TXBUF` and the line, so the transmit step that follows it is that of `s`. -/
theorem sendResult : Obligations.SendResult := by
  refine ⟨fun v hr ho => decode_of_plain_opcode (by decide) (by decide) hr ho, fun s hs hf => exec_locked hs rfl hf,
    fun s hs => ⟨?_, fun k q hk hq => ?_⟩⟩
  · obtain ⟨k, q, d, hk, ht⟩ := transmit_cases (accept (entryPoint .send) s)
    exact ⟨k, q, d, hk, exec_send_of_transmit hs ht⟩
  · exact exec_send_of_transmit hs (transmit_answers (accept _ s) k q hk hq)

/-! ### The expected length (R171) -/

theorem expLenOperand_of_illegal {s : State} (h : s.expLen.toNat < 5 ∨ 512 < s.expLen.toNat) :
    expLenOperand s = none :=
  if_pos h

/-- The default length, by the function codes and lengths of R6 written out. -/
theorem expectedLen_default (s : State) : expectedLen false s =
    if s.req.function = 0x03 then some 7 else if s.req.function = 0x06 then some 8 else none := rfl

theorem expectedLen_override (s : State) : expectedLen true s = expLenOperand s := rfl

/-- `EXEC` looks for its length before it does anything else. -/
theorem execBody_of_no_length {s : State} {lo : Bool} (h : expectedLen lo s = none) :
    execBody false lo s = .raise .lenErr s := by
  simp only [execBody, h, Bool.false_eq_true, if_false]

/-- Settles O50: the branches of `expected_len()`, and `LEN_ERR` raised on the state as it was accepted. -/
theorem execLengthSelection : Obligations.ExecLengthSelection := by
  intro s lo hs
  obtain ⟨hready, hfatal⟩ := hs
  rw [expectedLen_default, expectedLen_override]
  refine ⟨fun hread => if_pos hread, fun hwrite => ?_, fun hread hwrite => ?_, expLenOperand_of_legal,
    expLenOperand_of_illegal, fun hnone => ?_⟩
  · rw [hwrite]
    rfl
  · rw [if_neg hread, if_neg hwrite]
  · rw [exec_taken hready (.inr hfatal), commandBody, execBody_of_no_length (s := accept _ s) hnone, close_raise,
      complete_accept]

/-! ### A whole transaction (R172, R173) -/

/-- The payload widths of R6, written out. -/
theorem expectedWidth_eq (function : Byte) : expectedWidth function = if function = 0x03 then 2 else 3 := rfl

/-- Settles O51: the transaction from acceptance on is that of `execBody_delivered`, and completion writes `BUSY`, `DONE`
and `SEQ`, which are all that acceptance changed. -/
theorem execTransaction : Obligations.ExecTransaction := by
  intro s lo q g f rest hs ha hL hg hk hq
  obtain ⟨hready, hfatal⟩ := hs
  obtain ⟨m, hm, hbody⟩ :=
    execBody_delivered (s := accept (entryPoint (.exec false lo)) s) ha hL hg hk hq
  refine ⟨m, hm, ?_⟩
  rw [exec_taken hready (.inr hfatal), commandBody, hbody, apply_ite Flow.close, close_next, close_raise,
    expectedWidth_eq]
  rfl

end Sys2Proof.Machine

/-! Exceptions (60_exceptions.md): a write to `CMD` that issues nothing (R217, R218), and what a step does to the two
latches of `STATUS`, `COLLIDE` (R217) and `FATAL` (R215). -/

namespace Sys2Proof.Machine

/-! ### A write to `CMD` that issues nothing (R217, R218) -/

section CmdWrite

variable {s : State} {v : Word} {rest : List BusAction}

theorem step_cmd_busy (hr : s.rst = false) (hbusy : s.status.busy = true)
    (hb : s.host.bus = .write 0x008 v :: rest ∨ s.host.bus = .writeRacing 0x008 v :: rest) :
    step s = .next (collide (driveData v (popAction rest s))) := by
  have ha : regAt 0x008 = some .cmd := (regAt_eq_cmd _).mpr rfl
  rcases hb with hb | hb
  · exact (step_write_cmd hb ha).trans (issueWord_busy hr hbusy)
  · exact (step_racing_cmd hb ha).trans (congrArg _ (issueWordRacing_busy hr hbusy))

theorem step_cmd_illegal {e : Illegal} (hs : Ready s) (hd : decode v = .error e)
    (hb : s.host.bus = .write 0x008 v :: rest ∨ s.host.bus = .writeRacing 0x008 v :: rest) :
    step s = .next (completeAtOnce .illegalCmd (driveData v (popAction rest s))) := by
  have ha : regAt 0x008 = some .cmd := (regAt_eq_cmd _).mpr rfl
  rcases hb with hb | hb
  · exact (step_write_cmd hb ha).trans (issueWord_illegal hs hd)
  · exact (step_racing_cmd hb ha).trans (congrArg _ (issueWordRacing_illegal hs hd))

end CmdWrite

/-- Settles O21: the decoder rejects the word, and neither view of the write asks for `FATAL` before it does. -/
theorem illegalCommandCompletes : Obligations.IllegalCommandCompletes := by
  intro s v rest hs hv hb
  obtain ⟨e, hd⟩ := (illegalWordsAreRejected v).mpr hv
  exact step_cmd_illegal hs hd hb

/-! ### The latches `COLLIDE` and `FATAL` (R215, R217) -/

/-- What a step from `s` to `t` does to the two latches. -/
inductive LatchEffect (s t : State) : Prop where
  /-- Neither changes. -/
  | kept (hf : t.status.fatal = s.status.fatal) (hc : t.status.collide = s.status.collide)
  /-- A dropped command sets `COLLIDE`. -/
  | collided (hf : t.status.fatal = s.status.fatal) (hc : t.status.collide = true)
  /-- A host write to `STATUS`. -/
  | written (a : Offset) (v : Word) (rest : List BusAction)
      (hb : s.host.bus = .write a v :: rest ∨ s.host.bus = .writeRacing a v :: rest)
      (ha : regAt a = some .status) (ht : t.status = s.status.writeOneToClear v)
  /-- A command completes, at a state `u` whose latches are those of `s`. -/
  | completed (code : Result) (u : State) (hf : u.status.fatal = s.status.fatal)
      (hc : u.status.collide = s.status.collide) (ht : t = complete code u)
  /-- The `rst` input. -/
  | reset (level : Bool) (rest : List BusAction) (hb : s.host.bus = .rst level :: rest)
      (ht : t.status = Status.reset)

/-- A stretch of pseudocode moves the latches by its completion only. -/
theorem close_latches {s u : State} {f : Flow} (h : f.Kept u) (hf : u.status.fatal = s.status.fatal)
    (hc : u.status.collide = s.status.collide) : LatchEffect s f.close := by
  rcases close_effect h with hk | ⟨code, t, hk, ht⟩
  · exact .kept (hk.fatal.trans hf) (hk.collide.trans hc)
  · exact .completed code t (hk.fatal.trans hf) (hk.collide.trans hc) ht

theorem hostStore_latches {s : State} {a : Offset} {v : Word} {rest : List BusAction} (h : HostSide)
    (hb : s.host.bus = .write a v :: rest ∨ s.host.bus = .writeRacing a v :: rest) :
    LatchEffect s (hostStore a v { s with host := h }) := by
  obtain ⟨i, t, c, n, l, r, m, heq, -, ht, -⟩ := hostStore_cases a v { s with host := h }
  rw [heq]
  rcases ht with rfl | ⟨ha, rfl⟩
  · exact .kept rfl rfl
  · exact .written a v rest hb ha rfl

theorem StepEffect.latches {s t : State} (h : StepEffect s t) : LatchEffect s t := by
  cases h with
  | quiet h => exact .kept rfl rfl
  | read h d => exact .kept rfl rfl
  | store a v rest h hb ha => exact hostStore_latches h hb
  | collided a v rest h hr hs hb ha => exact .collided rfl rfl
  | atOnce code h hs hc => exact .kept rfl rfl
  | taken cmd i h f hs hw hd hl hf => exact close_latches (taken_kept hf) rfl rfl
  | moved cmd p n b i h hs hd => exact close_latches (wrapEnd_kept (moveFrom_kept i p n _)) rfl rfl
  | reset level rest h hb => exact .reset level rest hb rfl

/-- R24: the W1C bit of `COLLIDE` is bit 3. -/
theorem writeOneToClear_clears_collide {v : Word} {t : Status} (h : t.collide = true)
    (h' : (t.writeOneToClear v).collide = false) : v.getLsbD 3 = true := by
  simpa [Status.writeOneToClear, h] using h'

/-- Settles O20: the dropped write of R217 in both views, then the one effect of a step that clears `COLLIDE` without
`rst`. -/
theorem collideStaysUntilCleared : Obligations.CollideStaysUntilCleared := by
  refine ⟨fun s v rest hr hbusy hb => step_cmd_busy hr hbusy hb, fun s t hset hstep hclear => ?_⟩
  cases (step_effect hstep).latches with
  | kept hf hc => simp [hc, hset] at hclear
  | collided hf hc => simp [hc] at hclear
  | written a v rest hb ha ht =>
    rw [ht] at hclear
    exact .inr ⟨a, v, rest, hb, (regAt_eq_status a).mp ha, writeOneToClear_clears_collide hset hclear⟩
  | completed code u hf hc ht => simp [ht, hc, hset] at hclear
  | reset level rest hb ht => exact .inl ⟨level, rest, hb⟩

/-- The fatal results of R211. -/
theorem isFatal_iff (code : Result) :
    code.isFatal = true ↔ code = .badHeader ∨ code = .incompleteWrite ∨ code = .hsFail := by
  cases code <;> decide

/-- R215: completion moves `FATAL` by its result alone. -/
theorem complete_fatal (code : Result) (s : State) : (complete code s).status.fatal =
    (s.status.fatal || decide (code = .badHeader ∨ code = .incompleteWrite ∨ code = .hsFail)) := by
  simp only [complete_status, ← isFatal_iff, Bool.decide_eq_true]

/-- What can move `FATAL`: a completion and `rst`. -/
theorem LatchEffect.fatal_cases {s t : State} (h : LatchEffect s t) :
    t.status.fatal = s.status.fatal ∨
    (∃ code u, u.status.fatal = s.status.fatal ∧ t = complete code u) ∨
    (∃ level rest, s.host.bus = .rst level :: rest) ∧ t.status.fatal = false := by
  cases h with
  | kept hf hc => exact .inl hf
  | collided hf hc => exact .inl hf
  | written a v rest hb ha ht => exact .inl (by rw [ht]; rfl)
  | completed code u hf hc ht => exact .inr (.inl ⟨code, u, hf, ht⟩)
  | reset level rest hb ht => exact .inr (.inr ⟨⟨level, rest, hb⟩, congrArg Status.fatal ht⟩)

/-- Settles O23: a step that moves `FATAL` is a completion, which only sets it, or `rst`, which only clears it. -/
theorem fatalIsSticky : Obligations.FatalIsSticky := by
  refine ⟨fun s code => complete_fatal code s, fun s t hstep => ?_⟩
  rcases (step_effect hstep).latches.fatal_cases with hkept | ⟨code, u, hf, rfl⟩ | ⟨hrst, hcleared⟩
  · rw [hkept]
    exact ⟨fun hset hclear => absurd (hclear.symm.trans hset) Bool.false_ne_true,
      fun hclear hset => absurd (hclear.symm.trans hset) Bool.false_ne_true⟩
  · rw [complete_fatal, hf]
    refine ⟨fun hset hclear => ?_, fun hclear hset => ⟨rfl, rfl, ?_⟩⟩
    · simp [hset] at hclear
    · simpa [hclear] using hset
  · exact ⟨fun _ _ => hrst, fun _ hset => absurd (hcleared.symm.trans hset) Bool.false_ne_true⟩

end Sys2Proof.Machine

/-! Encoding (R95): an encoded word by its fields, the decoder's answer on it, and the assembler's front end. -/

namespace Sys2Proof

/-! ### The fields of an encoded word -/

theorem imm8_of_wf {i : Instr} (h : i.wf = true) : i.imm8 ≤ 255 := by
  cases i with
  | crcb imm8 => exact of_decide_eq_true h
  | _ => exact Nat.zero_le _

/-- R95: the fields of a word do not overlap, so the alternatives of `encode` are a sum. -/
theorem encode_toNat {i : Instr} (h : i.wf = true) :
    (encode i).toNat = i.lovr.toNat * 2 ^ 17 + i.noresp.toNat * 2 ^ 16 + i.imm8 * 2 ^ 8 + i.opcode.toNat := by
  have himm := imm8_of_wf h
  have hnr := i.noresp.toNat_le
  have hlo := i.lovr.toNat_le
  have hopc := i.opcode.isLt
  rw [encode]
  simp only [BitVec.toNat_or, BitVec.toNat_shiftLeft, BitVec.toNat_ofNat, BitVec.toNat_setWidth, Nat.or_assoc]
  generalize i.imm8 = imm8 at *
  generalize i.noresp.toNat = nr at *
  generalize i.lovr.toNat = lo at *
  generalize i.opcode.toNat = opc at *
  have hcut {a n : Nat} (ha : a <<< n < 2 ^ 32) (ha' : a < 2 ^ 32) : (a % 2 ^ 32) <<< n % 2 ^ 32 = a <<< n := by
    rw [Nat.mod_eq_of_lt ha', Nat.mod_eq_of_lt ha]
  simp only [Nat.shiftLeft_eq] at hcut ⊢
  rw [hcut (by omega) (by omega), hcut (by omega) (by omega), hcut (by omega) (by omega), Nat.mod_eq_of_lt (by omega)]
  simp only [← Nat.shiftLeft_eq]
  rw [← Nat.shiftLeft_add_eq_or_of_lt (i := 8) (by omega), ← Nat.shiftLeft_add_eq_or_of_lt (i := 16),
    ← Nat.shiftLeft_add_eq_or_of_lt (i := 17)]
  all_goals simp only [Nat.shiftLeft_eq]; omega

theorem fieldRsvd_encode {i : Instr} (h : i.wf = true) : fieldRsvd (encode i) = 0 := by
  have himm := imm8_of_wf h
  have hnr := i.noresp.toNat_le
  have hlo := i.lovr.toNat_le
  have hopc := i.opcode.isLt
  apply BitVec.eq_of_toNat_eq
  rw [fieldRsvd, BitVec.extractLsb'_toNat, encode_toNat h, Nat.shiftRight_eq_div_pow]
  show _ = 0
  omega

theorem fieldOpc_encode {i : Instr} (h : i.wf = true) : fieldOpc (encode i) = i.opcode := by
  have hopc := i.opcode.isLt
  apply BitVec.eq_of_toNat_eq
  rw [fieldOpc, BitVec.extractLsb'_toNat, encode_toNat h, Nat.shiftRight_zero]
  omega

theorem fieldImm8_encode {i : Instr} (h : i.wf = true) : (fieldImm8 (encode i)).toNat = i.imm8 := by
  have himm := imm8_of_wf h
  have hopc := i.opcode.isLt
  rw [fieldImm8, BitVec.extractLsb'_toNat, encode_toNat h, Nat.shiftRight_eq_div_pow]
  omega

theorem getLsbD_eq_decide (v : Word) (k : Nat) : v.getLsbD k = decide (v.toNat / 2 ^ k % 2 = 1) :=
  Nat.testBit_eq_decide_div_mod_eq

theorem decide_toNat_eq_one (b : Bool) : decide (b.toNat = 1) = b := by
  cases b <;> rfl

theorem fieldNoresp_encode {i : Instr} (h : i.wf = true) : fieldNoresp (encode i) = i.noresp := by
  have himm := imm8_of_wf h
  have hnr := i.noresp.toNat_le
  have hopc := i.opcode.isLt
  rw [fieldNoresp, getLsbD_eq_decide, encode_toNat h]
  refine (decide_eq_decide.mpr ?_).trans (decide_toNat_eq_one i.noresp)
  omega

theorem fieldLovr_encode {i : Instr} (h : i.wf = true) : fieldLovr (encode i) = i.lovr := by
  have himm := imm8_of_wf h
  have hnr := i.noresp.toNat_le
  have hlo := i.lovr.toNat_le
  have hopc := i.opcode.isLt
  rw [fieldLovr, getLsbD_eq_decide, encode_toNat h]
  refine (decide_eq_decide.mpr ?_).trans (decide_toNat_eq_one i.lovr)
  omega

/-! ### Decoding -/

/-- A word with the fields of a command decodes to it. -/
theorem decode_of_fields {v : Word} {i : Instr} (hr : fieldRsvd v = 0) (ho : fieldOpc v = i.opcode)
    (himm : (fieldImm8 v).toNat = i.imm8) (hnr : fieldNoresp v = i.noresp) (hlo : fieldLovr v = i.lovr) :
    decode v = .ok i := by
  rw [decode, if_neg (not_not_intro hr), ho, himm, hnr, hlo]
  cases i <;> rfl

/-- Settles O1: every field of the encoded word is the command's. -/
theorem decodeOfEncode : Obligations.DecodeOfEncode := fun _ h =>
  decode_of_fields (fieldRsvd_encode h) (fieldOpc_encode h) (fieldImm8_encode h) (fieldNoresp_encode h)
    (fieldLovr_encode h)

/-- What a word that decodes holds: `RSVD = 0`, the command's opcode, and an operand that fits. -/
theorem fields_of_decode {v : Word} {i : Instr} (h : decode v = .ok i) :
    fieldRsvd v = 0 ∧ fieldOpc v = i.opcode ∧ i.wf = true := by
  unfold decode at h
  split at h
  · cases h
  · rename_i hr
    have hopc {n : Nat} (hn : (fieldOpc v).toNat = n) : fieldOpc v = BitVec.ofNat 8 n := by
      rw [← hn, BitVec.ofNat_toNat, BitVec.setWidth_eq]
    refine ⟨not_not.mp hr, ?_⟩
    split at h <;> cases h <;> rename_i hn
    case h_3 => exact ⟨hopc hn, decide_eq_true (Nat.le_of_lt_succ (fieldImm8 v).isLt)⟩
    all_goals exact ⟨hopc hn, rfl⟩

/-- With `RSVD = 0` the mask of the opcode table's rows leaves the opcode (R86). -/
theorem and_rowMask {v : Word} (hr : fieldRsvd v = 0) : v &&& 0xFFFC00FF = (fieldOpc v).setWidth 32 := by
  have hlt : v.toNat < 2 ^ 18 := by
    have hshift := congrArg BitVec.toNat ((fieldRsvd_eq_zero_iff v).mp hr)
    rw [BitVec.toNat_ushiftRight, Nat.shiftRight_eq_div_pow] at hshift
    exact (Nat.div_eq_zero_iff_lt (by decide)).mp hshift
  have hlow : v &&& 0x3FFFF = v := by
    apply BitVec.eq_of_toNat_eq
    rw [BitVec.toNat_and]
    exact (Nat.and_two_pow_sub_one_eq_mod v.toNat 18).trans (Nat.mod_eq_of_lt hlt)
  have hmask : v &&& 0xFFFC00FF = v &&& 0xFF := by
    conv_lhs => rw [← hlow, BitVec.and_assoc]
    rfl
  apply BitVec.eq_of_toNat_eq
  rw [hmask, BitVec.toNat_setWidth, fieldOpc_toNat, Nat.mod_eq_of_lt (v &&& 0xFF).isLt]

/-- Settles O4: a word that decodes has nothing under the row mask but its opcode, and two opcodes that extend to the
same word are the same. -/
theorem legalWordsMatchOneRow : Obligations.LegalWordsMatchOneRow := by
  intro v i h
  obtain ⟨hr, ho, hwf⟩ := fields_of_decode h
  have hrow : v &&& 0xFFFC00FF = i.opcode.setWidth 32 := ho ▸ and_rowMask hr
  refine ⟨hrow, hwf, fun j hj => ?_⟩
  have hnat := congrArg BitVec.toNat (hj.symm.trans hrow)
  simp only [BitVec.toNat_setWidth] at hnat
  have hi := i.opcode.isLt
  have hj' := j.opcode.isLt
  exact BitVec.eq_of_toNat_eq (by omega)

/-- Settles O5: the table's words, decoded. -/
theorem sampleWordsDecode : Obligations.SampleWordsDecode := by
  unfold Obligations.SampleWordsDecode
  decide

/-! ### The assembler's front end -/

/-- The assembler checks what has to fit. -/
theorem wf_of_assemble {l : AsmLine} {i : Instr} (h : assemble l = some i) : i.wf = true := by
  obtain ⟨m, xs, o⟩ := l
  unfold assemble at h
  split at h
  · split at h <;> cases h
    rfl
  · split at h <;> cases h
    exact decide_eq_true ‹_›
  · cases m <;> cases h <;> rfl
  · cases h

/-- Only `EXEC` has suffixes. -/
theorem assemble_misplaced_suffix {m : Mnemonic} (x : Suffix) (xs : List Suffix) (o : Option Nat) (hm : m ≠ .exec) :
    assemble ⟨m, x :: xs, o⟩ = none := by
  cases m with
  | exec => exact absurd rfl hm
  | _ => rfl

/-- An operand above 255 is refused: by `CRCB`, which has one, and by the commands that have none. -/
theorem assemble_large_operand (m : Mnemonic) (xs : List Suffix) {n : Nat} (hn : n > 255) :
    assemble ⟨m, xs, some n⟩ = none := by
  cases m with
  | crcb =>
    cases xs with
    | nil => exact if_neg (not_le.mpr hn)
    | cons x xs => rfl
  | _ => cases xs <;> rfl

/-- Settles O6: the texts are read one by one, and a line that is accepted has an operand that fits, so that its word is
the sum of its fields and decodes to it. -/
theorem assembledLinesEncode : Obligations.AssembledLinesEncode := by
  refine ⟨by decide, by decide, fun n hn => if_pos hn, rfl, rfl, fun l i h => ?_, rfl, rfl,
    fun m x xs o hm => assemble_misplaced_suffix x xs o hm, fun m xs n hn => assemble_large_operand m xs hn⟩
  have hwf := wf_of_assemble h
  exact ⟨hwf, decodeOfEncode i hwf, encode_toNat hwf⟩

end Sys2Proof

/-! The invariant: what each effect of a step does to it, and with it what a locked block leaves of the line. -/

namespace Sys2Proof.Machine

/-! ### Reset (R47, R250) -/

/-- Every state that a change of `rst` gives meets the invariant. -/
theorem inv_blockReset (s : State) (level : Bool) : Inv { blockReset s with rst := level } where
  fbufWf := ⟨.nil, fun _ hc => absurd hc List.not_mem_nil⟩
  busyIff := iff_of_false Bool.false_ne_true fun hne => hne rfl
  notDone := fun hbusy => absurd hbusy Bool.false_ne_true
  txCount := Nat.zero_le _
  rxCount := Nat.zero_le _
  payload := .inl rfl
  inReset := fun _ => rfl
  seqFits := trivial

/-- Settles O30: the state after reset is the one that a release of `rst` leaves of it. -/
theorem resetMeetsTheInvariant : Obligations.ResetMeetsTheInvariant :=
  inv_blockReset State.reset false

/-! ### One effect after the other -/

/-- An immediate completion of an idle block (R216 steps 2 and 3). -/
theorem Inv.completeAtOnce {s : State} (h : Inv s) (hs : Ready s) (code : Result) :
    Inv (Machine.completeAtOnce code s) := by
  obtain ⟨hrst, hidle⟩ := hs
  exact h.withStatus hrst rfl (fun hbusy => absurd (hidle.symm.trans hbusy) Bool.false_ne_true) rfl

theorem Inv.collide {s : State} (h : Inv s) (hrst : s.rst = false) : Inv (Machine.collide s) :=
  h.withStatus hrst rfl h.notDone rfl

theorem RegsFit.accept {s : State} (h : RegsFit s) (p : SeqPoint) : RegsFit (Machine.accept p s) :=
  ⟨h.wf, h.tx, h.rx, h.pay⟩

/-- A command that is taken, in either view. -/
theorem Inv.taken {s : State} {i : Instr} {f : Flow} (h : Inv s) (hs : Ready s) (hd : decode s.host.wdata = .ok i)
    (hl : touchesLine i = true → s.status.fatal = false)
    (hf : f = commandBody i (accept (entryPoint i) s) ∨ f = begin i (accept (entryPoint i) s)) : Inv f.close := by
  have hregs := h.regsFit.accept (entryPoint i)
  refine Inv.ofClose (taken_kept hf) rfl rfl hs.1 hd hl ?_
  rcases hf with rfl | rfl
  · exact flowFits_commandBody hregs rfl
  · exact flowFits_begin hregs rfl rfl

theorem flowFits_wrapEnd {cmd : Word} {i j : Instr} {f : Flow} (h : FlowFits cmd i f) : FlowFits cmd i (wrapEnd j f) := by
  unfold wrapEnd
  split
  · exact flowFits_hskEnd h
  · exact h

/-- One move of a running command. -/
theorem Inv.moved {s : State} {cmd : Word} {p : SeqPoint} {n : Nat} {b : Flags} {i : Instr} (h : Inv s)
    (hs : s.seq = .run cmd p n b) (hd : decode cmd = .ok i) : Inv (wrapEnd i (moveFrom i p n s)).close := by
  obtain ⟨hbusy, hdone, hrst⟩ := h.running hs
  obtain ⟨hfatal, hlen, hpoint⟩ := h.fits hs hd
  exact Inv.ofClose (wrapEnd_kept (moveFrom_kept i p n s)) hbusy hdone hrst hd hfatal
    (flowFits_wrapEnd (flowFits_moveFrom h.regsFit hs hlen hpoint))

/-- Settles O31: each effect that a step can have keeps the invariant, which does not speak of the host's side. -/
theorem stepKeepsTheInvariant : Obligations.StepKeepsTheInvariant := by
  intro s t hinv hstep
  have hhost : ∀ h, Inv { s with host := h } := fun h => hinv.withHost h s.draws
  cases step_effect hstep with
  | quiet h => exact hhost h
  | read h d => exact hinv.withHost h d
  | store a v rest h hb ha => exact (hhost h).store a v
  | collided a v rest h hr hs hb ha => exact (hhost h).collide hr
  | atOnce code h hs hc => exact (hhost h).completeAtOnce hs code
  | taken cmd i h f hs hw hd hl hf => exact (hhost h).taken hs (hw ▸ hd) hl hf
  | moved cmd p n b i h hs hd => exact (hhost h).moved hs hd
  | reset level rest h hb => exact inv_blockReset { s with host := h } level

/-! ### A locked block (R211, R216) -/

/-- `P` holds of the state that the stretch ends in, however it ends. -/
def Flow.All (P : State → Prop) : Flow → Prop
  | .next t | .raise _ t | .hold t => P t

/-- What completion does not write holds of a closed stretch, too. -/
theorem Flow.All.close {P : State → Prop} {f : Flow} (h : f.All P) (hc : ∀ c t, P t → P (complete c t)) : P f.close := by
  cases f with
  | next t => exact hc _ t h
  | raise c t => exact hc c t h
  | hold t => exact h

theorem close_line {s : State} {f : Flow} (h : f.All (·.line = s.line)) : f.close.line = s.line :=
  h.close (P := (·.line = s.line)) fun _ _ ht => ht

theorem checkFrame_line (n : Nat) (s : State) : (checkFrame n s).line = s.line := by
  obtain ⟨c, e, d, h⟩ := checkFrame_cases n s
  rw [h]

/-- A command that does not touch the line (R216 step 3). -/
theorem commandBody_line {i : Instr} (hi : touchesLine i = false) (s : State) :
    (commandBody i s).All (·.line = s.line) := by
  cases i with
  | nop | crci | crcb | enc | pace => exact rfl
  | crcg =>
    simp only [commandBody, crcgBody]
    split
    · exact rfl
    · rename_i n _
      obtain ⟨bs, d, hread, -⟩ := fbufRange_cases n 0 s
      rw [hread]
      exact rfl
  | crcv =>
    simp only [commandBody, crcvBody]
    split
    · exact rfl
    · split
      · exact rfl
      · exact checkFrame_line _ s
  | hdrc =>
    obtain ⟨h0, h1, d, -, -, hbody⟩ := hdrcBody_cases s
    rw [commandBody, hbody]
    exact rfl
  | send | sync | rdf | exec | hsk => cases hi

theorem begin_of_local {i : Instr} (hi : touchesLine i = false) (s : State) : begin i s = .hold s := by
  cases i with
  | send | sync | rdf | exec | hsk => cases hi
  | _ => rfl

/-- A point that belongs to a command that does not touch the line runs its whole pseudocode (R264). -/
theorem moveFrom_of_local {i : Instr} {p : SeqPoint} {n : Nat} {s : State} (hi : touchesLine i = false)
    (hp : PointFits i p n s) : moveFrom i p n s = commandBody i s := by
  have hsearch {j : Instr} : readsLine j = true → touchesLine j = true := by cases j <;> simp [readsLine, touchesLine]
  have hframe {j : Instr} : readsFrame j = true → touchesLine j = true := by cases j <;> simp [readsFrame, touchesLine]
  have hno (ht : touchesLine i = true) : moveFrom i p n s = commandBody i s := by simp [hi] at ht
  cases p with
  | crcLoop k =>
    have he : entryPoint i = .crcLoop 0 := hp
    cases i with
    | send | sync | rdf | exec | hsk | pace => cases he
    | _ => rfl
  | pace =>
    have he : i = .pace := hp
    rw [he]
    rfl
  | tx k =>
    obtain ⟨-, he, -⟩ := hp
    cases i with
    | send | exec | hsk => cases hi
    | _ => cases he
  | syncFill | syncSlide => exact hno (hsearch hp.1)
  | lenByte | body | check => exact hno (hframe hp.1)

theorem wrapEnd_of_ne {i : Instr} (hi : i ≠ .hsk) (f : Flow) : wrapEnd i f = f :=
  if_neg hi

/-- A host write leaves the line. -/
theorem hostStore_line (a : Offset) (v : Word) (s : State) : (hostStore a v s).line = s.line := by
  obtain ⟨i, t, c, n, l, r, m, h, -⟩ := hostStore_cases a v s
  rw [h]

/-- Settles O24: what is taken, or runs, while `FATAL = 1` is a command that does not touch the line. -/
theorem fatalLineStaysQuiet : Obligations.FatalLineStaysQuiet := by
  intro s t hinv hfatal hstep
  have hlocal {i : Instr} (hl : touchesLine i = true → s.status.fatal = false) : touchesLine i = false := by
    cases ht : touchesLine i with
    | false => rfl
    | true => exact absurd ((hl ht).symm.trans hfatal) Bool.false_ne_true
  cases step_effect hstep with
  | quiet h => rfl
  | read h d => rfl
  | store a v rest h hb ha => exact hostStore_line a v _
  | collided a v rest h hr hs hb ha => rfl
  | atOnce code h hs hc => rfl
  | taken cmd i h f hs hw hd hl hf =>
    have hi := hlocal hl
    rcases hf with rfl | rfl
    · exact close_line (commandBody_line hi _)
    · rw [begin_of_local hi]
      rfl
  | moved cmd p n b i h hs hd =>
    obtain ⟨hl, -, hp⟩ := (hinv.withHost h s.draws).fits hs hd
    have hi := hlocal hl
    have hne : i ≠ .hsk := by
      rintro rfl
      cases hi
    rw [wrapEnd_of_ne hne, moveFrom_of_local hi hp]
    exact close_line (commandBody_line hi _)
  | reset level rest h hb => rfl

end Sys2Proof.Machine

/-! Rules of every step, read off its effect: it goes on, it moves the line forward only, it leaves the host's operand
registers to the host, and it collides with no access of a host that keeps its duties. -/

namespace Sys2Proof.Machine

/-- Settles O25: each action at the block's inputs answers a next state. -/
theorem everyStepGoesOn : Obligations.EveryStepGoesOn := step_goes_on

/-! ### The line (R214, R252) -/

/-- Bytes have been appended to `TXLOG`, and events taken from the front of `RXQ`. -/
def Line.Forward (l m : Line) : Prop := ∃ sent taken, m.txlog = l.txlog ++ sent ∧ l.rxq = taken ++ m.rxq

theorem Line.Forward.of_eq {l m : Line} (h : m = l) : l.Forward m :=
  ⟨[], [], by rw [h, List.append_nil], by rw [h, List.nil_append]⟩

theorem close_forward {s u : State} {f : Flow} (h : f.Kept u) (hu : u.line = s.line) : s.line.Forward f.close.line := by
  rw [← hu]
  rcases close_effect h with hk | ⟨code, t, hk, ht⟩
  · exact hk.forward
  · rw [ht]
    exact hk.forward

/-- Settles O26: only a stretch of pseudocode moves the line, and it moves it forward. -/
theorem lineOnlyMovesForward : Obligations.LineOnlyMovesForward := by
  intro s t hstep
  show s.line.Forward t.line
  cases step_effect hstep with
  | store a v rest h hb ha => exact .of_eq (hostStore_line a v _)
  | taken cmd i h f hs hw hd hl hf => exact close_forward (taken_kept hf) rfl
  | moved cmd p n b i h hs hd => exact close_forward (wrapEnd_kept (moveFrom_kept i p n _)) rfl
  | _ => exact .of_eq rfl

/-! ### The host's operand registers (R22, R26, R27) -/

/-- The host's next action may change the register `r`: a change of `rst`, or a write to `r`. -/
def HostChanges (s : State) (r : Reg) : Prop :=
  (∃ level rest, s.host.bus = .rst level :: rest) ∨
  ∃ a v rest, (s.host.bus = .write a v :: rest ∨ s.host.bus = .writeRacing a v :: rest) ∧ regAt a = some r

/-- What a step may do to the operand registers. -/
structure OperandsKept (s t : State) : Prop where
  expLen : t.expLen = s.expLen ∨ HostChanges s .expLen
  bufLen : t.bufLen = s.bufLen ∨ HostChanges s .bufLen
  ie : t.ie = s.ie ∨ HostChanges s .ctrl

theorem Kept.operands {s u t : State} (h : Kept u t) (hu : u.expLen = s.expLen ∧ u.bufLen = s.bufLen ∧ u.ie = s.ie) :
    OperandsKept s t := by
  obtain ⟨hexp, hbuf, hie⟩ := hu
  exact ⟨.inl (h.expLen.trans hexp), .inl (h.bufLen.trans hbuf), .inl (h.ie.trans hie)⟩

theorem close_operands {s u : State} {f : Flow} (h : f.Kept u)
    (hu : u.expLen = s.expLen ∧ u.bufLen = s.bufLen ∧ u.ie = s.ie) : OperandsKept s f.close := by
  rcases close_effect h with hk | ⟨code, t, hk, ht⟩
  · exact hk.operands hu
  · obtain ⟨hexp, hbuf, hie⟩ := hk.operands hu
    rw [ht]
    exact ⟨hexp, hbuf, hie⟩

theorem hostStore_operands {s : State} {a : Offset} {v : Word} {rest : List BusAction} (h : HostSide)
    (hb : s.host.bus = .write a v :: rest ∨ s.host.bus = .writeRacing a v :: rest) :
    OperandsKept s (hostStore a v { s with host := h }) := by
  have hchanges {r : Reg} (ha : regAt a = some r) : HostChanges s r := .inr ⟨a, v, rest, hb, ha⟩
  obtain ⟨i, t, c, n, l, r, m, heq, hie, -, hbuf, hexp, -⟩ := hostStore_cases a v { s with host := h }
  rw [heq]
  exact ⟨hexp.imp id hchanges, hbuf.imp id hchanges, hie.imp id hchanges⟩

theorem StepEffect.operands {s t : State} (h : StepEffect s t) : OperandsKept s t := by
  have hsame : ∀ h, OperandsKept s { s with host := h } := fun h => (Kept.refl _).operands ⟨rfl, rfl, rfl⟩
  cases h with
  | quiet h => exact hsame h
  | read h d => exact (Kept.refl _).operands ⟨rfl, rfl, rfl⟩
  | store a v rest h hb ha => exact hostStore_operands h hb
  | collided a v rest h hr hs hb ha => exact (Kept.refl _).operands ⟨rfl, rfl, rfl⟩
  | atOnce code h hs hc => exact (Kept.refl _).operands ⟨rfl, rfl, rfl⟩
  | taken cmd i h f hs hw hd hl hf => exact close_operands (taken_kept hf) ⟨rfl, rfl, rfl⟩
  | moved cmd p n b i h hs hd => exact close_operands (wrapEnd_kept (moveFrom_kept i p n _)) ⟨rfl, rfl, rfl⟩
  | reset level rest h hb =>
    have hrst {r : Reg} : HostChanges s r := .inl ⟨level, rest, hb⟩
    exact ⟨.inr hrst, .inr hrst, .inr hrst⟩

/-- Settles O28: each register changes only by `rst` or a write at its own offset. -/
theorem operandRegistersAreTheHosts : Obligations.OperandRegistersAreTheHosts := by
  intro s t hstep
  obtain ⟨hexp, hbuf, hie⟩ := (step_effect hstep).operands
  have hoffset {r : Reg} {o : Offset} (hr : ∀ a, regAt a = some r ↔ a &&& 0xFFC = o) (h : HostChanges s r) :
      (∃ level rest, s.host.bus = .rst level :: rest) ∨
      ∃ a v rest, (s.host.bus = .write a v :: rest ∨ s.host.bus = .writeRacing a v :: rest) ∧ a &&& 0xFFC = o :=
    h.imp id fun ⟨a, v, rest, hb, ha⟩ => ⟨a, v, rest, hb, (hr a).mp ha⟩
  exact ⟨fun hne => hoffset regAt_eq_expLen (hexp.resolve_left hne),
    fun hne => hoffset regAt_eq_bufLen (hbuf.resolve_left hne), fun hne => hoffset regAt_eq_ctrl (hie.resolve_left hne)⟩

/-! ### The host's duties (R256) -/

theorem hostStore_collide {a : Offset} {v : Word} {s : State} (h : (hostStore a v s).status.collide = true) :
    s.status.collide = true := by
  obtain ⟨i, t, c, n, l, r, m, heq, -, ht, -⟩ := hostStore_cases a v s
  rw [heq] at h
  rcases ht with rfl | ⟨-, rfl⟩
  · exact h
  · exact (Bool.and_eq_true_iff.mp h).1

theorem close_collide {s : State} {f : Flow} (h : f.Kept s) : f.close.status.collide = s.status.collide := by
  rcases close_effect h with hk | ⟨code, t, hk, ht⟩
  · exact hk.collide
  · rw [ht]
    exact hk.collide

/-- What can set `COLLIDE`: a write to `CMD` while a command runs. -/
theorem StepEffect.collide_cases {s t : State} (h : StepEffect s t) (hset : t.status.collide = true) :
    s.status.collide = true ∨ s.status.busy = true ∧ ∃ a v rest,
      (s.host.bus = .write a v :: rest ∨ s.host.bus = .writeRacing a v :: rest) ∧ regAt a = some .cmd := by
  cases h with
  | quiet | read | atOnce => exact .inl hset
  | store a v rest h hb ha => exact .inl (hostStore_collide (s := { s with host := h }) hset)
  | collided a v rest h hr hs hb ha => exact .inr ⟨hs, a, v, rest, hb, ha⟩
  | taken cmd i h f hs hw hd hl hf => exact .inl ((close_collide (taken_kept hf)).symm.trans hset)
  | moved cmd p n b i h hs hd => 
    exact .inl ((close_collide (wrapEnd_kept (moveFrom_kept i p n { s with host := h }))).symm.trans hset)
  | reset => cases hset

/-- R256: a host that keeps its duties does not write `CMD` while a command runs. -/
theorem not_hostObeys_of_cmd {s : State} {a : Offset} {v : Word} {rest : List BusAction} (hbusy : s.status.busy = true)
    (hb : s.host.bus = .write a v :: rest ∨ s.host.bus = .writeRacing a v :: rest) (ha : regAt a = some .cmd) :
    hostObeys s = false := by
  rcases hb with hb | hb <;> simp [hostObeys, hb, hbusy, ha, Reg.writableWhileBusy]

/-- Settles O29: the one effect that sets `COLLIDE` is that of an access the host does not make. -/
theorem dutifulHostNeverCollides : Obligations.DutifulHostNeverCollides := by
  intro s t hobeys hclear hstep
  by_contra hne
  rcases (step_effect hstep).collide_cases (Bool.eq_true_of_not_eq_false hne) with
    hset | ⟨hbusy, a, v, rest, hb, ha⟩
  · exact Bool.false_ne_true (hclear.symm.trans hset)
  · exact Bool.false_ne_true ((not_hostObeys_of_cmd hbusy hb ha).symm.trans hobeys)

end Sys2Proof.Machine

/-! Reset (R47, R250 to R252): the values it leaves, what it leaves alone, and the accesses made while `rst` is asserted. -/

namespace Sys2Proof.Machine

theorem word_reset : Status.reset.word = 0 := by decide

/-- Settles O7: the state after reset is among those that a change of `rst` leaves, and these have the table's values. -/
theorem resetTable : Obligations.ResetTable := by
  unfold Obligations.ResetTable
  intro atReset
  have hreset : ∀ (s : State) (level : Bool), atReset { blockReset s with rst := level } := fun s level =>
    ⟨rfl, word_reset, rfl, rfl, rfl, rfl, rfl, rfl, rfl, rfl, rfl, rfl, rfl, fun _ => rfl, rfl, rfl, rfl, rfl, rfl, rfl⟩
  exact ⟨hreset State.reset false, fun s level rest hb => ⟨_, step_rst hb, hreset _ level, rfl⟩⟩

/-- Settles O8: `blockReset` takes neither the line nor the host's side from the reset state. -/
theorem resetLeavesTheLine : Obligations.ResetLeavesTheLine := fun _ _ _ hb =>
  ⟨_, step_rst hb, rfl, rfl, rfl, rfl⟩

theorem issueWord_inReset {s : State} (h : s.rst = true) (v : Word) : issueWord v s = .next s :=
  if_pos h

theorem issueWordRacing_inReset {s : State} (h : s.rst = true) (v : Word) : issueWordRacing v s = s :=
  if_pos h

theorem hostStore_inReset {s : State} (h : s.rst = true) (a : Offset) (v : Word) : hostStore a v s = s :=
  if_pos h

/-- A host write that is no command, in either view (R65). -/
theorem step_store {s : State} {a : Offset} {v : Word} {rest : List BusAction}
    (hb : s.host.bus = .write a v :: rest ∨ s.host.bus = .writeRacing a v :: rest) (ha : regAt a ≠ some .cmd) :
    step s = .next (hostStore a v (driveData v (popAction rest s))) :=
  hb.elim (fun hb => step_write_store hb ha) fun hb => step_racing_store hb ha

/-- A host write during `rst` only drives its data (R250). -/
theorem step_write_inReset {s : State} {a : Offset} {v : Word} {rest : List BusAction} (hr : s.rst = true)
    (hb : s.host.bus = .write a v :: rest ∨ s.host.bus = .writeRacing a v :: rest) :
    step s = .next (driveData v (popAction rest s)) := by
  have hr' : (driveData v (popAction rest s)).rst = true := hr
  by_cases ha : regAt a = some .cmd
  · rcases hb with hb | hb
    · rw [step_write_cmd hb ha, issueWord_inReset hr']
    · rw [step_racing_cmd hb ha, issueWordRacing_inReset hr']
  · rw [step_store hb ha, hostStore_inReset hr']

/-- Settles O9: a write stops before it reaches a register, and a read is a read like any other. -/
theorem accessesDuringResetAreIgnored : Obligations.AccessesDuringResetAreIgnored := by
  intro s a v rest hr
  refine ⟨fun hb => step_write_inReset hr hb, fun hb => ?_⟩
  obtain ⟨w, d, hread⟩ := hostRead_cases a (popAction rest s)
  exact ⟨w, d, by rw [step_read hb, hread]; rfl⟩

end Sys2Proof.Machine

/-! The host register window (20_memory.md): unmapped offsets, the registers and the words of `FBUF` of an idle block, and
the accesses made while a command runs. -/

namespace Sys2Proof.Machine

/-! ### Unmapped offsets (R62) -/

/-- Settles O11: the map lists nothing there, running command or not. -/
theorem unmappedOffsets : Obligations.UnmappedOffsets := by
  intro s a v rest hr ha
  have hnone : regAt a = none := regAt_unmapped a ha
  refine ⟨fun hb => ?_, fun hb => ?_⟩
  · rw [step_read hb, hostRead_unmapped (s := popAction rest s) hr hnone]
    rfl
  · rw [step_store hb (by simp [hnone]), hostStore_unmapped hnone]
    rfl

/-! ### The registers of an idle block (R63 to R65) -/

section Idle

variable {s : State} {a : Offset} {v : Word} {rest : List BusAction} {r : Reg}

theorem step_read_idle (hs : Ready s) (hb : s.host.bus = .read a :: rest) (ha : regAt a = some r) :
    step s = .next (logRead (regRead r (popAction rest s))) := by
  obtain ⟨hrst, hidle⟩ := hs
  rw [step_read hb, hostRead_mapped (s := popAction rest s) hrst ha (.inl hidle)]

theorem step_write_idle (hs : Ready s) (hb : s.host.bus = .write a v :: rest ∨ s.host.bus = .writeRacing a v :: rest)
    (ha : regAt a = some r) (hr : r ≠ .cmd) :
    step s = .next (regWrite r v (driveData v (popAction rest s))) := by
  obtain ⟨hrst, hidle⟩ := hs
  have hcmd : regAt a ≠ some .cmd := by
    rw [ha]
    exact fun h => hr (Option.some.inj h)
  rw [step_store hb hcmd, hostStore_mapped (s := driveData v (popAction rest s)) hrst ha (.inl hidle)]

end Idle

/-- Settles O12: the map gives each offset its register, whose value the host is given. -/
theorem registersReadTheirValue : Obligations.RegistersReadTheirValue := by
  intro s a w rest hs hb hlisted
  suffices hmap : ∃ r, regAt a = some r ∧ regRead r (popAction rest s) = (w, popAction rest s) by
    obtain ⟨r, ha, hread⟩ := hmap
    rw [step_read_idle hs hb ha, hread]
    rfl
  have hstatus : (hostStatus (popAction rest s)).word = s.status.word := by
    rw [hostStatus_idle (popAction rest s) hs.2]
    rfl
  simp only [List.mem_cons, Prod.mk.injEq, List.not_mem_nil, or_false] at hlisted
  rcases hlisted with ⟨rfl, rfl⟩ | ⟨rfl, rfl⟩ | ⟨rfl, rfl⟩ | ⟨rfl, rfl⟩ | ⟨rfl, rfl⟩ | ⟨rfl, rfl⟩ | ⟨rfl, rfl⟩ |
    ⟨rfl, rfl⟩ | ⟨rfl, rfl⟩ | ⟨rfl, rfl⟩ | ⟨rfl, rfl⟩ | ⟨rfl, rfl⟩ | ⟨rfl, rfl⟩ | ⟨rfl, rfl⟩ | ⟨rfl, rfl⟩ |
    ⟨rfl, rfl⟩ | ⟨rfl, rfl⟩
  · exact ⟨.id, rfl, rfl⟩
  · exact ⟨.ctrl, rfl, rfl⟩
  · exact ⟨.cmd, rfl, rfl⟩
  · exact ⟨.status, rfl, by rw [regRead, hstatus]⟩
  · exact ⟨.crc, rfl, rfl⟩
  · exact ⟨.bufLen, rfl, rfl⟩
  · exact ⟨.expLen, rfl, rfl⟩
  · exact ⟨.reqLo, rfl, rfl⟩
  · exact ⟨.reqHi, rfl, rfl⟩
  · exact ⟨.txLo, rfl, rfl⟩
  · exact ⟨.txHi, rfl, rfl⟩
  · exact ⟨.txCnt, rfl, rfl⟩
  · exact ⟨.rxCnt, rfl, rfl⟩
  · exact ⟨.payLen, rfl, rfl⟩
  · exact ⟨.respVal, rfl, rfl⟩
  · exact ⟨.lenByte, rfl, rfl⟩
  · exact ⟨.dropCnt, rfl, rfl⟩

/-- Settles O13: each offset is that of one register, and a write of a register sets its defined bits. -/
theorem registerWrites : Obligations.RegisterWrites := by
  intro s t a v rest hs hb ht
  subst ht
  have hwrite (r : Reg) (ha : regAt a = some r) (hr : r ≠ .cmd) := step_write_idle hs hb ha hr
  refine ⟨fun ha => hwrite .ctrl (ha ▸ rfl) (by decide), fun ha => hwrite .status (ha ▸ rfl) (by decide),
    fun ha => hwrite .crc (ha ▸ rfl) (by decide), fun ha => hwrite .bufLen (ha ▸ rfl) (by decide),
    fun ha => hwrite .expLen (ha ▸ rfl) (by decide), fun ha => hwrite .reqLo (ha ▸ rfl) (by decide),
    fun ha => hwrite .reqHi (ha ▸ rfl) (by decide), fun ha => ?_⟩
  simp only [List.mem_cons, List.not_mem_nil, or_false] at ha
  rcases ha with ha | ha | ha | ha | ha | ha | ha | ha | ha
  · exact hwrite .id (ha ▸ rfl) (by decide)
  · exact hwrite .txLo (ha ▸ rfl) (by decide)
  · exact hwrite .txHi (ha ▸ rfl) (by decide)
  · exact hwrite .txCnt (ha ▸ rfl) (by decide)
  · exact hwrite .rxCnt (ha ▸ rfl) (by decide)
  · exact hwrite .payLen (ha ▸ rfl) (by decide)
  · exact hwrite .respVal (ha ▸ rfl) (by decide)
  · exact hwrite .lenByte (ha ▸ rfl) (by decide)
  · exact hwrite .dropCnt (ha ▸ rfl) (by decide)

/-! ### The window of `FBUF` (R48, R66) -/

/-- A read of a byte that nothing has written gives the next free value (R48). -/
theorem fbufRead_unwritten {i : Nat} {s : State} (h : Memory.get? s.fbuf i = none) :
    fbufRead i s = (Config.freeByte s.draws, { s with draws := s.draws + 1 }) := by
  simp only [fbufRead, h, drawByte]

/-- Settles O15: the first read leaves the byte unwritten. -/
theorem unwrittenBytesAreFreshDraws : Obligations.UnwrittenBytesAreFreshDraws := by
  intro s i
  refine ⟨fun h => ?_, fun b h => fbufRead_listed h⟩
  exact ⟨_, _, fbufRead_unwritten h, rfl, fbufRead_unwritten (s := { s with draws := s.draws + 1 }) h⟩

/-- `b` is what a read of the byte at `i` of `m` may give: the byte written, or one of the draws `d, ..., d' - 1`. -/
def ReadsAs (m : Memory) (i : Nat) (d d' : Nat) (b : Byte) : Prop :=
  (∀ b', Memory.get? m i = some b' → b = b') ∧
  (Memory.get? m i = none → ∃ n, d ≤ n ∧ n < d' ∧ b = Config.freeByte n)

theorem ReadsAs.mono {m : Memory} {i d d' e e' : Nat} {b : Byte} (h : ReadsAs m i d d' b) (he : e ≤ d) (he' : d' ≤ e') :
    ReadsAs m i e e' b := by
  obtain ⟨hlisted, hdrawn⟩ := h
  refine ⟨hlisted, fun hnone => ?_⟩
  obtain ⟨n, hn, hn', hb⟩ := hdrawn hnone
  exact ⟨n, he.trans hn, hn'.trans_le he', hb⟩

theorem fbufRead_readsAs (i : Nat) (s : State) : ∃ b d, fbufRead i s = (b, { s with draws := d }) ∧ s.draws ≤ d ∧
    ReadsAs s.fbuf i s.draws d b := by
  cases h : Memory.get? s.fbuf i with
  | some b =>
    refine ⟨b, s.draws, fbufRead_listed h, le_refl _, fun b' hb => ?_, fun hnone => ?_⟩
    · exact Option.some.inj (h.symm.trans hb)
    · cases h.symm.trans hnone
  | none =>
    refine ⟨Config.freeByte s.draws, s.draws + 1, fbufRead_unwritten h, Nat.le_succ _, fun b' hb => ?_, fun _ => ?_⟩
    · cases h.symm.trans hb
    · exact ⟨s.draws, le_refl _, Nat.lt_succ_self _, rfl⟩

/-- The byte lanes of a packed word (R66). -/
theorem extractLsb'_packWord (b0 b1 b2 b3 : Byte) :
    (packWord b0 b1 b2 b3).extractLsb' 0 8 = b0 ∧ (packWord b0 b1 b2 b3).extractLsb' 8 8 = b1 ∧
    (packWord b0 b1 b2 b3).extractLsb' 16 8 = b2 ∧ (packWord b0 b1 b2 b3).extractLsb' 24 8 = b3 := by
  unfold packWord
  refine ⟨?_, ?_, ?_, ?_⟩
  all_goals simp (disch := omega) only [BitVec.extractLsb'_append_eq_of_le, BitVec.extractLsb'_append_eq_of_add_le,
    Nat.sub_self, Nat.reduceSub, BitVec.extractLsb'_eq_self]

/-- A read of a word of `FBUF`: each byte lane is what a read of its byte may give. -/
theorem fbufReadWord_cases (j : Nat) (s : State) : ∃ w d, fbufReadWord j s = (w, { s with draws := d }) ∧
    ∀ k, k < 4 → ReadsAs s.fbuf (4 * j + k) s.draws d (w.extractLsb' (8 * k) 8) := by
  obtain ⟨b0, d0, hread0, hle0, hb0⟩ := fbufRead_readsAs (4 * j) s
  obtain ⟨b1, d1, hread1, hle1, hb1⟩ := fbufRead_readsAs (4 * j + 1) { s with draws := d0 }
  obtain ⟨b2, d2, hread2, hle2, hb2⟩ := fbufRead_readsAs (4 * j + 2) { s with draws := d1 }
  obtain ⟨b3, d3, hread3, hle3, hb3⟩ := fbufRead_readsAs (4 * j + 3) { s with draws := d2 }
  obtain ⟨hlane0, hlane1, hlane2, hlane3⟩ := extractLsb'_packWord b0 b1 b2 b3
  simp only at hle1 hle2 hle3 hb1 hb2 hb3
  refine ⟨packWord b0 b1 b2 b3, d3, by simp only [fbufReadWord, hread0, hread1, hread2, hread3], fun k hk => ?_⟩
  interval_cases k
  · exact hlane0.symm ▸ hb0.mono (le_refl _) (by omega)
  · exact hlane1.symm ▸ hb1.mono (by omega) (by omega)
  · exact hlane2.symm ▸ hb2.mono (by omega) (by omega)
  · exact hlane3.symm ▸ hb3.mono (by omega) (le_refl _)

/-- Settles O14: the offset is that of one word of the window, which a write stores and a read reads byte by byte. -/
theorem fbufWindowHoldsTheWord : Obligations.FbufWindowHoldsTheWord := by
  intro s j a v rest hj hs ha
  have hreg : regAt a = some (.fbuf j) := ha ▸ regAt_fbuf j hj
  refine ⟨fun hb => ?_, fun hb => ?_⟩
  · have hget := fun i => fbufStore_get? [byteLane v 0, byteLane v 1, byteLane v 2, byteLane v 3] (4 * j) i
      (driveData v (popAction rest s)) (by unfold Config.maxFrame; simp only [List.length_cons, List.length_nil]; omega)
    simp only [List.length_cons, List.length_nil] at hget
    refine ⟨_, ?_, fun k hk => (hget _).trans ?_, fun i hi => (hget i).trans (if_neg (by omega))⟩
    · rw [step_write_idle hs hb hreg (by simp), regWrite, fbufStore_eq]
      rfl
    · rw [if_pos (by omega), Nat.add_sub_cancel_left]
      interval_cases k <;> rfl
  · obtain ⟨w, d, hread, hlanes⟩ := fbufReadWord_cases j (popAction rest s)
    refine ⟨w, d, ?_, hlanes⟩
    rw [step_read_idle hs hb hreg, regRead, hread]
    rfl

/-! ### `STATUS` as a word (R24, R210) -/

/-- The single bits of the word. -/
theorem word_getLsbD (t : Status) : t.word.getLsbD 0 = t.busy ∧ t.word.getLsbD 1 = t.done ∧
    t.word.getLsbD 2 = t.fatal ∧ t.word.getLsbD 3 = t.collide ∧ t.word.getLsbD 4 = t.crcChk ∧
    t.word.getLsbD 5 = t.crcErr ∧ t.word.getLsbD 12 = t.hsOk := by
  unfold Status.word
  refine ⟨?_, ?_, ?_, ?_, ?_, ?_, ?_⟩
  all_goals
    simp only [BitVec.getLsbD_append, BitVec.getLsbD_ofBool]
    rfl

/-- The wider fields of the word. -/
theorem word_extractLsb' (t : Status) : t.word.extractLsb' 6 2 = t.hdrClass.code ∧
    t.word.extractLsb' 8 4 = t.result.code ∧ t.word.extractLsb' 13 19 = 0 := by
  unfold Status.word
  refine ⟨?_, ?_, ?_⟩
  all_goals simp (disch := omega) only [BitVec.extractLsb'_append_eq_of_le, BitVec.extractLsb'_append_eq_of_add_le,
    Nat.sub_self, Nat.reduceSub, BitVec.extractLsb'_eq_self]
  rfl

/-- Settles O17: the fields stand one behind the other, and the codes are those of R24 and R210. -/
theorem statusWordLayout : Obligations.StatusWordLayout := by
  intro t
  obtain ⟨hbusy, hdone, hfatal, hcollide, hchk, herr, hok⟩ := word_getLsbD t
  obtain ⟨hclass, hresult, hrest⟩ := word_extractLsb' t
  refine ⟨hbusy, hdone, hfatal, hcollide, hchk, herr, hclass.trans ?_, hresult.trans ?_, hok, hrest⟩
  · cases t.hdrClass <;> rfl
  · cases t.result <;> rfl

end Sys2Proof.Machine

/-! Accesses while a command runs (R71 to R73). -/

namespace Sys2Proof.Machine

/-- A `CMD` write, at any offset of its word, while a command runs (R217). -/
theorem step_command_busy {s : State} {a : Offset} {v : Word} {rest : List BusAction} (hr : s.rst = false)
    (hbusy : s.status.busy = true) (hb : s.host.bus = .write a v :: rest ∨ s.host.bus = .writeRacing a v :: rest)
    (ha : regAt a = some .cmd) : step s = .next (collide (driveData v (popAction rest s))) := by
  rcases hb with hb | hb
  · exact (step_write_cmd hb ha).trans (issueWord_busy hr hbusy)
  · exact (step_racing_cmd hb ha).trans (congrArg _ (issueWordRacing_busy hr hbusy))

/-- R71: a register that is neither `CTRL` nor `STATUS` is not written while a command runs. -/
theorem writableWhileBusy_eq_false {r : Reg} (hctrl : r ≠ .ctrl) (hstatus : r ≠ .status) :
    r.writableWhileBusy = false := by
  cases r with
  | ctrl => exact absurd rfl hctrl
  | status => exact absurd rfl hstatus
  | _ => rfl

/-- R71: a host write to anything but `CTRL`, `STATUS` and `CMD` while a command runs. -/
theorem hostStore_busy {s : State} {a : Offset} (v : Word) (hbusy : s.status.busy = true)
    (hctrl : regAt a ≠ some .ctrl) (hstatus : regAt a ≠ some .status) : hostStore a v s = s := by
  cases ha : regAt a with
  | none => exact hostStore_unmapped ha
  | some r =>
    exact hostStore_ignored ha hbusy (writableWhileBusy_eq_false (fun h => hctrl (ha.trans (congrArg some h)))
      fun h => hstatus (ha.trans (congrArg some h)))

/-- Every host write while a command runs, register by register (R71). -/
theorem step_write_busy {s : State} {a : Offset} {v : Word} {rest : List BusAction} (hr : s.rst = false)
    (hbusy : s.status.busy = true) (hb : s.host.bus = .write a v :: rest ∨ s.host.bus = .writeRacing a v :: rest) :
    step s = .next (
      if regAt a = some .ctrl then regWrite .ctrl v (driveData v (popAction rest s))
      else if regAt a = some .status then regWrite .status v (driveData v (popAction rest s))
      else if regAt a = some .cmd then collide (driveData v (popAction rest s))
      else driveData v (popAction rest s)) := by
  have hmapped {r : Reg} (ha : regAt a = some r) (hcmd : r ≠ .cmd) (hw : r.writableWhileBusy = true) :
      step s = .next (regWrite r v (driveData v (popAction rest s))) := by
    rw [step_store hb (by simpa [ha] using hcmd), hostStore_mapped (s := driveData v (popAction rest s)) hr ha (.inr hw)]
  split
  · exact hmapped ‹_› (by decide) rfl
  · split
    · exact hmapped ‹_› (by decide) rfl
    · split
      · exact step_command_busy hr hbusy hb ‹_›
      · rw [step_store hb ‹_›, hostStore_busy (s := driveData v (popAction rest s)) v hbusy ‹_› ‹_›]

/-! ### Reads -/

/-- A read that the host sees a fresh draw of. -/
theorem hostRead_busy {s : State} {a : Offset} {r : Reg} (hr : s.rst = false) (hbusy : s.status.busy = true)
    (ha : regAt a = some r) (hread : r.readableWhileBusy = false) : hostRead a s = logRead (drawWord s) := by
  simp [hostRead, hr, ha, hbusy, hread]

/-- R63, R71: the registers from 0x010 on and the `FBUF` window are mapped, and none of them is one that reads as it is
while a command runs. -/
theorem regAt_not_readableWhileBusy {a : Offset}
    (h : (0x010 ≤ a.toNat ∧ a.toNat ≤ 0x043) ∨ (0x200 ≤ a.toNat ∧ a.toNat ≤ 0x3FF)) :
    ∃ r, regAt a = some r ∧ r.readableWhileBusy = false := by
  have hword := wordOffset_eq a
  unfold regAt
  rcases h with ⟨hlo, hhi⟩ | ⟨hlo, hhi⟩
  · rw [if_neg (by omega)]
    obtain ⟨k, hk⟩ : ∃ k, k = a.toNat / 4 := ⟨_, rfl⟩
    have hk₄ : 4 ≤ k ∧ k ≤ 16 := by omega
    rw [hword, ← hk]
    obtain ⟨hlo, hhi⟩ := hk₄
    clear hk
    interval_cases k <;> exact ⟨_, rfl, rfl⟩
  · rw [if_pos (by omega)]
    exact ⟨_, rfl, rfl⟩

/-- A word read and a count of draws are seen in the state after the read. -/
theorem logged_inj {s : State} {w w' : Word} {d d' : Nat}
    (h : { s with host := { s.host with reads := s.host.reads ++ [w] }, draws := d } =
      { s with host := { s.host with reads := s.host.reads ++ [w'] }, draws := d' }) : w = w' ∧ d = d' := by
  have hreads := List.append_cancel_left (congrArg (fun t : State => t.host.reads) h)
  exact ⟨List.head_eq_of_cons_eq hreads, congrArg State.draws h⟩

/-- Settles O16: a write is judged by the register at its offset, a read by whether its register reads as it is while a
command runs, and what the host sees of `STATUS` after a step is `step_hostStatus`. -/
theorem accessesWhileBusy : Obligations.AccessesWhileBusy := by
  intro s t a v rest hr hbusy ht
  subst ht
  refine ⟨fun hb => ?_, fun hb => ?_, fun hinv => hinv.notDone hbusy, fun u hstep => ?_⟩
  · rw [step_write_busy hr hbusy hb]
    simp only [regAt_eq_ctrl, regAt_eq_status, regAt_eq_cmd]
    rfl
  · obtain ⟨w, d, hread⟩ := hostRead_cases a (popAction rest s)
    have hvalue {r : Reg} {w' : Word} (ha : regAt a = some r) (hr' : r.readableWhileBusy = true)
        (hw : regRead r (popAction rest s) = (w', popAction rest s)) : w = w' := by
      rw [hostRead_mapped (s := popAction rest s) hr ha (.inr hr'), hw] at hread
      exact (logged_inj hread.symm).1
    refine ⟨w, d, by rw [step_read hb, hread]; rfl, fun ha => ?_, fun ha => ?_, fun ha => ?_, fun ha => ?_⟩
    · exact hvalue ((regAt_eq_id a).mpr ha) rfl rfl
    · exact hvalue ((regAt_eq_ctrl a).mpr ha) rfl rfl
    · exact hvalue ((regAt_eq_status a).mpr ha) rfl rfl
    · obtain ⟨r, hreg, hno⟩ := regAt_not_readableWhileBusy ha
      rw [hostRead_busy (s := popAction rest s) hr hbusy hreg hno] at hread
      exact logged_inj hread.symm
  · obtain ⟨hrunning, -, hended⟩ := step_hostStatus hstep
    refine ⟨fun hu => hrunning hu hbusy, fun hu => ?_⟩
    exact (hended hu hbusy).imp_right fun hdone => ⟨hdone, hostStatus_idle u hu⟩

end Sys2Proof.Machine

/-! The issue of a command (R216), its acceptance and its completion (R214). -/

namespace Sys2Proof.Machine

/-- Settles O22: the fatal results are those of R211. -/
theorem acceptanceAndCompletion : Obligations.AcceptanceAndCompletion := by
  intro s p code
  have hfatal : code.isFatal = decide (code ∈ [Result.badHeader, .incompleteWrite, .hsFail]) := by
    cases code <;> decide
  exact ⟨rfl, by rw [← hfatal]; rfl⟩

/-- A legal word written to `CMD` of a block that is ready (R216 step 4). -/
theorem step_command {s : State} {a : Offset} {v : Word} {rest : List BusAction} {i : Instr} (hs : Ready s)
    (ha : regAt a = some .cmd) (hb : s.host.bus = .write a v :: rest) (hd : decode v = .ok i) :
    step s = exec i (driveData v (popAction rest s)) :=
  (step_write_cmd hb ha).trans (issueWord_legal hs hd)

theorem step_command_racing {s : State} {a : Offset} {v : Word} {rest : List BusAction} {i : Instr} (hs : Ready s)
    (ha : regAt a = some .cmd) (hb : s.host.bus = .writeRacing a v :: rest) (hd : decode v = .ok i) :
    step s = .next (issueRacing i (driveData v (popAction rest s))) :=
  (step_racing_cmd hb ha).trans (congrArg _ (issueWordRacing_legal hs hd))

/-- A word of the opcode table that names a command decodes to it. -/
theorem decode_of_tableWord {w : Nat} {i : Instr} (h : decodeTableWord 32 w = some i) :
    decode (BitVec.ofNat 32 (w % 2 ^ 32)) = .ok i := by
  unfold decodeTableWord at h
  split at h <;> cases h
  assumption

/-- A block that is ready already is not changed by being made ready. -/
theorem withFetchWord_of_ready {s : State} (hr : s.rst = false) (hq : s.seq = .idle) (hidle : s.status.busy = false)
    (n w : Nat) : s.withFetchWord n w =
      { s with host := { s.host with bus := .write 0x008 (BitVec.ofNat 32 (w % 2 ^ n)) :: s.host.bus } } := by
  have hstatus : { s.status with busy := false } = s.status := by rw [← hidle]
  rw [State.withFetchWord, hstatus, ← hr, ← hq]

/-- Settles O18: the write is at `CMD`, and a word of the table is its own value modulo the width of the bus. -/
theorem stepRunsTheDecodedCommand : Obligations.StepRunsTheDecodedCommand := by
  refine ⟨fun s a v rest i hs ha hb hd => step_command hs ((regAt_eq_cmd a).mpr ha) hb hd, fun s w i hr hq hidle hw hd => ?_⟩
  have hword := decode_of_tableWord hd
  rw [withFetchWord_of_ready hr hq hidle]
  rw [Nat.mod_eq_of_lt hw] at hword ⊢
  exact step_command ⟨hr, hidle⟩ ((regAt_eq_cmd _).mpr rfl) rfl hword

/-! ### The issue rules (R216) -/

/-- The commands that touch the line, by their opcodes (R216 step 3). -/
theorem touchesLine_iff_opcode (i : Instr) : touchesLine i = true ↔
    i.opcode.setWidth 32 ∈ ([0x07, 0x08, 0x09, 0x0A, 0x0B] : List Word) := by
  cases i <;> simp [touchesLine, Instr.opcode]

/-- The opcode byte of a word that decodes. -/
theorem and_opcodeMask_of_decode {v : Word} {i : Instr} (h : decode v = .ok i) : v &&& 0xFF = i.opcode.setWidth 32 := by
  obtain ⟨-, ho, -⟩ := fields_of_decode h
  apply BitVec.eq_of_toNat_eq
  have hlt := i.opcode.isLt
  rw [← fieldOpc_toNat, ho, BitVec.toNat_setWidth, Nat.mod_eq_of_lt (by omega)]

/-- A word that is not rejected decodes. -/
theorem decode_of_not_illegal {v : Word} (h : ¬ (v >>> 18 ≠ 0 ∨ 0x0D ≤ (v &&& 0xFF).toNat)) : ∃ i, decode v = .ok i := by
  rw [← illegalWordsAreRejected v] at h
  cases hd : decode v with
  | ok i => exact ⟨i, rfl⟩
  | error e => exact absurd ⟨e, hd⟩ h

/-- A locked command, in both views (R216 step 3). -/
theorem step_command_locked {s : State} {v : Word} {rest : List BusAction} {i : Instr} (hs : Ready s)
    (hb : s.host.bus = .write 0x008 v :: rest ∨ s.host.bus = .writeRacing 0x008 v :: rest) (hd : decode v = .ok i)
    (hf : s.status.fatal = true) (hi : touchesLine i = true) :
    step s = .next (completeAtOnce .locked (driveData v (popAction rest s))) := by
  have ha : regAt 0x008 = some .cmd := (regAt_eq_cmd _).mpr rfl
  rcases hb with hb | hb
  · rw [step_command hs ha hb hd, exec_locked (s := driveData v (popAction rest s)) hs hi hf]
  · rw [step_command_racing hs ha hb hd, issueRacing,
      issue_locked (s := driveData v (popAction rest s)) hs hi hf]

/-- Settles O19: the conditions of R216 in their order; a word that the decoder does not reject has one command, which
touches the line by its opcode. -/
theorem issueRules : Obligations.IssueRules := by
  intro s t v rest hr ht illegal ofLine
  subst ht
  have hline {i : Instr} (hd : decode v = .ok i) : touchesLine i = true ↔ ofLine := by
    rw [touchesLine_iff_opcode, ← and_opcodeMask_of_decode hd]
  refine ⟨fun hb => ⟨fun hbusy => step_cmd_busy hr hbusy hb, fun hidle hill => ?_, fun hidle hleg hf hof => ?_⟩,
    fun hidle hleg hlock => ?_⟩
  · exact illegalCommandCompletes s v rest ⟨hr, hidle⟩ hill hb
  · obtain ⟨i, hd⟩ := decode_of_not_illegal hleg
    exact step_command_locked ⟨hr, hidle⟩ hb hd hf ((hline hd).mpr hof)
  · obtain ⟨i, hd⟩ := decode_of_not_illegal hleg
    have ha : regAt 0x008 = some .cmd := (regAt_eq_cmd _).mpr rfl
    have hfree : touchesLine i = false ∨ s.status.fatal = false := by
      by_contra hboth
      obtain ⟨hi, hf⟩ := not_or.mp hboth
      exact hlock (Bool.eq_true_of_not_eq_false hf) ((hline hd).mp (Bool.eq_true_of_not_eq_false hi))
    refine ⟨i, hd, fun hb => step_command ⟨hr, hidle⟩ ha hb hd, fun hb => ?_⟩
    rw [step_command_racing ⟨hr, hidle⟩ ha hb hd, issueRacing,
      issue_taken (s := driveData v (popAction rest s)) ⟨hr, hidle⟩ hfree]
    rfl

end Sys2Proof.Machine

/-! The two views of a command (R36, R72): the moves of the sequencer come to the atomic result, the host sees nothing of
them before the command completes, and a search moves on for as long as no known header comes (R261). -/

namespace Sys2Proof.Machine

/-- The state of an issued command word, before it is judged. -/
theorem issueWordRacing_host (v : Word) (s : State) : (issueWordRacing v s).host = s.host := by
  rcases issueWordRacing_cases v s with ⟨-, h⟩ | ⟨-, -, h⟩ | ⟨-, -, h⟩ | ⟨-, i, -, h⟩ <;> rw [h]
  · rfl
  · rfl
  · rw [issueRacing]
    rcases issue_cases (touchesLine i) (entryPoint i) (begin i) s with ⟨-, h⟩ | ⟨-, -, h⟩ | ⟨-, -, -, h⟩ | ⟨-, -, h⟩ <;>
      rw [h]
    · rfl
    · rfl
    · rcases close_effect (begin_kept i (accept (entryPoint i) s)) with hk | ⟨code, t, hk, ht⟩
      · exact hk.host
      · rw [ht]
        exact hk.host

/-- A word issued in the non-atomic view comes, after some number of moves, to its atomic result. -/
theorem issueWordRacing_goes {v : Word} {s : State} (hw : s.host.wdata = v) :
    ∃ n, issueWord v s = .next (seqMoves n (issueWordRacing v s)) := by
  rcases issueWordRacing_cases v s with ⟨hr, h⟩ | ⟨hr, hbusy, h⟩ | ⟨hs, ⟨e, hd⟩, h⟩ | ⟨hs, i, hd, h⟩ <;> rw [h]
  · exact ⟨0, issueWord_inReset hr v⟩
  · exact ⟨0, issueWord_busy hr hbusy⟩
  · exact ⟨0, issueWord_illegal hs hd⟩
  · rw [issueWord_legal hs hd, issueRacing]
    by_cases hlock : touchesLine i = true ∧ s.status.fatal = true
    · obtain ⟨hi, hf⟩ := hlock
      exact ⟨0, by rw [exec_locked hs hi hf, issue_locked hs hi hf]; rfl⟩
    · have hfree : touchesLine i = false ∨ s.status.fatal = false := by simpa [or_iff_not_imp_left] using hlock
      obtain ⟨n, hn⟩ := begin_goes (hw ▸ hd) (accept (entryPoint i) s) rfl
      exact ⟨n, by rw [exec_taken hs hfree, issue_taken hs hfree, hn]⟩

/-- The host sees nothing of a move that leaves the command running. -/
theorem seqMove_hostStatus {s : State} (h : (seqMove s).status.busy = true) :
    s.status.busy = true ∧ hostStatus (seqMove s) = hostStatus s := by
  rcases seqMove_cases s with hsame | ⟨cmd, p, n, b, i, hs, hd, hmove, hk⟩
  · rw [hsame] at h ⊢
    exact ⟨h, rfl⟩
  · rw [hmove] at h ⊢
    have hbusy : s.status.busy = true := by
      rcases close_effect hk with hk | ⟨code, t, -, ht⟩
      · exact hk.busy.symm.trans h
      · rw [ht] at h
        cases h
    rcases close_hostStatus hk (by simp [hs]) hbusy with ⟨-, hsee⟩ | ⟨hidle, -⟩
    · exact ⟨hbusy, hsee⟩
    · exact absurd (hidle.symm.trans h) Bool.false_ne_true

theorem seqMoves_hostStatus (n : Nat) : ∀ s : State, (seqMoves n s).status.busy = true →
    s.status.busy = true ∧ hostStatus (seqMoves n s) = hostStatus s := by
  induction n with
  | zero => exact fun s h => ⟨h, rfl⟩
  | succ n ih =>
    intro s h
    obtain ⟨hbusy, hsee⟩ := ih (seqMove s) h
    obtain ⟨hbusy', hsee'⟩ := seqMove_hostStatus hbusy
    exact ⟨hbusy', hsee.trans hsee'⟩

/-- Settles O32: after the write to `CMD` nothing is left on the host's list, so a run is the sequencer's moves. -/
theorem movesReachTheAtomicResult : Obligations.MovesReachTheAtomicResult := by
  intro s v racing
  have ha : regAt 0x008 = some .cmd := (regAt_eq_cmd _).mpr rfl
  have hstep : step racing = .next (issueWordRacing v (driveData v (popAction [] s))) :=
    step_racing_cmd (s := racing) rfl ha
  have hrun (n : Nat) : Host.Core.run core (n + 1) racing =
      .next (seqMoves n (issueWordRacing v (driveData v (popAction [] s)))) := by
    rw [run_succ hstep, run_moves _ _ (congrArg HostSide.bus (issueWordRacing_host v (driveData v (popAction [] s))))]
  refine ⟨?_, fun hidle k t ht hbusy => ?_⟩
  · obtain ⟨n, hn⟩ := issueWordRacing_goes (v := v) (s := driveData v (popAction [] s)) rfl
    exact ⟨n, ((hrun n).trans hn.symm).trans
      (step_write_cmd (s := { s with host := { s.host with bus := [.write 0x008 v] } }) rfl ha).symm⟩
  · rw [hrun k] at ht
    cases ht
    obtain ⟨hbusy', hsee⟩ := seqMoves_hostStatus k _ hbusy
    obtain ⟨-, hseen, -⟩ := step_hostStatus hstep
    exact hsee.trans (hseen hbusy' hidle)

/-! ### A search (R133, R261) -/

/-- One move of a search that takes a byte which makes no known header with the byte before it. -/
theorem seqMove_slide {s : State} {cmd : Word} {seen : Nat} {before : Flags} {i : Instr} {b : Byte} {q : List RxEvent}
    (hs : s.seq = .run cmd .syncSlide seen before) (hd : decode cmd = .ok i) (hq : s.line.rxq = .byte b :: q)
    (hc : classify s.win1 b = .unknown) :
    seqMove s = { s with
      win0 := s.win1, win1 := b, line := { s.line with rxq := q }
      seq := .run cmd .syncSlide (seen + 1) before } := by
  have hpop := rxPop_cons (s := { s with win0 := s.win1 }) hq
  have hmove : moveFrom i .syncSlide seen s = .hold { s with
      win0 := s.win1, win1 := b, line := { s.line with rxq := q }
      seq := .run cmd .syncSlide (seen + 1) before } := by
    simp only [moveFrom, moveSyncSlide]
    rw [hpop]
    simp only [windowFull, hc, ne_eq, not_true_eq_false, if_false, setPoint, hs]
  rw [seqMove, hs]
  simp only [hd]
  rw [hmove]
  exact ending_hold _

/-- The search by the bytes it takes, with any number of them behind it. -/
theorem search_run {cmd : Word} {before : Flags} {i : Instr} {rest : List RxEvent} (hd : decode cmd = .ok i) (g : List Byte) :
    ∀ (s : State) (seen : Nat), s.host.bus = [] → s.seq = .run cmd .syncSlide seen before →
      noHeader (s.win1 :: g) = true → s.line.rxq = delivered g ++ rest →
      ∃ t, Host.Core.run core g.length s = .next t ∧ t.seq = .run cmd .syncSlide (seen + g.length) before ∧
        t.line = { s.line with rxq := rest } ∧ t.status = s.status ∧ t.fbuf = s.fbuf := by
  induction g with
  | nil =>
    intro s seen hb hs hg hq
    have hline : s.line = { s.line with rxq := rest } := by
      conv_rhs => rw [← show s.line.rxq = rest from hq]
    exact ⟨s, rfl, hs, hline, rfl, rfl⟩
  | cons b g ih =>
    intro s seen hb hs hg hq
    obtain ⟨hc, hg'⟩ := (noHeader_cons_cons _ _ _).mp hg
    have hmove := seqMove_slide (q := delivered g ++ rest) hs hd hq hc
    obtain ⟨t, ht, hseq, hline, hstatus, hfbuf⟩ := ih (seqMove s) (seen + 1) (by rw [hmove]; exact hb)
      (by rw [hmove]) (by rw [hmove]; exact hg') (by rw [hmove])
    rw [hmove] at hline hstatus hfbuf
    refine ⟨t, (run_succ (step_nil hb)).trans ht, ?_, hline, hstatus, hfbuf⟩
    rw [hseq, List.length_cons, Nat.add_assoc, Nat.add_comm 1]

/-- Settles O33, by induction on the bytes that the line delivers. -/
theorem garbageKeepsTheSearchRunning : Obligations.GarbageKeepsTheSearchRunning :=
  fun s _ seen _ _ g _ hb hs hd hg hq => search_run hd g s seen hb hs hg hq

end Sys2Proof.Machine

/-! The CRC (40_crc.md): the residue of a sequence with its CRC appended (R102), and the two ways that the block comes to the
CRC of a sequence. -/

namespace Sys2Proof.Machine

theorem crc16_append (bs cs : List Byte) : crc16 (bs ++ cs) = cs.foldl crcStep (crc16 bs) :=
  List.foldl_append

theorem loByte_setWidth (b : Byte) : loByte (b.setWidth 16) = b := by
  apply BitVec.eq_of_toNat_eq
  have hlt := b.isLt
  simp only [loByte, BitVec.extractLsb'_toNat, BitVec.toNat_setWidth, Nat.shiftRight_zero]
  omega

theorem hiByte_setWidth (b : Byte) : hiByte (b.setWidth 16) = 0 := by
  apply BitVec.eq_of_toNat_eq
  have hlt := b.isLt
  simp only [hiByte, BitVec.extractLsb'_toNat, BitVec.toNat_setWidth, Nat.shiftRight_eq_div_pow]
  show _ = 0
  omega

/-- Folding in its own two bytes, low byte first, empties a CRC: each moves the other half down. -/
theorem foldl_crcStep_crcWire (c : Half) : (crcWire c).foldl crcStep c = 0 := by
  have hhi := crcStep_loByte ((hiByte c).setWidth 16)
  rw [loByte_setWidth, hiByte_setWidth] at hhi
  rw [crcWire, List.foldl_cons, List.foldl_cons, List.foldl_nil, crcStep_loByte, hhi]
  rfl

/-- Settles O34: the appended bytes are folded into the CRC that they are the bytes of. -/
theorem crcResidueIsZero : Obligations.CrcResidueIsZero := fun s => by
  rw [crc16_append, foldl_crcStep_crcWire]

theorem crcMismatch_self (c : Half) : crcMismatch c (loByte c) (hiByte c) = false := by
  simp [crcMismatch]

/-- Settles O35: the bytes of the frame are listed, and its trailing CRC is that of the bytes before it. -/
theorem crcRoundTrip : Obligations.CrcRoundTrip := by
  intro s bs hs hlen hbuf hfbuf
  have hframe : (bs ++ crcWire (crc16 bs)).length = bs.length + 2 := by simp [crcWire]
  have hcheck := checkFrame_listed (bs ++ crcWire (crc16 bs)) (accept (entryPoint .crcv) s) (by omega)
    (fun k hk => hfbuf k (by omega))
  have hbody : crcvBody (accept (entryPoint .crcv) s) =
      .next (checkFrame (bs.length + 2) (accept (entryPoint .crcv) s)) := by
    simp only [crcvBody, bufLenOperand_of_le (s := accept (entryPoint .crcv) s) (by rw [accept_bufLen]; omega),
      accept_bufLen, hbuf, if_neg (show ¬ bs.length + 2 < 2 by omega)]
  rw [hframe, crcWire, frameCovered_append, frameBad_append, crcMismatch_self] at hcheck
  rw [exec_taken hs (.inl rfl), commandBody, hbody, hcheck, close_next]
  rfl

/-! ### CRCI and a chain of CRCB (R104, R105) -/

theorem immByte_toNat (b : Byte) : immByte b.toNat = b := by
  rw [immByte, BitVec.ofNat_toNat, BitVec.setWidth_eq]

theorem exec_crcb {s : State} (hs : Ready s) (b : Byte) :
    exec (.crcb b.toNat) s = .next (complete .ok { s with crc := crcStep s.crc b }) := by
  rw [exec_taken hs (.inl rfl), commandBody, immByte_toNat]
  rfl

/-- A chain of `CRCB` behind a completed command: `run` is any way to go on with one more byte. -/
theorem crcb_chain {run : Host.Outcome State Fault Refusal → Byte → Host.Outcome State Fault Refusal}
    (hrun : ∀ t b, run (.next t) b = exec (.crcb b.toNat) t) (bs : List Byte) :
    ∀ s : State, s.rst = false → bs.foldl run (.next (complete .ok s)) =
      .next (complete .ok { s with crc := bs.foldl crcStep s.crc }) := by
  induction bs with
  | nil => exact fun _ _ => rfl
  | cons b bs ih =>
    intro s hr
    have hnext : exec (.crcb b.toNat) (complete .ok s) = .next (complete .ok { s with crc := crcStep s.crc b }) := by
      rw [exec_crcb (s := complete .ok s) ⟨hr, rfl⟩ b]
      simp [complete, Result.isFatal]
    rw [List.foldl_cons, hrun, hnext, ih { s with crc := crcStep s.crc b } hr]
    rfl

/-- Settles O36, by induction on the bytes: each `CRCB` finds the block completed by the command before it. -/
theorem crcbChainComputesCrc : Obligations.CrcbChainComputesCrc := by
  intro s bs hs run
  obtain ⟨-, hcrci⟩ := crciResult
  rw [hcrci s hs]
  exact crcb_chain (fun _ _ => rfl) bs { s with crc := 0xFFFF } hs.1

end Sys2Proof.Machine

/-! Searches and frames on a line whose bytes are listed (41_frame.md): a header behind garbage (R134), a frame cut short
(R136), and an illegal length (R140). -/

namespace Sys2Proof.Machine

/-- A header in `FBUF[0..1]` (R133). -/
theorem holdsFrame_header (h0 h1 : Byte) (s : State) :
    HoldsFrame [h0, h1] s.fbuf (fbufWrite 1 h1 (fbufWrite 0 h0 s)).fbuf := by
  intro k
  rw [fbufWrite_get? _ _ _ _ (by decide), fbufWrite_get? _ _ _ _ (by decide)]
  rcases k with _ | _ | k <;> simp

/-- Settles O44: the search ends at the header, and what `FOUND` writes is all that `SYNC` leaves beside the prologue. -/
theorem syncFindsTheHeader : Obligations.SyncFindsTheHeader := by
  intro s g h0 h1 rest hs hg hk hq
  obtain ⟨hready, hfatal⟩ := hs
  refine ⟨_, holdsFrame_header h0 h1 s, ?_⟩
  rw [exec_taken hready (.inr hfatal), commandBody, syncBody,
    resync_found (s := rxPrologue (accept (entryPoint .sync) s)) hg hk hq, close_next, syncFound_eq, Nat.add_sub_cancel]
  rfl

theorem rdfBody_of_illegal {s : State} (h : s.expLen.toNat < 5 ∨ 512 < s.expLen.toNat) : rdfBody s = .raise .lenErr s := by
  simp only [rdfBody, expLenOperand_of_illegal h]

/-- Settles O47: the length is looked at before anything else is done. -/
theorem rdfRefusesIllegalLengths : Obligations.RdfRefusesIllegalLengths := by
  intro s hs hlen
  obtain ⟨hready, hfatal⟩ := hs
  rw [exec_taken hready (.inr hfatal), commandBody, rdfBody_of_illegal (s := accept (entryPoint .rdf) s) hlen, close_raise,
    complete_accept]

/-- Settles O48: what a frame cut short leaves does not depend on the acceptance before it. -/
theorem rdfShortFrameTimesOut : Obligations.RdfShortFrameTimesOut := by
  intro s g f rest hs h₂ hlen h₅ h₅₁₂ hg hk hq
  obtain ⟨hready, hfatal⟩ := hs
  obtain ⟨m, hm, hread⟩ := readFrame_short (s := rxPrologue (accept (entryPoint .rdf) s)) h₂ hlen h₅₁₂ hg hk hq
  refine ⟨m, hm, ?_⟩
  rw [exec_taken hready (.inr hfatal), commandBody, rdfBody_of_legal (s := accept (entryPoint .rdf) s) h₅ h₅₁₂,
    accept_expLen, hread, close_raise]
  rfl

end Sys2Proof.Machine

/-! The transactor on a line whose answers and bytes are listed (42_transactor.md): `EXEC` without a response, a refused byte,
a short response, the handshake, and a line that falls silent before a header. -/

namespace Sys2Proof.Machine

/-! ### EXEC (R173) -/

/-- `EXEC.NR` on a line that accepts its request. -/
theorem execBody_noresp {s : State} {q : List Bool} (lo : Bool) (ha : s.line.txAnswers = List.replicate 8 true ++ q) :
    execBody true lo s = .next (requestSent q (rxPrologue s)) := by
  have hsent := transmit_answers (prepareRequest s) 8 q (le_refl _) ha
  rw [if_neg (lt_irrefl 8)] at hsent
  rw [execBody, if_pos rfl, hsent]
  rfl

/-- Settles O52: neither the length nor the RX side of the line is looked at. -/
theorem execWithoutResponse : Obligations.ExecWithoutResponse := by
  intro s lo q hs ha
  obtain ⟨hready, hfatal⟩ := hs
  rw [exec_taken hready (.inr hfatal), commandBody,
    execBody_noresp (s := accept (entryPoint (.exec true lo)) s) lo ha, close_next]
  rfl

/-! ### HSK around its EXEC (R174) -/

/-- The handshake's own request has the length of a read response. -/
theorem expectedLen_hskBegin (s : State) : expectedLen false (hskBegin s) = some 7 := rfl

theorem exec_hsk {s : State} (hs : LineReady s) :
    exec .hsk s = .next (hskEnd (execBody false false (hskBegin (accept (entryPoint .hsk) s)))).close := by
  obtain ⟨hready, hfatal⟩ := hs
  rw [exec_taken hready (.inr hfatal), commandBody, hskBody]

/-- The results of `EXEC` that `HSK` keeps. -/
theorem hskEnd_raise_kept {c : Result} (hc : c = .incompleteWrite ∨ c = .badHeader) (s : State) :
    hskEnd (.raise c s) = .raise c (setHsOk false s) := by
  rw [hskEnd, if_pos hc]

/-- Every other result of `EXEC` becomes `HS_FAIL`. -/
theorem hskEnd_raise_other {c : Result} (hc : ¬ (c = .incompleteWrite ∨ c = .badHeader)) (s : State) :
    hskEnd (.raise c s) = .raise .hsFail (setHsOk false s) := by
  rw [hskEnd, if_neg hc]

/-- The end of `HSK` behind a whole response, whose magic byte has been read into `FBUF`. -/
theorem hskEnd_next_listed {s : State} {b : Byte} (h : Memory.get? s.fbuf 4 = some b) :
    hskEnd (.next s) =
      if s.status.hdrClass = .read ∧ b = 0x82 then .next (setHsOk true s) else .raise .hsFail (setHsOk false s) := by
  simp only [hskEnd, fbufRead_listed h]
  rfl

/-- Settles O53: both commands have offered their request when the byte is refused, and `HSK` keeps the result. -/
theorem execIncompleteWrite : Obligations.ExecIncompleteWrite := by
  intro s nr lo k q hs hk ha cut
  refine ⟨fun hlen => ?_, ?_⟩
  · obtain ⟨hready, hfatal⟩ := hs
    rw [exec_taken hready (.inr hfatal), commandBody,
      execBody_refused (s := accept (entryPoint (.exec nr lo)) s) hk ha hlen, close_raise]
    rfl
  · have hlen := expectedLen_hskBegin (accept (entryPoint .hsk) s)
    rw [exec_hsk hs, execBody_refused (s := hskBegin (accept (entryPoint .hsk) s)) hk ha (.inr (by simp [hlen])),
      hskEnd_raise_kept (.inl rfl), close_raise]
    rfl

/-- Settles O55: `EXEC` raises `TIMEOUT`, and `HSK` makes `HS_FAIL` of it. -/
theorem shortResponseEndsTheTransaction : Obligations.ShortResponseEndsTheTransaction := by
  intro s q g f rest hs ha h₂ hg hk hq began
  refine ⟨fun lo L hL hlen => ?_, fun hlen => ?_⟩
  · obtain ⟨hready, hfatal⟩ := hs
    obtain ⟨m, hm, hbody⟩ :=
      execBody_short (s := accept (entryPoint (.exec false lo)) s) (lo := lo) ha hL h₂ hlen hg hk hq
    refine ⟨m, hm, ?_⟩
    rw [exec_taken hready (.inr hfatal), commandBody, hbody, close_raise]
    rfl
  · obtain ⟨m, hm, hbody⟩ := execBody_short (s := hskBegin (accept (entryPoint .hsk) s)) (lo := false) ha
      (expectedLen_hskBegin _) h₂ hlen hg hk hq
    refine ⟨m, _, hm, rfl, ?_⟩
    rw [exec_hsk hs, hbody, hskEnd_raise_other (by decide), close_raise]
    rfl

/-! ### The handshake's response -/

/-- The known headers of R130, with their classes. -/
theorem known_header_cases {h0 h1 : Byte} (hk : classify h0 h1 ≠ .unknown) :
    h0 = 0x01 ∧ (h1 = 0x03 ∧ classify h0 h1 = .read ∨ h1 = 0x06 ∧ classify h0 h1 = .write) := by
  rw [classify_eq] at hk ⊢
  split at hk
  case isTrue hread => exact ⟨hread.1, .inl ⟨hread.2, if_pos hread⟩⟩
  case isFalse hread =>
    split at hk
    case isTrue hwrite => exact ⟨hwrite.1, .inr ⟨hwrite.2, by rw [if_neg hread, if_pos hwrite]⟩⟩
    case isFalse => exact absurd rfl hk

/-- Settles O54: a Read header has the payload width of 7 bytes, so that the magic byte decides; a Write header has not. -/
theorem hskResult : Obligations.HskResult := by
  intro s q g f rest hs ha hlen hg hk hq began
  obtain ⟨m, hm, hbody⟩ := execBody_delivered (s := hskBegin (accept (entryPoint .hsk) s)) (lo := false) ha
    (by rw [hlen, expectedLen_hskBegin]) hg hk hq
  refine ⟨m, _, hm, rfl, ?_⟩
  rw [exec_hsk hs, hbody, hlen, expectedWidth_eq]
  obtain ⟨haddr, ⟨hread, hclass⟩ | ⟨hwrite, -⟩⟩ := known_header_cases hk
  · have hmagic : Memory.get? m 4 = some (f.getD 4 0) := by
      rw [hm 4, if_pos (by omega), List.getElem?_eq_getElem (by omega), List.getD_eq_getElem _ _ (by omega)]
    rw [if_pos (.inr (if_pos hread).symm), hskEnd_next_listed hmagic]
    by_cases hb : f.getD 4 0 = 0x82
    · rw [if_pos ⟨hclass, hb⟩, if_pos ⟨haddr, hread, hb⟩]
      rfl
    · rw [if_neg (fun h => hb h.2), if_neg (fun h => hb h.2.2), if_pos hread]
      rfl
  · have hread : f.getD 1 0 ≠ 0x03 := by
      rw [hwrite]
      decide
    have hwidth : ¬ (false = true ∨ 7 - 5 = if f.getD 1 0 = 0x03 then 2 else 3) := by
      rw [if_neg hread]
      decide
    rw [if_neg hwidth, hskEnd_raise_other (by decide), if_neg (fun h => hread h.2.1), if_neg hread]
    rfl

/-! ### A line that falls silent before a header (R135, R219) -/

/-- The result of a stream that ends after the garbage `g`. -/
def eosCode (g : List Byte) : Result := if g = [] then .timeout else .badHeader

theorem eosCode_isFatal (g : List Byte) : (eosCode g).isFatal = decide (g ≠ []) := by
  cases g <;> rfl

/-- What `HSK` makes of it. -/
theorem hskEnd_eosCode (g : List Byte) (s : State) :
    hskEnd (.raise (eosCode g) s) = .raise (if g = [] then .hsFail else .badHeader) (setHsOk false s) := by
  cases g <;> rfl

theorem isFatal_hskCode (g : List Byte) : (if g = [] then Result.hsFail else .badHeader).isFatal = true := by
  cases g <;> rfl

/-- Settles O45: in every command the search ends at the end of the stream with the registers as the prologue cleared
them. -/
theorem endOfStreamIsClassified : Obligations.EndOfStreamIsClassified := by
  intro s g rest q lo hs hg hq ended timedOut
  obtain ⟨hready, hfatal⟩ := hs
  have hended {code : Result} {u : State} (hf : u.status.fatal = false) (hc : u.status.hdrClass = .unknown)
      (hchk : u.status.crcChk = false) (hdrop : u.dropCnt = saturate16 g.length) (hrx : u.rxCnt = 0) (hpay : u.payLen = 0)
      (hfbuf : u.fbuf = s.fbuf) (hrest : u.line.rxq = rest) : ended code code.isFatal (complete code u) :=
    ⟨rfl, by rw [complete_status, hf, Bool.false_or], rfl, rfl, hc, hchk, hdrop, hrx, hpay, hfbuf, hrest⟩
  have htimedOut {u : State} (h : ended (eosCode g) (eosCode g).isFatal u) : timedOut u := by
    rwa [eosCode_isFatal] at h
  refine ⟨?_, fun hlen => ?_, fun ha => ⟨fun hlen => ?_, ?_⟩⟩
  · obtain ⟨a, b, hsearch⟩ := resync_eos (s := rxPrologue (accept (entryPoint .sync) s)) hg hq
    rw [exec_taken hready (.inr hfatal), commandBody, syncBody, hsearch]
    exact ⟨_, rfl, htimedOut (hended hfatal rfl rfl rfl rfl rfl rfl rfl), rfl⟩
  · obtain ⟨a, b, hsearch⟩ := resync_eos (s := rxPrologue (accept (entryPoint .rdf) s)) hg hq
    rw [exec_taken hready (.inr hfatal), commandBody, rdfBody_of_legal (s := accept (entryPoint .rdf) s) hlen.1 hlen.2,
      readFrame, hsearch]
    exact ⟨_, rfl, htimedOut (hended hfatal rfl rfl rfl rfl rfl rfl rfl), rfl⟩
  · obtain ⟨a, b, hbody⟩ := execBody_eos (s := accept (entryPoint (.exec false lo)) s) (lo := lo) ha hlen hg hq
    rw [exec_taken hready (.inr hfatal), commandBody, hbody]
    exact ⟨_, rfl, htimedOut (hended hfatal rfl rfl rfl rfl rfl rfl rfl), rfl⟩
  · obtain ⟨a, b, hbody⟩ := execBody_eos (s := hskBegin (accept (entryPoint .hsk) s)) (lo := false) ha
      (by simp [expectedLen_hskBegin]) hg hq
    have hcode := isFatal_hskCode g
    rw [exec_hsk ⟨hready, hfatal⟩, hbody, ← eosCode, hskEnd_eosCode]
    exact ⟨_, rfl, hcode ▸ hended hfatal rfl rfl rfl rfl rfl rfl rfl, rfl, rfl⟩

/-! ### PACE and the words of READREG and WRITEREG -/

/-- Settles O57: the pseudocode is the one `Wait`. -/
theorem paceResult : Obligations.PaceResult := by
  refine ⟨fun v hr ho => decode_of_plain_opcode (by decide) (by decide) hr ho, fun s hs => ?_⟩
  rw [exec_taken hs (.inl rfl), commandBody, paceBody, close_next]
  rfl

/-- The bytes of `REQ_LO` (R97). -/
theorem byteLane_macroReqLo (a : Half) (c : Word) :
    byteLane (macroReqLo a c) 0 = byteLane c 0 ∧ byteLane (macroReqLo a c) 1 = byteLane c 1 ∧
    byteLane (macroReqLo a c) 2 = hiByte a ||| byteLane c 2 ∧ byteLane (macroReqLo a c) 3 = loByte a ||| byteLane c 3 := by
  unfold macroReqLo byteLane
  refine ⟨?_, ?_, ?_, ?_⟩
  all_goals
    ext i hi
    interval_cases i <;> simp

/-- The bytes of `REQ_HI` (R97). -/
theorem byteLane_macroReqHi (n : Half) : byteLane (macroReqHi n) 0 = hiByte n ∧ byteLane (macroReqHi n) 1 = loByte n := by
  unfold macroReqHi byteLane
  refine ⟨?_, ?_⟩
  all_goals
    ext i hi
    interval_cases i <;> simp

/-- The request that the two words fill, for a code word without bits in its upper half. -/
theorem reqList_requestWords (s : State) (a n : Half) {c : Word} (h₂ : byteLane c 2 = 0#8)
    (h₃ : byteLane c 3 = 0#8) :
    reqList (regWrite .reqHi (macroReqHi n) (regWrite .reqLo (macroReqLo a c) s)).req =
      [byteLane c 0, byteLane c 1, hiByte a, loByte a, hiByte n, loByte n] := by
  obtain ⟨hlane0, hlane1, hlane2, hlane3⟩ := byteLane_macroReqLo a c
  obtain ⟨hhi, hlo⟩ := byteLane_macroReqHi n
  rw [h₂, BitVec.or_zero] at hlane2
  rw [h₃, BitVec.or_zero] at hlane3
  simp only [regWrite, reqList, hlane0, hlane1, hlane2, hlane3, hhi, hlo]

/-- Settles O60: the code words hold the address byte and the function code in their two lower lanes. -/
theorem registerMacrosFillTheRequest : Obligations.RegisterMacrosFillTheRequest := fun s a n _ =>
  ⟨reqList_requestWords s a n rfl rfl, reqList_requestWords s a n rfl rfl⟩

end Sys2Proof.Machine

/-! Line commands on any line: what each leaves unchanged (R46), that they complete where the line falls silent in the end
(R265), and how `HSK` can end (R174). -/

namespace Sys2Proof.Machine

/-! ### Sequencing -/

theorem Flow.All.mono {P Q : State → Prop} {f : Flow} (h : f.All P) (hpq : ∀ t, P t → Q t) : f.All Q := by
  cases f <;> exact hpq _ h

theorem Flow.All.andThen {P : State → Prop} {f : Flow} {k : State → Flow} (h : f.All P)
    (hk : ∀ t, P t → (k t).All P) : (f.andThen k).All P := by
  cases f with
  | next t => exact hk t h
  | raise c t => exact h
  | hold t => exact h

/-! ### What the line commands leave (R46) -/

/-- What every command that touches the line leaves of `s`, but for `HSK`'s own writes: the time waited, the request, and
`FBUF` beyond the bytes counted in `RX_CNT`. -/
structure LineFrame (s t : State) : Prop where
  waited : t.waited = s.waited
  req : t.req = s.req
  fbuf : ∀ a, t.rxCnt.toNat ≤ a → Memory.get? t.fbuf a = Memory.get? s.fbuf a

/-- What `EXEC` leaves: `HS_OK` as well. -/
structure ExecFrame (s t : State) : Prop extends LineFrame s t where
  hsOk : t.status.hsOk = s.status.hsOk

/-- What reading from the line leaves: the TX side as well. -/
structure RxFrame (s t : State) : Prop extends ExecFrame s t where
  txbuf : t.txbuf = s.txbuf
  txCnt : t.txCnt = s.txCnt
  txAnswers : t.line.txAnswers = s.line.txAnswers
  txlog : t.line.txlog = s.line.txlog

/-- `RxFrame` of a state that has the same receive count, and the same of all that it speaks of. -/
theorem RxFrame.setPoint {s t : State} (h : RxFrame s t) (p : SeqPoint) (n : Nat) : RxFrame s (setPoint p n t) := by
  obtain ⟨⟨⟨hwaited, hreq, hfbuf⟩, hok⟩, hbuf, hcnt, hanswers, hlog⟩ := h
  unfold Machine.setPoint
  split
  · exact ⟨⟨⟨hwaited, hreq, hfbuf⟩, hok⟩, hbuf, hcnt, hanswers, hlog⟩
  · exact ⟨⟨⟨hwaited, hreq, hfbuf⟩, hok⟩, hbuf, hcnt, hanswers, hlog⟩

theorem RxOnly.rxFrame {s t : State} (h : RxOnly s t) : RxFrame s t := by
  obtain ⟨_, _, _, _, _, rfl, -⟩ := h
  exact ⟨⟨⟨rfl, rfl, fun _ _ => rfl⟩, rfl⟩, rfl, rfl, rfl, rfl⟩

theorem RxOnly.rxFrame_dropCnt {s t : State} (h : RxOnly s t) (d : Half) : RxFrame s { t with dropCnt := d } := by
  obtain ⟨_, _, _, _, _, rfl, -⟩ := h
  exact ⟨⟨⟨rfl, rfl, fun _ _ => rfl⟩, rfl⟩, rfl, rfl, rfl, rfl⟩

theorem RxOnly.crc {s t : State} (h : RxOnly s t) : t.crc = s.crc := by
  obtain ⟨_, _, _, _, _, rfl, -⟩ := h
  rfl

/-- What `FOUND` writes is counted in `RX_CNT`. -/
theorem RxOnly.rxFrame_syncFound {s t : State} (h : RxOnly s t) (n : Nat) : RxFrame s (syncFound n t) := by
  rw [syncFound_eq]
  obtain ⟨_, _, _, _, _, rfl, -⟩ := h
  refine ⟨⟨⟨rfl, rfl, fun a ha => ?_⟩, rfl⟩, rfl, rfl, rfl, rfl⟩
  have ha' : 2 ≤ a := ha
  rw [fbufWrite_get? _ _ _ _ (by decide), if_neg (by omega), fbufWrite_get? _ _ _ _ (by decide), if_neg (by omega)]

/-- A search computes no CRC. -/
theorem resync_frame (s : State) : (resync s).All fun t => RxFrame s t ∧ t.crc = s.crc := by
  rcases resync_cases s with ⟨n, t, -, ht, -, h⟩ | ⟨n, t, ht, h⟩ | ⟨n, t, -, ht, -, -, h⟩ <;> rw [h]
  · exact ⟨ht.rxFrame_syncFound n, by rw [syncFound_eq]; exact ht.crc⟩
  · exact ⟨ht.rxFrame_dropCnt _, ht.crc⟩
  · exact ⟨ht.rxFrame.setPoint _ n, (setPoint_crc _ _ n).trans ht.crc⟩

/-- Delivering a frame computes registers from `FBUF`. -/
theorem RxFrame.deliver {s t : State} (h : RxFrame s t) (n : Nat) : RxFrame s (deliver n t) := by
  obtain ⟨⟨⟨hwaited, hreq, hfbuf⟩, hok⟩, hbuf, hcnt, hanswers, hlog⟩ := h
  obtain ⟨c, e, v, d, hd⟩ := deliver_cases n t
  rw [hd]
  exact ⟨⟨⟨hwaited, hreq, hfbuf⟩, hok⟩, hbuf, hcnt, hanswers, hlog⟩

theorem readFrame_frame {n : Nat} (h₅ : 5 ≤ n) (h₅₁₂ : n ≤ 512) (s : State) : (readFrame n s).All (RxFrame s) := by
  rcases readFrame_cases n (by omega) h₅₁₂ s with
    ⟨k, t, ht, h⟩ | ⟨k, t, -, ht, -, -, h⟩ | ⟨r, t, m, b, d, c, ht, -, hr, -, hm, h⟩ <;> rw [h]
  · exact ht.rxFrame_dropCnt _
  · exact ht.rxFrame.setPoint _ k
  · have hframe : RxFrame s { t with
        status := { s.status with hdrClass := c }, fbuf := m, rxCnt := BitVec.ofNat 16 r, lenByte := b, dropCnt := d } := by
      obtain ⟨_, _, _, _, _, rfl, -⟩ := ht
      refine ⟨⟨⟨rfl, rfl, fun a ha => hm a ?_⟩, rfl⟩, rfl, rfl, rfl, rfl⟩
      rwa [half_toNat (by omega)] at ha
    split
    · exact hframe
    · exact hframe.deliver n

theorem ExecFrame.widthCheck {s t : State} (h : ExecFrame s t) (lo : Bool) : (widthCheck lo t).All (ExecFrame s) := by
  obtain ⟨⟨hwaited, hreq, hfbuf⟩, hok⟩ := h
  rcases widthCheck_cases lo t with ⟨d, hw⟩ | ⟨d, hw⟩ <;> rw [hw] <;> exact ⟨⟨hwaited, hreq, hfbuf⟩, hok⟩

/-- The transmit step sends and counts, whatever the line answers. -/
theorem transmit_all (s : State) : (transmit s).All fun t => ∃ k q d, t = transmitted k q d s := by
  obtain ⟨k, q, d, -, h⟩ := transmit_cases s
  rw [h]
  split <;> exact ⟨k, q, d, rfl⟩

theorem ExecFrame.of_transmitted {s t : State} {k : Nat} {q : List Bool} {d : Nat}
    (h : ExecFrame (transmitted k q d (prepareRequest s)) t) : ExecFrame s t :=
  ⟨⟨h.waited, h.req, h.fbuf⟩, h.hsOk⟩

theorem execBody_frame (lo : Bool) (s : State) : (execBody false lo s).All (ExecFrame s) := by
  rw [execBody, if_neg Bool.false_ne_true]
  cases hL : expectedLen lo s with
  | none => exact ⟨⟨rfl, rfl, fun _ _ => rfl⟩, rfl⟩
  | some n =>
    obtain ⟨h₅, h₅₁₂⟩ := expectedLen_bounds hL
    obtain ⟨k, q, d, -, h⟩ := transmit_cases (prepareRequest s)
    simp only [h]
    split
    · exact ⟨⟨rfl, rfl, fun _ _ => rfl⟩, rfl⟩
    · rw [andThen_next]
      exact ((readFrame_frame h₅ h₅₁₂ _).mono fun t ht => ExecFrame.of_transmitted ht.toExecFrame).andThen
        fun t ht => ht.widthCheck lo

/-- The end of `HSK` writes `HS_OK` beside what its `EXEC` does. -/
theorem hskEnd_frame {s : State} {f : Flow} (h : f.All (LineFrame s)) : (hskEnd f).All (LineFrame s) := by
  cases f with
  | next t =>
    obtain ⟨hwaited, hreq, hfbuf⟩ := h
    obtain ⟨d, ⟨ht, -⟩ | ht⟩ := hskEnd_next t <;> rw [ht] <;> exact ⟨hwaited, hreq, hfbuf⟩
  | raise c t =>
    obtain ⟨hwaited, hreq, hfbuf⟩ := h
    exact ⟨hwaited, hreq, hfbuf⟩
  | hold t => exact h

theorem hskBody_frame (s : State) : (hskBody s).All (LineFrame (hskBegin s)) :=
  hskEnd_frame ((execBody_frame false (hskBegin s)).mono fun _ ht => ht.toLineFrame)

theorem sendBody_all (s : State) : (sendBody s).All fun t => ∃ k q d, t = transmitted k q d s :=
  transmit_all s

theorem execBody_noresp_all (lo : Bool) (s : State) :
    (execBody true lo s).All fun t => ∃ k q d, t = transmitted k q d (prepareRequest s) := by
  rw [execBody, if_pos rfl]
  exact transmit_all _

theorem rdfBody_frame (s : State) : (rdfBody s).All (RxFrame s) := by
  cases hL : expLenOperand s with
  | none =>
    simp only [rdfBody, hL]
    exact ⟨⟨⟨rfl, rfl, fun _ _ => rfl⟩, rfl⟩, rfl, rfl, rfl, rfl⟩
  | some n =>
    obtain ⟨-, h₅, h₅₁₂⟩ := expLenOperand_bounds hL
    simp only [rdfBody, hL]
    exact (readFrame_frame h₅ h₅₁₂ (rxPrologue s)).mono fun t ht =>
      ⟨⟨⟨ht.waited, ht.req, ht.fbuf⟩, ht.hsOk⟩, ht.txbuf, ht.txCnt, ht.txAnswers, ht.txlog⟩

/-- What the command `i`, which touches the line, leaves beside the host's own registers and side. -/
structure LineCommandFrame (i : Instr) (s t : State) : Prop where
  waited : t.waited = s.waited
  fbuf : ∀ a, t.rxCnt.toNat ≤ a ∨ i = .send → Memory.get? t.fbuf a = Memory.get? s.fbuf a
  req : i ≠ .hsk → t.req = s.req ∧ t.status.hsOk = s.status.hsOk
  tx : i = .sync ∨ i = .rdf → t.txbuf = s.txbuf ∧ t.txCnt = s.txCnt ∧
    t.line.txAnswers = s.line.txAnswers ∧ t.line.txlog = s.line.txlog
  crc : i = .sync ∨ i = .send → t.crc = s.crc
  send : i = .send → t.txbuf = s.txbuf ∧ t.rxCnt = s.rxCnt ∧ t.payLen = s.payLen ∧ t.respVal = s.respVal ∧
    t.lenByte = s.lenByte ∧ t.dropCnt = s.dropCnt ∧ t.status.crcChk = s.status.crcChk ∧
    t.status.crcErr = s.status.crcErr ∧ t.status.hdrClass = s.status.hdrClass ∧ t.win0 = s.win0 ∧ t.win1 = s.win1
  rx : readsLine i = false → t.line.rxq = s.line.rxq ∧ t.line.tail = s.line.tail ∧ t.win0 = s.win0 ∧ t.win1 = s.win1

theorem LineCommandFrame.complete {i : Instr} {s t : State} (c : Result) (h : LineCommandFrame i s t) :
    LineCommandFrame i s (complete c t) :=
  ⟨h.waited, h.fbuf, h.req, h.tx, h.crc, h.send, h.rx⟩

theorem commandBody_frame {i : Instr} (hi : touchesLine i = true) (s : State) :
    (commandBody i s).All (LineCommandFrame i s) := by
  cases i with
  | send =>
    refine (sendBody_all s).mono ?_
    rintro t ⟨k, q, d, rfl⟩
    exact ⟨rfl, fun _ _ => rfl, fun _ => ⟨rfl, rfl⟩, fun h => by simp at h, fun _ => rfl,
      fun _ => ⟨rfl, rfl, rfl, rfl, rfl, rfl, rfl, rfl, rfl, rfl, rfl⟩, fun _ => ⟨rfl, rfl, rfl, rfl⟩⟩
  | sync =>
    refine (resync_frame (rxPrologue s)).mono fun t ⟨ht, hcrc⟩ => ?_
    exact ⟨ht.waited, fun a ha => ht.fbuf a (ha.resolve_right (by simp)), fun _ => ⟨ht.req, ht.hsOk⟩,
      fun _ => ⟨ht.txbuf, ht.txCnt, ht.txAnswers, ht.txlog⟩, fun _ => hcrc, fun h => by simp at h,
      fun h => by simp [readsLine] at h⟩
  | rdf =>
    refine (rdfBody_frame s).mono fun t ht => ?_
    exact ⟨ht.waited, fun a ha => ht.fbuf a (ha.resolve_right (by simp)), fun _ => ⟨ht.req, ht.hsOk⟩,
      fun _ => ⟨ht.txbuf, ht.txCnt, ht.txAnswers, ht.txlog⟩, fun h => by simp at h, fun h => by simp at h,
      fun h => by simp [readsLine] at h⟩
  | exec nr lo =>
    cases nr with
    | true =>
      refine (execBody_noresp_all lo s).mono ?_
      rintro t ⟨k, q, d, rfl⟩
      exact ⟨rfl, fun _ _ => rfl, fun _ => ⟨rfl, rfl⟩, fun h => by simp at h, fun h => by simp at h,
        fun h => by simp at h, fun _ => ⟨rfl, rfl, rfl, rfl⟩⟩
    | false =>
      refine (execBody_frame lo s).mono fun t ht => ?_
      exact ⟨ht.waited, fun a ha => ht.fbuf a (ha.resolve_right (by simp)), fun _ => ⟨ht.req, ht.hsOk⟩,
        fun h => by simp at h, fun h => by simp at h, fun h => by simp at h, fun h => by simp [readsLine] at h⟩
  | hsk =>
    refine (hskBody_frame s).mono fun t ht => ?_
    exact ⟨ht.waited, fun a ha => ht.fbuf a (ha.resolve_right (by simp)), fun h => absurd rfl h,
      fun h => by simp at h, fun h => by simp at h, fun h => by simp at h, fun h => by simp [readsLine] at h⟩
  | nop | crci | crcb | crcg | crcv | hdrc | enc | pace => cases hi

/-- How a command of a block that is ready ends: at once, or as its pseudocode does. -/
theorem exec_cases {i : Instr} {s t : State} (hs : Ready s) (h : exec i s = .next t) :
    t = completeAtOnce .locked s ∨ t = (commandBody i (accept (entryPoint i) s)).close := by
  rw [exec_eq_issue] at h
  cases h
  rcases issue_cases (touchesLine i) (entryPoint i) (commandBody i) s with
    ⟨hr, -⟩ | ⟨-, hbusy, -⟩ | ⟨-, -, -, h⟩ | ⟨-, -, h⟩
  · exact absurd (hs.1.symm.trans hr) Bool.false_ne_true
  · exact absurd (hs.2.symm.trans hbusy) Bool.false_ne_true
  · exact .inl h
  · exact .inr h

/-- The host's own registers and side, the latch `COLLIDE` and the `rst` input, after a closed stretch. -/
theorem close_host_kept {s : State} {f : Flow} (h : f.Kept s) : f.close.ie = s.ie ∧ f.close.bufLen = s.bufLen ∧
    f.close.expLen = s.expLen ∧ f.close.status.collide = s.status.collide ∧ f.close.rst = s.rst ∧
    f.close.host = s.host := by
  rcases close_effect h with hk | ⟨code, t, hk, ht⟩
  · exact ⟨hk.ie, hk.bufLen, hk.expLen, hk.collide, hk.rst, hk.host⟩
  · rw [ht]
    exact ⟨hk.ie, hk.bufLen, hk.expLen, hk.collide, hk.rst, hk.host⟩

/-- Settles O59: a locked command writes `RESULT` and `DONE` alone, and one that is taken leaves what its pseudocode
leaves, for acceptance and completion write nothing else of it. -/
theorem lineCommandFrames : Obligations.LineCommandFrames := by
  intro s t i hs hi hexec
  rcases exec_cases hs hexec with rfl | rfl
  · exact ⟨rfl, rfl, rfl, rfl, rfl, rfl, rfl, fun _ _ => rfl, fun _ => ⟨rfl, rfl⟩, fun _ => ⟨rfl, rfl, rfl, rfl⟩,
      fun _ => rfl, fun _ => ⟨rfl, rfl, rfl, rfl, rfl, rfl, rfl, rfl, rfl, rfl, rfl⟩, fun _ => ⟨rfl, rfl, rfl, rfl⟩⟩
  · obtain ⟨hie, hbuf, hexp, hcollide, hrst, hhost⟩ := close_host_kept (commandBody_kept i (accept (entryPoint i) s))
    obtain ⟨hwaited, hfbuf, hreq, htx, hcrc, hsend, hrx⟩ :=
      (commandBody_frame hi (accept (entryPoint i) s)).close fun c _ ht => ht.complete c
    exact ⟨hie, hbuf, hexp, hcollide, hrst, hhost, hwaited, hfbuf, hreq, htx, hcrc, hsend, hrx⟩

/-! ### Completion (R265) -/

/-- The stretch does not leave the command running. -/
def Flow.Ends : Flow → Prop
  | .next _ | .raise _ _ => True
  | .hold _ => False

theorem Flow.Ends.andThen {f : Flow} {k : State → Flow} (h : f.Ends) (hk : ∀ t, (k t).Ends) : (f.andThen k).Ends := by
  cases f with
  | next t => exact hk t
  | raise c t => exact h
  | hold t => exact h

theorem Flow.Ends.close {f : Flow} (h : f.Ends) : ∃ c t, f.close = complete c t := by
  cases f with
  | next t => exact ⟨_, t, rfl⟩
  | raise c t => exact ⟨c, t, rfl⟩
  | hold t => exact h.elim

theorem transmit_ends (s : State) : (transmit s).Ends := by
  obtain ⟨k, q, d, -, h⟩ := transmit_cases s
  rw [h]
  split <;> trivial

theorem widthCheck_ends (lo : Bool) (s : State) : (widthCheck lo s).Ends := by
  rcases widthCheck_cases lo s with ⟨d, h⟩ | ⟨d, h⟩ <;> rw [h] <;> trivial

/-- Only a line that never falls silent keeps a search on. -/
theorem resync_ends {s : State} (h : s.line.tail = .silent) : (resync s).Ends := by
  rcases resync_cases s with ⟨n, t, -, -, -, h'⟩ | ⟨n, t, -, h'⟩ | ⟨n, t, -, -, -, hno, -⟩
  · rw [h']
    trivial
  · rw [h']
    trivial
  · exact absurd h hno

theorem readRest_ends (n : Nat) (s : State) : (readRest n s).Ends := by
  unfold readRest
  split
  · trivial
  · dsimp only
    split <;> trivial

theorem readFrame_ends (n : Nat) {s : State} (h : s.line.tail = .silent) : (readFrame n s).Ends :=
  (resync_ends h).andThen (readRest_ends n)

theorem execBody_ends (nr lo : Bool) {s : State} (h : s.line.tail = .silent) : (execBody nr lo s).Ends := by
  cases nr with
  | true =>
    rw [execBody, if_pos rfl]
    exact transmit_ends _
  | false =>
    cases hL : expectedLen lo s with
    | none =>
      rw [execBody_of_no_length hL]
      trivial
    | some n =>
      obtain ⟨k, q, d, -, ht⟩ := transmit_cases (prepareRequest s)
      simp only [execBody, hL, ht, Bool.false_eq_true, if_false]
      split
      · trivial
      · exact (readFrame_ends n (s := transmitted k q d (prepareRequest s)) h).andThen (widthCheck_ends lo)

theorem hskEnd_ends {f : Flow} (h : f.Ends) : (hskEnd f).Ends := by
  cases f with
  | next t => obtain ⟨d, ⟨h', -⟩ | h'⟩ := hskEnd_next t <;> rw [h'] <;> trivial
  | raise c t => trivial
  | hold t => exact h

theorem commandBody_ends {i : Instr} (hi : touchesLine i = true) {s : State} (h : s.line.tail = .silent) :
    (commandBody i s).Ends := by
  cases i with
  | send => exact transmit_ends s
  | sync => exact resync_ends (s := rxPrologue s) h
  | rdf =>
    simp only [commandBody, rdfBody]
    split
    · trivial
    · exact readFrame_ends _ (s := rxPrologue s) h
  | exec nr lo => exact execBody_ends nr lo h
  | hsk => exact hskEnd_ends (execBody_ends false false (s := hskBegin s) h)
  | nop | crci | crcb | crcg | crcv | hdrc | enc | pace => cases hi

/-- Settles O58: the one stretch that can leave a command running is a search on a line that never falls silent. -/
theorem lineCommandsComplete : Obligations.LineCommandsComplete := by
  intro s i hs hi hsilent
  obtain ⟨hready, hfatal⟩ := hs
  obtain ⟨c, t, ht⟩ := (commandBody_ends hi (s := accept (entryPoint i) s) hsilent).close
  rw [exec_taken hready (.inr hfatal), ht]
  exact ⟨_, rfl, rfl, rfl, rfl⟩

/-! ### The outcomes of HSK (R174, R219) -/

/-- What `HSK` makes of any end of its `EXEC`, by its result: only `OK` leaves `HS_OK = 1` and `FATAL` alone. -/
theorem hskEnd_outcome {s : State} {f : Flow} (hf : f.Kept s) (hbusy : s.status.busy = true) (hfatal : s.status.fatal = false) :
    (hskEnd f).close.status.busy = true ∨
    ((hskEnd f).close.status.result = .ok ∧ (hskEnd f).close.status.hsOk = true ∧ (hskEnd f).close.status.fatal = false) ∨
    (((hskEnd f).close.status.result = .hsFail ∨ (hskEnd f).close.status.result = .incompleteWrite ∨
      (hskEnd f).close.status.result = .badHeader) ∧
      (hskEnd f).close.status.hsOk = false ∧ (hskEnd f).close.status.fatal = true) := by
  cases f with
  | next t =>
    have hkept : t.status.fatal = false := hf.fatal.trans hfatal
    obtain ⟨d, ⟨h, -⟩ | h⟩ := hskEnd_next t
    · rw [h]
      exact .inr (.inl ⟨rfl, rfl, by simp [hkept, Result.isFatal]⟩)
    · rw [h]
      exact .inr (.inr ⟨.inl rfl, rfl, by simp [Result.isFatal]⟩)
  | raise c t =>
    by_cases hc : c = .incompleteWrite ∨ c = .badHeader
    · rw [hskEnd_raise_kept hc]
      refine .inr (.inr ⟨.inr hc, rfl, ?_⟩)
      rcases hc with rfl | rfl <;> simp [Result.isFatal]
    · rw [hskEnd_raise_other hc]
      exact .inr (.inr ⟨.inl rfl, rfl, by simp [Result.isFatal]⟩)
  | hold t => exact .inl (hf.busy.trans hbusy)

/-- Settles O56: the end of `EXEC` inside decides, and nothing after `HSK`'s start writes `REQ`. -/
theorem hskOutcomes : Obligations.HskOutcomes := by
  intro s hs
  have hkept : (execBody false false (hskBegin (accept (entryPoint .hsk) s))).Kept (accept (entryPoint .hsk) s) :=
    Flow.Kept.trans (hskBegin_kept _) (execBody_kept _ _ _)
  have hreq := ((hskBody_frame (accept (entryPoint .hsk) s)).mono fun _ ht => ht.req).close
    (P := fun t => t.req = Config.hsReq) fun _ _ ht => ht
  refine ⟨_, exec_hsk hs, congrArg reqList hreq, fun hidle => ?_⟩
  rcases hskEnd_outcome hkept rfl hs.2 with hbusy | ⟨hresult, hok, hfatal⟩ | ⟨hresult, hok, hfatal⟩
  · exact absurd (hidle.symm.trans hbusy) Bool.false_ne_true
  · exact ⟨.inl hresult, by simp [hok, hresult], by simp [hfatal, hresult]⟩
  · refine ⟨.inr hresult, ?_, ?_⟩
    · rw [hok]
      rcases hresult with h | h | h <;> rw [h] <;> rfl
    · rw [hfatal]
      rcases hresult with h | h | h <;> rw [h] <;> rfl

end Sys2Proof.Machine
